-- ==== Sys2Proof/Word.lean ====
section
/-! DEFINITION. The value types of the unit (spec/00_scope.md R10, R13): bytes, 32-bit register values, 4-byte words,
and the 4-by-4 grid of bytes that the cipher state, the initialization vector and the cursor hold. -/

namespace Sys2Proof

/-- A byte, the spec's FieldByte: as a field element, bit i is the coefficient of x^i (R13). -/
abbrev Byte := BitVec 8

/-- The value of a general register, of a control register, of a command word or of an argument (R10: 32 bits). -/
abbrev RegVal := BitVec 32

/-- One command transaction, `I = {ARG, W}` (R90: 64 bits). -/
abbrev Command := BitVec 64

/-- A word, the spec's FieldWord: the ordered 4-tuple `word(c0, c1, c2, c3)` (R13). -/
structure FieldWord where
  c0 : Byte
  c1 : Byte
  c2 : Byte
  c3 : Byte
  deriving DecidableEq, Repr

/-- The word whose four coefficients are zero. -/
def FieldWord.zero : FieldWord := ⟨0, 0, 0, 0⟩

/-- A state value, the spec's 4-tuple of words `(T[0], T[1], T[2], T[3])`: `tc` is column c (R160). -/
structure Grid where
  t0 : FieldWord
  t1 : FieldWord
  t2 : FieldWord
  t3 : FieldWord
  deriving DecidableEq, Repr

/-- The state value whose sixteen bytes are zero (R51). -/
def Grid.zero : Grid := ⟨FieldWord.zero, FieldWord.zero, FieldWord.zero, FieldWord.zero⟩

end Sys2Proof
end

