-- ==== Sys2Proof/Config.lean ====
section
/-! DEFINITION. What the design fixes (spec/00_scope.md R9, R10), the one open parameter that has a value at reset
(R11, MEM_SIZE), and the one free value (spec/20_memory.md R78, the contents of memory at power-up). -/

namespace Sys2Proof

/-- The number of general registers (R10, NX). -/
abbrev Config.numRegs : Nat := 16

/-- The capacity of the round-key memory in words (R10, RK_WORDS). -/
abbrev Config.rkWords : Nat := 60

/-- The block size in bytes (R9, BS). -/
abbrev Config.blockSize : Nat := 16

/-- The largest MEM_SIZE the spec allows (R11): 2^32 bytes, the whole 32-bit address space. -/
abbrev Config.maxMemSize : Nat := 4294967296

/-- MEM_SIZE of the machine that `State.reset` describes. DESIGN CHOICE (assumption 2): R11 leaves MEM_SIZE open, and
spec/95_test_vectors.md section 3 runs its programs with 0x1000. `State.memSize` carries the parameter, so a statement
about every state is a statement about every MEM_SIZE. -/
def Config.memSizeAtReset : Nat := 0x1000

/-- The byte at an address that neither the host nor the unit has written: a FREE VALUE (R78; U21 of
spec/93_implementation_defined.md: any value, never zero by assumption). It has no body, so nothing can be proved of it;
it depends on the address alone, because a read changes nothing and repeating it gives the same result (R72).
Assumption 1. -/
opaque Config.powerUpByte : Nat → Byte

end Sys2Proof
end

