-- ==== Sys2Proof/Syntax.lean ====
section
/-! DEFINITION. The commands of the unit (spec/30_encoding.md R95): one constructor for each of the 38 rows of
spec/opcode_table.json, in the table's order, with the operands its format gives it (R92, R93). -/

namespace Sys2Proof

/-- The number of a general register, `x0` .. `x15` (R22). Every value of the 4-bit field names a register (R91). -/
abbrev Reg := Fin Config.numRegs

/-- A command. `csr` is a control-register number, `round` a round index, `nk` a key length in words, `n` a schedule
length in words: 12-bit immediates used as they stand (R93), so natural numbers below 4096 (checked in WellFormed).
`pos` is a coefficient position 0..3 and `arg` the 32-bit argument. -/
inductive Instr where
  | nop
  | li (rd : Reg) (arg : RegVal)
  | rd (ra : Reg)
  | mv (rd ra : Reg)
  | csrr (rd : Reg) (csr : Nat)
  | csrw (csr : Nat) (ra : Reg)
  | csrwi (csr : Nat) (arg : RegVal)
  | csrrd (csr : Nat)
  | gfadd (rd ra rb : Reg)
  | gfmul (rd ra rb : Reg)
  | xtime (rd ra : Reg)
  | sbox (rd ra : Reg)
  | isbox (rd ra : Reg)
  | wadd (rd ra rb : Reg)
  | wmul (rd ra rb : Reg)
  | subw (rd ra : Reg)
  | rotw (rd ra : Reg)
  | wext (rd ra : Reg) (pos : Fin 4)
  | wins (rd ra : Reg) (pos : Fin 4)
  | lds
  | sts
  | subbytes
  | isubbytes
  | shiftrows
  | ishiftrows
  | mixcols
  | imixcols
  | addrk (round : Nat)
  | kexp (nk : Nat)
  | ldrk (n : Nat)
  | enc
  | dec
  | cbcenc
  | cbcdec
  | ctr
  | ldiv
  | pad
  | unpad
  deriving DecidableEq, Repr

end Sys2Proof
end

