-- ==== Sys2Proof/WellFormed.lean ====
section
/-! DEFINITION. Which terms of `Instr` are commands the encoding can express: a 12-bit immediate is below 4096
(spec/30_encoding.md R91, R93). Register numbers, coefficient positions and arguments are in range by their types. An
immediate that is encodable but that the command does not accept is well formed: the command is decoded and then raises
its own fault (R93). -/

namespace Sys2Proof

/-- A value of the 12-bit unsigned field `imm` (R91). -/
def immOk (v : Nat) : Bool := decide (v < 4096)

/-- The command can be written as a command word. -/
def Instr.wellFormed : Instr → Bool
  | .nop => true
  | .li _ _ => true
  | .rd _ => true
  | .mv _ _ => true
  | .csrr _ csr => immOk csr
  | .csrw csr _ => immOk csr
  | .csrwi csr _ => immOk csr
  | .csrrd csr => immOk csr
  | .gfadd _ _ _ => true
  | .gfmul _ _ _ => true
  | .xtime _ _ => true
  | .sbox _ _ => true
  | .isbox _ _ => true
  | .wadd _ _ _ => true
  | .wmul _ _ _ => true
  | .subw _ _ => true
  | .rotw _ _ => true
  | .wext _ _ _ => true
  | .wins _ _ _ => true
  | .lds => true
  | .sts => true
  | .subbytes => true
  | .isubbytes => true
  | .shiftrows => true
  | .ishiftrows => true
  | .mixcols => true
  | .imixcols => true
  | .addrk round => immOk round
  | .kexp nk => immOk nk
  | .ldrk n => immOk n
  | .enc => true
  | .dec => true
  | .cbcenc => true
  | .cbcdec => true
  | .ctr => true
  | .ldiv => true
  | .pad => true
  | .unpad => true

end Sys2Proof
end

