-- ==== Sys2Proof/Decode.lean ====
section
/-! DEFINITION. The command encoding (spec/30_encoding.md): the fields of the command word (R91), the formats and their
masks (R92), the opcode map (R95), the decoder (total; it rejects by name, R96) and the encoder. -/

namespace Sys2Proof

/-! ### The command transaction and the fields of the command word (R90, R91) -/

/-- `W = I[31:0]` (R90). -/
def Command.word (I : Command) : RegVal := I.extractLsb' 0 32

/-- `ARG = I[63:32]` (R90). -/
def Command.arg (I : Command) : RegVal := I.extractLsb' 32 32

/-- `I = {ARG, W}` (R90). -/
def Command.ofParts (arg w : RegVal) : Command := arg ++ w

/-- `op = W[31:24]`. -/
def fieldOp (w : RegVal) : Byte := w.extractLsb' 24 8

/-- `rd = W[23:20]`. -/
def fieldRd (w : RegVal) : Reg := (w.extractLsb' 20 4).toFin

/-- `ra = W[19:16]`. -/
def fieldRa (w : RegVal) : Reg := (w.extractLsb' 16 4).toFin

/-- `rb = W[15:12]`. -/
def fieldRb (w : RegVal) : Reg := (w.extractLsb' 12 4).toFin

/-- `imm = W[11:0]`, unsigned (R93). -/
def fieldImm (w : RegVal) : Nat := (w.extractLsb' 0 12).toNat

/-- `pos = imm[1:0]` (R93). -/
def fieldPos (w : RegVal) : Fin 4 := (w.extractLsb' 0 2).toFin

/-- The command word with the five fields of R91. -/
def assemble (op : Byte) (rd ra rb : Reg) (imm : Nat) : RegVal :=
  op ++ BitVec.ofFin (w := 4) rd ++ BitVec.ofFin (w := 4) ra ++ BitVec.ofFin (w := 4) rb ++ BitVec.ofNat 12 imm

/-! ### Formats and opcodes (R92, R95) -/

/-- The formats of R92: which fields a command uses. -/
inductive Format where
  | n | r3 | r2 | rp | d | a | cr | cw | ci | co | i
  deriving DecidableEq, Repr

/-- The mask of W that must match (R92). Every bit outside the fields a format uses is reserved (R94). -/
def Format.mask : Format → RegVal
  | .n  => 0xFFFFFFFF
  | .r3 => 0xFF000FFF
  | .r2 => 0xFF00FFFF
  | .rp => 0xFF00FFFC
  | .d  => 0xFF0FFFFF
  | .a  => 0xFFF0FFFF
  | .cr => 0xFF0FF000
  | .cw => 0xFFF0F000
  | .ci => 0xFFFFF000
  | .co => 0xFFFFF000
  | .i  => 0xFFFFF000

/-- The mnemonics of the opcode map, one for each row of R95. -/
inductive Opcode where
  | nop | li | rd | mv | csrr | csrw | csrwi | csrrd
  | gfadd | gfmul | xtime | sbox | isbox
  | wadd | wmul | subw | rotw | wext | wins
  | lds | sts | subbytes | isubbytes | shiftrows | ishiftrows | mixcols | imixcols | addrk
  | kexp | ldrk
  | enc | dec
  | cbcenc | cbcdec | ctr | ldiv | pad | unpad
  deriving DecidableEq, Repr

/-- The rows of the opcode map, in the order of R95. -/
def Opcode.all : List Opcode :=
  List.flatten
    [[.nop, .li, .rd, .mv, .csrr, .csrw, .csrwi, .csrrd],
     [.gfadd, .gfmul, .xtime, .sbox, .isbox],
     [.wadd, .wmul, .subw, .rotw, .wext, .wins],
     [.lds, .sts, .subbytes, .isubbytes, .shiftrows, .ishiftrows, .mixcols, .imixcols, .addrk],
     [.kexp, .ldrk],
     [.enc, .dec],
     [.cbcenc, .cbcdec, .ctr, .ldiv, .pad, .unpad]]

/-- The opcode value of a row (R95, column op). -/
def Opcode.byte : Opcode → Byte
  | .nop => 0x00
  | .li => 0x01
  | .rd => 0x02
  | .mv => 0x03
  | .csrr => 0x04
  | .csrw => 0x05
  | .csrwi => 0x06
  | .csrrd => 0x07
  | .gfadd => 0x10
  | .gfmul => 0x11
  | .xtime => 0x12
  | .sbox => 0x13
  | .isbox => 0x14
  | .wadd => 0x20
  | .wmul => 0x21
  | .subw => 0x22
  | .rotw => 0x23
  | .wext => 0x24
  | .wins => 0x25
  | .lds => 0x30
  | .sts => 0x31
  | .subbytes => 0x32
  | .isubbytes => 0x33
  | .shiftrows => 0x34
  | .ishiftrows => 0x35
  | .mixcols => 0x36
  | .imixcols => 0x37
  | .addrk => 0x38
  | .kexp => 0x40
  | .ldrk => 0x41
  | .enc => 0x50
  | .dec => 0x51
  | .cbcenc => 0x60
  | .cbcdec => 0x61
  | .ctr => 0x62
  | .ldiv => 0x63
  | .pad => 0x68
  | .unpad => 0x69

/-- The format of a row (R95, column format). -/
def Opcode.format : Opcode → Format
  | .nop | .lds | .sts | .subbytes | .isubbytes | .shiftrows | .ishiftrows | .mixcols | .imixcols => .n
  | .enc | .dec | .cbcenc | .cbcdec | .ctr | .ldiv | .pad | .unpad => .n
  | .gfadd | .gfmul | .wadd | .wmul => .r3
  | .mv | .xtime | .sbox | .isbox | .subw | .rotw => .r2
  | .wext | .wins => .rp
  | .li => .d
  | .rd => .a
  | .csrr => .cr
  | .csrw => .cw
  | .csrwi => .ci
  | .csrrd => .co
  | .addrk | .kexp | .ldrk => .i

/-- The value a row's masked command word must have: `op << 24`, every other bit zero (R92). -/
def Opcode.matchBits (o : Opcode) : RegVal := o.byte ++ (0 : BitVec 24)

/-- The row whose opcode value is `b`, if there is one (R95). -/
def Opcode.ofByte (b : Byte) : Option Opcode := Opcode.all.find? (fun o => o.byte == b)

/-! ### The decoder (R92 to R96) -/

/-- Why a command word is illegal (R96). -/
inductive Reject where
  /-- The opcode value is in no row of R95. -/
  | unknownOpcode
  /-- A bit outside the fields of the row's format is set (R94). -/
  | reservedBit
  deriving DecidableEq, Repr

/-- The command of a row, its operands taken from the command word and the argument (R91, R93). ARG is ignored by
every command but LI and CSRWI (R94). -/
def Opcode.build (o : Opcode) (w arg : RegVal) : Instr :=
  match o with
  | .nop => .nop
  | .li => .li (fieldRd w) arg
  | .rd => .rd (fieldRa w)
  | .mv => .mv (fieldRd w) (fieldRa w)
  | .csrr => .csrr (fieldRd w) (fieldImm w)
  | .csrw => .csrw (fieldImm w) (fieldRa w)
  | .csrwi => .csrwi (fieldImm w) arg
  | .csrrd => .csrrd (fieldImm w)
  | .gfadd => .gfadd (fieldRd w) (fieldRa w) (fieldRb w)
  | .gfmul => .gfmul (fieldRd w) (fieldRa w) (fieldRb w)
  | .xtime => .xtime (fieldRd w) (fieldRa w)
  | .sbox => .sbox (fieldRd w) (fieldRa w)
  | .isbox => .isbox (fieldRd w) (fieldRa w)
  | .wadd => .wadd (fieldRd w) (fieldRa w) (fieldRb w)
  | .wmul => .wmul (fieldRd w) (fieldRa w) (fieldRb w)
  | .subw => .subw (fieldRd w) (fieldRa w)
  | .rotw => .rotw (fieldRd w) (fieldRa w)
  | .wext => .wext (fieldRd w) (fieldRa w) (fieldPos w)
  | .wins => .wins (fieldRd w) (fieldRa w) (fieldPos w)
  | .lds => .lds
  | .sts => .sts
  | .subbytes => .subbytes
  | .isubbytes => .isubbytes
  | .shiftrows => .shiftrows
  | .ishiftrows => .ishiftrows
  | .mixcols => .mixcols
  | .imixcols => .imixcols
  | .addrk => .addrk (fieldImm w)
  | .kexp => .kexp (fieldImm w)
  | .ldrk => .ldrk (fieldImm w)
  | .enc => .enc
  | .dec => .dec
  | .cbcenc => .cbcenc
  | .cbcdec => .cbcdec
  | .ctr => .ctr
  | .ldiv => .ldiv
  | .pad => .pad
  | .unpad => .unpad

/-- The decoder: a 64-bit value is exactly one command of R95, or illegal (R96). A word selects a row when
`(W & mask) = match` (R92); the rows differ in their opcodes, so the opcode field alone names the row to compare with. -/
def decode (I : Command) : Except Reject Instr :=
  match Opcode.ofByte (fieldOp I.word) with
  | none => .error .unknownOpcode
  | some o =>
    if I.word &&& o.format.mask = o.matchBits then .ok (o.build I.word I.arg) else .error .reservedBit

/-! ### The encoder -/

/-- The row of the opcode map a command belongs to (R95). -/
def Instr.opcode : Instr → Opcode
  | .nop => .nop
  | .li _ _ => .li
  | .rd _ => .rd
  | .mv _ _ => .mv
  | .csrr _ _ => .csrr
  | .csrw _ _ => .csrw
  | .csrwi _ _ => .csrwi
  | .csrrd _ => .csrrd
  | .gfadd _ _ _ => .gfadd
  | .gfmul _ _ _ => .gfmul
  | .xtime _ _ => .xtime
  | .sbox _ _ => .sbox
  | .isbox _ _ => .isbox
  | .wadd _ _ _ => .wadd
  | .wmul _ _ _ => .wmul
  | .subw _ _ => .subw
  | .rotw _ _ => .rotw
  | .wext _ _ _ => .wext
  | .wins _ _ _ => .wins
  | .lds => .lds
  | .sts => .sts
  | .subbytes => .subbytes
  | .isubbytes => .isubbytes
  | .shiftrows => .shiftrows
  | .ishiftrows => .ishiftrows
  | .mixcols => .mixcols
  | .imixcols => .imixcols
  | .addrk _ => .addrk
  | .kexp _ => .kexp
  | .ldrk _ => .ldrk
  | .enc => .enc
  | .dec => .dec
  | .cbcenc => .cbcenc
  | .cbcdec => .cbcdec
  | .ctr => .ctr
  | .ldiv => .ldiv
  | .pad => .pad
  | .unpad => .unpad

/-- The command word W of a command: its opcode, its operands in their fields, every other bit zero (R91 to R94). -/
def encodeWord (i : Instr) : RegVal :=
  match i with
  | .li rd _ => assemble i.opcode.byte rd 0 0 0
  | .rd ra => assemble i.opcode.byte 0 ra 0 0
  | .mv rd ra | .xtime rd ra | .sbox rd ra | .isbox rd ra | .subw rd ra | .rotw rd ra =>
    assemble i.opcode.byte rd ra 0 0
  | .csrr rd csr => assemble i.opcode.byte rd 0 0 csr
  | .csrw csr ra => assemble i.opcode.byte 0 ra 0 csr
  | .csrwi csr _ | .csrrd csr => assemble i.opcode.byte 0 0 0 csr
  | .gfadd rd ra rb | .gfmul rd ra rb | .wadd rd ra rb | .wmul rd ra rb => assemble i.opcode.byte rd ra rb 0
  | .wext rd ra pos | .wins rd ra pos => assemble i.opcode.byte rd ra 0 pos
  | .addrk v | .kexp v | .ldrk v => assemble i.opcode.byte 0 0 0 v
  | .nop | .lds | .sts | .subbytes | .isubbytes | .shiftrows | .ishiftrows | .mixcols | .imixcols
  | .enc | .dec | .cbcenc | .cbcdec | .ctr | .ldiv | .pad | .unpad => assemble i.opcode.byte 0 0 0 0

/-- The argument of a command: the value LI loads or CSRWI writes; zero for the commands that ignore it (R93, R94). -/
def encodeArg (i : Instr) : RegVal :=
  match i with
  | .li _ arg | .csrwi _ arg => arg
  | .nop | .rd _ | .mv _ _ | .csrr _ _ | .csrw _ _ | .csrrd _ | .gfadd _ _ _ | .gfmul _ _ _ | .xtime _ _
  | .sbox _ _ | .isbox _ _ | .wadd _ _ _ | .wmul _ _ _ | .subw _ _ | .rotw _ _ | .wext _ _ _ | .wins _ _ _
  | .lds | .sts | .subbytes | .isubbytes | .shiftrows | .ishiftrows | .mixcols | .imixcols
  | .addrk _ | .kexp _ | .ldrk _ | .enc | .dec | .cbcenc | .cbcdec | .ctr | .ldiv | .pad | .unpad => 0

/-- The command transaction of a command (R90). -/
def encode (i : Instr) : Command := Command.ofParts (encodeArg i) (encodeWord i)

/-! ### The host's table numbering -/

/-- The transaction whose bits are the low `nbits` of `w`, bit 0 the least significant bit of W; every bit above `nbits`
is 0, so a table row of 32 bits comes with ARG = 0. -/
def commandOfTable (nbits w : Nat) : Command := BitVec.ofNat 64 (w % 2 ^ nbits)

/-- What the decoder reads from a row of spec/opcode_table.json. -/
def decodeTableWord (nbits w : Nat) : Option Instr :=
  match decode (commandOfTable nbits w) with
  | .ok i => some i
  | .error _ => none

end Sys2Proof
end

