-- ==== Sys2Proof/Machine/State.lean ====
section
/-! DEFINITION. The architectural state of the unit, complete as spec/10_state.md R21 lists it and under the spec's own
names, beside it the command port (the host's pending actions and the unit's last response), and the state after reset
(R51, R350). -/

namespace Sys2Proof.Machine

/-- The causes of a fault (spec/60_exceptions.md R303). Taking one is a NEXT state of the machine, the one R304
describes, and no stop of the model. -/
inductive Cause where
  /-- The command word matches no row of the opcode map. -/
  | illegalCmd
  /-- A control-register number outside the map, or a write to a read-only register. -/
  | illegalCsr
  /-- KEXP with nk other than 4, 6, 8. -/
  | keySize
  /-- A schedule length that is not a multiple of 4, or is at most 4, given to the cipher driver. -/
  | rkLen
  /-- ADDRK with a slice not wholly inside the installed schedule. -/
  | rkSlice
  /-- LDRK with more than 60 words. -/
  | rkCount
  /-- A range that is not wholly inside the data memory. -/
  | addrRange
  /-- A read range and a write range that overlap. -/
  | overlap
  deriving DecidableEq, Repr

/-- The codes of a data-format error (R311); code 0, no error, is no error to report. -/
inductive DataError where
  /-- Chained decryption of a length that is not a multiple of 16. -/
  | format
  /-- Nothing to unpad, or a pad-length byte larger than the buffer. -/
  | pad
  deriving DecidableEq, Repr

/-- The status of a response (spec/30_encoding.md R98); the value 3 is never produced. -/
inductive Status where
  | ok | err | fault
  deriving DecidableEq, Repr

/-- The response to a command, `rsp = (st, code, res)` (R98). -/
structure Response where
  st : Status
  code : Byte
  res : RegVal
  deriving DecidableEq, Repr

/-- What the host can do to the unit between two commands (R20, R350): issue a command, write its data memory, or
reset the unit. -/
inductive HostEvent where
  /-- Issue one 64-bit command transaction (R90). -/
  | command (I : Command)
  /-- Write a byte sequence into the data memory, its first byte at `addr` (R20, R60). -/
  | store (addr : RegVal) (bytes : List Byte)
  /-- Reset, the unit's one asynchronous input (R350); with atomic commands it falls between commands (R351). -/
  | reset
  deriving DecidableEq, Repr

/-- Where a step of the model stops with a fault. No COMMAND of the unit ends here: a contract violation is an
architectural fault, which the unit takes and survives (`Cause`, R304). -/
inductive Fault where
  /-- Raised by a host store (HostEvent.store) to a byte outside 0 .. MEM_SIZE-1, an address that does not exist
  (R11, R60). Safe: the spec gives such a store no effect. -/
  | hostStoreOutsideMemory
  deriving DecidableEq, Repr

/-- Where the model has no meaning to give. -/
inductive Refusal where
  /-- Raised by exec's arm for a command that has no meaning yet. Safe. No arm is left that raises it. -/
  | notModelled (mnemonic : String)
  deriving DecidableEq, Repr

/-- The data memory: the bytes that the host or the unit has written, as (address, byte) pairs with strictly rising
addresses (`Memory.wf`). An address that is not listed holds no known value (R78); what reading it gives is said by
`Memory.readByte`. -/
abbrev Memory := List Host.Cell

/-- The state of the machine. Every field down to `MEM` is a row of R21, under its own name. -/
structure State where
  /-- The general registers `x[0..15]` (R22). -/
  x : Vector RegVal Config.numRegs
  /-- The cipher state `S[0..3]`, column c in word c (R26). -/
  S : Grid
  /-- The round-key memory `RK[0..59]` (R29). -/
  RK : Vector FieldWord Config.rkWords
  /-- The number of valid words in RK, 0..60 (R29). -/
  RKLEN : Nat
  /-- The initialization vector `IV[0..3]` (R32). -/
  IV : Grid
  /-- The mode cursor `CUR[0..3]` (R32). -/
  CUR : Grid
  /-- The source address (R37). -/
  SRC : RegVal
  /-- The destination address (R38). -/
  DST : RegVal
  /-- The length of the source buffer in bytes (R39). -/
  LEN : RegVal
  /-- The length of the last output in bytes (R40). -/
  OUTLEN : RegVal
  /-- The code of the last data-format error: 0 none, 1 Format, 2 Pad (R42); two bits, 3 never stored. -/
  ERR : BitVec 2
  /-- The fault latch (R33). -/
  FAULT : Bool
  /-- The cause code of the latched fault (R33). -/
  FCAUSE : Byte
  /-- The command word of the faulting command (R33). -/
  FINFO : RegVal
  /-- The data memory (R48). -/
  MEM : Memory
  /-- The parameter MEM_SIZE (R11): addresses 0 .. MEM_SIZE-1 exist. No step changes it; it stands here, and not in
  Config, so that every statement about every state holds for every MEM_SIZE (assumption 2). -/
  memSize : Nat
  /-- The MODEL's own field: what the host does next, the next event first (assumption 3). The spec's step function
  takes the command as an argument (R20); the host's step here takes none. -/
  inbox : List HostEvent
  /-- The MODEL's own field: the response the unit returned last, none if it has returned none since reset (R98, R50;
  assumption 4). -/
  rsp : Option Response
  deriving DecidableEq, Repr

/-- The machine right after reset (R51, R350): every register zero, no schedule, not faulted. Memory has nothing
listed, since reset does not touch it and its power-up contents are unspecified (R78); the host has nothing pending. -/
def State.reset : State where
  x := Vector.replicate Config.numRegs 0
  S := Grid.zero
  RK := Vector.replicate Config.rkWords FieldWord.zero
  RKLEN := 0
  IV := Grid.zero
  CUR := Grid.zero
  SRC := 0
  DST := 0
  LEN := 0
  OUTLEN := 0
  ERR := 0
  FAULT := false
  FCAUSE := 0
  FINFO := 0
  MEM := []
  memSize := Config.memSizeAtReset
  inbox := []
  rsp := none

end Sys2Proof.Machine
end

