-- ==== Sys2Proof/Machine/Flags.lean ====
section
/-! DEFINITION. The unit has no condition codes, carry, zero or overflow flags (spec/10_state.md R25). Its only status
is the fault latch and the error code; this file gives the numbers of both (spec/60_exceptions.md R303, R311), the
response codes (spec/30_encoding.md R98), and the condition the cipher driver checks (spec/44_cipher_driver.md R211). -/

namespace Sys2Proof.Machine

/-- FCAUSE of a cause (R303). -/
def Cause.code : Cause → Byte
  | .illegalCmd => 1
  | .illegalCsr => 2
  | .keySize => 3
  | .rkLen => 4
  | .rkSlice => 5
  | .rkCount => 6
  | .addrRange => 7
  | .overlap => 8

/-- The code of an error as the ERR register holds it (R311). -/
def DataError.bits : DataError → BitVec 2
  | .format => 1
  | .pad => 2

/-- The code of an error as the response carries it (R98, R311). -/
def DataError.code (e : DataError) : Byte := e.bits.zeroExtend 8

/-- The two status bits of a response (R98). -/
def Status.bits : Status → BitVec 2
  | .ok => 0
  | .err => 1
  | .fault => 2

/-- `rk_valid(L)` (R211): the schedule lengths the cipher driver accepts. -/
def rkValid (l : Nat) : Bool := l % 4 == 0 && decide (4 < l)

/-- `Nr = L/4 - 1` (R210): the number of rounds of a schedule of `l` words. -/
def roundsOf (l : Nat) : Nat := l / 4 - 1

/-- The `fault` output (R306): a level, equal to the FAULT bit. -/
def State.faultOutput (s : State) : Bool := s.FAULT

end Sys2Proof.Machine
end

