-- ==== Sys2Proof/Machine/Operands.lean ====
section
/-! DEFINITION. The operand forms: how a register value is read as a byte or as a word (spec/00_scope.md R13, R14,
spec/10_state.md R23), how words and blocks lie in a byte sequence (spec/20_memory.md R64, R65), the general registers
(R22), the round-key memory (R29), and the control registers with their map (R35 to R47). -/

namespace Sys2Proof

/-! ### Words and register values (R13, R14) -/

/-- `coef(w, k)` (R13). -/
def FieldWord.coef (w : FieldWord) (k : Fin 4) : Byte :=
  match k with
  | 0 => w.c0
  | 1 => w.c1
  | 2 => w.c2
  | 3 => w.c3

/-- The word whose coefficient k is `f k`. -/
def FieldWord.ofCoef (f : Fin 4 → Byte) : FieldWord := ⟨f 0, f 1, f 2, f 3⟩

/-- The word with coefficient `k` replaced by `b`. -/
def FieldWord.setCoef (w : FieldWord) (k : Fin 4) (b : Byte) : FieldWord :=
  match k with
  | 0 => { w with c0 := b }
  | 1 => { w with c1 := b }
  | 2 => { w with c2 := b }
  | 3 => { w with c3 := b }

/-- `pack(w) = {c0, c1, c2, c3}` (R14): coefficient 0 in bits 31:24. -/
def FieldWord.pack (w : FieldWord) : RegVal := w.c0 ++ w.c1 ++ w.c2 ++ w.c3

/-- `unpack`, the inverse of `pack` (R14). -/
def FieldWord.unpack (v : RegVal) : FieldWord :=
  ⟨v.extractLsb' 24 8, v.extractLsb' 16 8, v.extractLsb' 8 8, v.extractLsb' 0 8⟩

/-- The byte a field-byte command reads from a register: bits 7:0 (R23). -/
def lowByte (v : RegVal) : Byte := v.extractLsb' 0 8

/-- `zext_32` of a byte (R15, R23). -/
def zextByte (b : Byte) : RegVal := b.zeroExtend 32

/-! ### State values and byte sequences (R64, R65, R160, R162) -/

/-- `T[c]`, column c of a state value (R160). -/
def Grid.col (t : Grid) (c : Fin 4) : FieldWord :=
  match c with
  | 0 => t.t0
  | 1 => t.t1
  | 2 => t.t2
  | 3 => t.t3

/-- The state value with column `c` replaced by `w`. -/
def Grid.setCol (t : Grid) (c : Fin 4) (w : FieldWord) : Grid :=
  match c with
  | 0 => { t with t0 := w }
  | 1 => { t with t1 := w }
  | 2 => { t with t2 := w }
  | 3 => { t with t3 := w }

/-- `byte(T, r, c) = coef(T[c], r)`: the byte in row r, column c (R15, R26). -/
def Grid.at (t : Grid) (r c : Fin 4) : Byte := (t.col c).coef r

/-- The state value whose byte in row r, column c is `f r c`. -/
def Grid.ofBytes (f : Fin 4 → Fin 4 → Byte) : Grid :=
  ⟨FieldWord.ofCoef (f · 0), FieldWord.ofCoef (f · 1), FieldWord.ofCoef (f · 2), FieldWord.ofCoef (f · 3)⟩

/-- The state value whose columns are the images of `t`'s columns. -/
def Grid.mapCols (f : FieldWord → FieldWord) (t : Grid) : Grid := ⟨f t.t0, f t.t1, f t.t2, f t.t3⟩

/-- `bytes_of(w) = [c0, c1, c2, c3]` (R64): coefficient k at offset k. -/
def bytesOf (w : FieldWord) : List Byte := [w.c0, w.c1, w.c2, w.c3]

/-- `word_of(s) = word(s[0], s[1], s[2], s[3])` for the four bytes of `s` from index `k` on (R64). The rules use it
inside a sequence only. -/
def wordAt (s : List Byte) (k : Nat) : FieldWord :=
  ⟨s.getD k 0, s.getD (k + 1) 0, s.getD (k + 2) 0, s.getD (k + 3) 0⟩

/-- `to_block(T)` (R162): byte 4c+r is the byte in row r, column c. -/
def toBlock (t : Grid) : List Byte := bytesOf t.t0 ++ bytesOf t.t1 ++ bytesOf t.t2 ++ bytesOf t.t3

/-- `from_block(b)` (R162) for a block of 16 bytes: `T[c] = word(b[4c], b[4c+1], b[4c+2], b[4c+3])`. -/
def fromBlock (b : List Byte) : Grid := ⟨wordAt b 0, wordAt b 4, wordAt b 8, wordAt b 12⟩

end Sys2Proof

namespace Sys2Proof.Machine

/-! ### General registers (R22) -/

/-- `x[r]`. -/
def State.reg (s : State) (r : Reg) : RegVal := s.x[r]

/-- `x[r] <- v`. No register is hardwired. -/
def State.setReg (s : State) (r : Reg) (v : RegVal) : State := { s with x := s.x.set r v }

/-! ### The round-key memory (R29) -/

/-- `RK[i]`, for i in 0..59; no rule reads beyond. -/
def rkWord (rk : Vector FieldWord Config.rkWords) (i : Nat) : FieldWord := rk[i]?.getD FieldWord.zero

/-- `slice(RK, r) = (RK[4r], RK[4r+1], RK[4r+2], RK[4r+3])` (R171, R212). -/
def rkSlice (rk : Vector FieldWord Config.rkWords) (r : Nat) : Grid :=
  ⟨rkWord rk (4 * r), rkWord rk (4 * r + 1), rkWord rk (4 * r + 2), rkWord rk (4 * r + 3)⟩

/-- `RK[i] <- ws[i]` for each index i of `ws`; the other words keep their values (R194, R195). -/
def rkInstall (rk : Vector FieldWord Config.rkWords) (ws : List FieldWord) : Vector FieldWord Config.rkWords :=
  Vector.ofFn fun i => (ws[i.val]?).getD rk[i]

/-! ### Control registers (R35 to R47) -/

/-- The control registers of the map (R36). -/
inductive Csr where
  | src | dst | len | outlen | nblk | err | rklen
  | s (c : Fin 4)
  | iv (c : Fin 4)
  | cur (c : Fin 4)
  | rk (i : Fin 60)
  deriving DecidableEq, Repr

/-- The register a number names, if it is assigned (R36). -/
def Csr.ofNumber (n : Nat) : Option Csr :=
  match n with
  | 0x000 => some .src
  | 0x001 => some .dst
  | 0x002 => some .len
  | 0x003 => some .outlen
  | 0x004 => some .nblk
  | 0x005 => some .err
  | 0x006 => some .rklen
  | n =>
    if h : 0x010 ≤ n ∧ n < 0x014 then some (.s ⟨n - 0x010, by omega⟩)
    else if h : 0x014 ≤ n ∧ n < 0x018 then some (.iv ⟨n - 0x014, by omega⟩)
    else if h : 0x018 ≤ n ∧ n < 0x01C then some (.cur ⟨n - 0x018, by omega⟩)
    else if h : 0x040 ≤ n ∧ n < 0x07C then some (.rk ⟨n - 0x040, by omega⟩)
    else none

/-- Whether the host may write the register (R36, column access). -/
def Csr.writable : Csr → Bool
  | .src | .dst | .len | .s _ | .iv _ => true
  | .outlen | .nblk | .err | .rklen | .cur _ | .rk _ => false

/-- `LEN/16 + 1` (R41): how many blocks the padding scheme makes of a message of `n` bytes. -/
def blockCount (n : Nat) : Nat := n / Config.blockSize + 1

/-- The value a read of a control register returns (R37 to R47). -/
def State.readCsr (s : State) : Csr → RegVal
  | .src => s.SRC
  | .dst => s.DST
  | .len => s.LEN
  | .outlen => s.OUTLEN
  | .nblk => BitVec.ofNat 32 (blockCount s.LEN.toNat)
  | .err => s.ERR.zeroExtend 32
  | .rklen => BitVec.ofNat 32 s.RKLEN
  | .s c => (s.S.col c).pack
  | .iv c => (s.IV.col c).pack
  | .cur c => (s.CUR.col c).pack
  | .rk i => s.RK[i].pack

/-- The state after `v` is written to a writable control register (R35: all 32 bits; R37 to R39, R44, R45). A read-only
register is unchanged: the commands fault before they come here. -/
def State.writeCsr (s : State) (r : Csr) (v : RegVal) : State :=
  match r with
  | .src => { s with SRC := v }
  | .dst => { s with DST := v }
  | .len => { s with LEN := v }
  | .s c => { s with S := s.S.setCol c (FieldWord.unpack v) }
  | .iv c => { s with IV := s.IV.setCol c (FieldWord.unpack v) }
  | .outlen | .nblk | .err | .rklen | .cur _ | .rk _ => s

end Sys2Proof.Machine
end

