-- ==== Sys2Proof/Machine/Ops.lean ====
section
/-! DEFINITION. The shared operations every meaning is written over: the data memory (spec/20_memory.md), bounded loops,
the response, taking a fault and refusing a command while one is latched (spec/60_exceptions.md R304, R305), reporting
an error (R310), and reset, the only way out of the fault state (R307, spec/70_reset_and_hazards.md R350). -/

namespace Sys2Proof.Machine

/-- What a meaning answers. -/
abbrev Result := Host.Outcome State Fault Refusal

/-! ### Bounded loops -/

/-- `for k = 0, 1, .., n-1: st = body k st`. -/
def forLoop {α : Type} (body : Nat → α → α) : Nat → α → α
  | 0, st => st
  | n + 1, st => body n (forLoop body n st)

/-- `for k = n-1, n-2, .., 0: st = body k st`. -/
def downLoop {α : Type} (body : Nat → α → α) : Nat → α → α
  | 0, st => st
  | n + 1, st => downLoop body n (body n st)

/-! ### The data memory -/

/-- The canonical form of a memory: addresses strictly rising. An unlisted address has no entry that could equal it: it
reads as no known value (`Memory.lookup` gives none), and a listed one as a byte. -/
abbrev Memory.wf (m : Memory) : Prop := m.Pairwise (fun p q => p.1 < q.1)

/-- The byte written at an address; none where nothing has been written, which is what EVERY unlisted address reads as
in this function. -/
def Memory.lookup : Memory → Nat → Option Byte
  | [], _ => none
  | (a, b) :: m, k => if k = a then some b else Memory.lookup m k

/-- `MEM[k]`: the byte written there, or the free value of an address nothing has been written to (R78). -/
def Memory.readByte (m : Memory) (k : Nat) : Byte := (Memory.lookup m k).getD (Config.powerUpByte k)

/-- `MEM[k] <- v`, keeping the canonical form. -/
def Memory.writeByte : Memory → Nat → Byte → Memory
  | [], k, v => [(k, v)]
  | (a, b) :: m, k, v =>
    if k < a then (k, v) :: (a, b) :: m
    else if k = a then (k, v) :: m
    else (a, b) :: Memory.writeByte m k v

/-- `MemRead(addr, n)` (R62): index 0 is the byte at the lowest address. -/
def Memory.readBytes (m : Memory) (addr : Nat) : Nat → List Byte
  | 0 => []
  | n + 1 => Memory.readByte m addr :: Memory.readBytes m (addr + 1) n

/-- `MemWrite(addr, n, v)` (R63) for the n bytes of `v`: byte k goes to `addr + k`. -/
def Memory.writeBytes (m : Memory) (addr : Nat) : List Byte → Memory
  | [] => m
  | b :: v => Memory.writeBytes (Memory.writeByte m addr b) (addr + 1) v

/-- `in_range(addr, n)` (R61), the sum taken without wrap-around. -/
abbrev inRange (memSize addr n : Nat) : Prop := n = 0 ∨ addr + n ≤ memSize

/-- `disjoint(a, n, b, m)` (R73). -/
abbrev disjoint (a n b m : Nat) : Prop := n = 0 ∨ m = 0 ∨ a + n ≤ b ∨ b + m ≤ a

/-- `xor_bytes(s, t)` (R230). Where one sequence is longer its further bytes are not used: the first m bytes of a
keystream block, with m bytes of data (R236). -/
def xorBytes (s t : List Byte) : List Byte := List.zipWith (· ^^^ ·) s t

/-! ### How a command ends -/

/-- The state with a response returned to the host. -/
def State.respond (s : State) (r : Response) : State := { s with rsp := some r }

/-- A command that ends without a fault or an error, its result in `res` (R15): the response is `(OK, 0, res)`. -/
def doneWith (res : RegVal) (s : State) : Result := .next (s.respond ⟨.ok, 0, res⟩)

/-- A command that ends without a fault or an error and returns no result (R15): the response is `(OK, 0, 0)`. -/
def done (s : State) : Result := doneWith 0 s

/-- The state after `raise Fault(cause)` by the command word `w` (R304): the latch, the cause, the command word and the
response, and nothing else. -/
def State.latchFault (s : State) (c : Cause) (w : RegVal) : State :=
  { s with FAULT := true, FCAUSE := c.code, FINFO := w, rsp := some ⟨.fault, c.code, 0⟩ }

/-- `raise Fault(cause)`: taking a fault (R304). It is a next state; nothing is saved anywhere else, no handler is
entered, and only reset leaves the state it puts the unit in (R307). -/
def raise (c : Cause) (w : RegVal) (s : State) : Result := .next (s.latchFault c w)

/-- The refusal of every command while FAULT = 1 (R305): the response carries the first fault's cause, and nothing
changes. -/
def State.refuse (s : State) : State := s.respond ⟨.fault, s.FCAUSE, 0⟩

/-- The check every command makes first (R305, R309 point 1): while FAULT = 1 it is refused; else it goes on to `r`. -/
def whenRunning (s : State) (r : Result) : Result := if s.FAULT then .next s.refuse else r

/-- The state after `error Err(code)` (R310). What the command wrote before stands, and FAULT is not touched. -/
def State.reportError (s : State) (e : DataError) : State :=
  { s with ERR := e.bits, OUTLEN := 0, rsp := some ⟨.err, e.code, 0⟩ }

/-- `error Err(code)` (R310): a recoverable error ends the command. -/
def reportError (e : DataError) (s : State) : Result := .next (s.reportError e)

/-! ### Reset and the host's own accesses -/

/-- Reset (R350): every state element takes its reset value (R51) but MEM, which is not changed. MEM_SIZE is a
parameter (R11), and the host's pending actions are the host's. -/
def State.resetUnit (s : State) : State :=
  { State.reset with MEM := s.MEM, memSize := s.memSize, inbox := s.inbox }

/-- The host writes the data memory between two commands (R20). A byte outside 0 .. MEM_SIZE-1 does not exist (R60). -/
def hostStore (addr : Nat) (bytes : List Byte) (s : State) : Result :=
  if inRange s.memSize addr bytes.length then .next { s with MEM := Memory.writeBytes s.MEM addr bytes }
  else .fault .hostStoreOutsideMemory

end Sys2Proof.Machine
end

