-- ==== Sys2Proof/Machine/HostAccess.lean ====
section
/-! DEFINITION. The host-access commands (spec/47_host_access.md): NOP, LI, RD, MV, CSRR, CSRW, CSRWI, CSRRD (R281 to
R288). -/

namespace Sys2Proof.Machine

/-- NOP (R281). -/
def execNop (s : State) : Result := whenRunning s (done s)

/-- LI rd (R282). -/
def execLi (rd : Reg) (arg : RegVal) (s : State) : Result := whenRunning s (done (s.setReg rd arg))

/-- RD ra (R283): the register's value is the response's result. -/
def execRd (ra : Reg) (s : State) : Result := whenRunning s (doneWith (s.reg ra) s)

/-- MV rd, ra (R284). -/
def execMv (rd ra : Reg) (s : State) : Result := whenRunning s (done (s.setReg rd (s.reg ra)))

/-- CSRR rd, csr (R285). -/
def execCsrr (rd : Reg) (csr : Nat) (s : State) : Result :=
  whenRunning s <|
    match Csr.ofNumber csr with
    | none => raise .illegalCsr (encodeWord (.csrr rd csr)) s
    | some r => done (s.setReg rd (s.readCsr r))

/-- The shared part of CSRW and CSRWI (R286, R287): write `v` to a read/write register, or raise IllegalCsr for the
command word `w`. -/
def writeCsrOrRaise (csr : Nat) (v w : RegVal) (s : State) : Result :=
  match Csr.ofNumber csr with
  | none => raise .illegalCsr w s
  | some r => if r.writable then done (s.writeCsr r v) else raise .illegalCsr w s

/-- CSRW csr, ra (R286). -/
def execCsrw (csr : Nat) (ra : Reg) (s : State) : Result :=
  whenRunning s (writeCsrOrRaise csr (s.reg ra) (encodeWord (.csrw csr ra)) s)

/-- CSRWI csr (R287). -/
def execCsrwi (csr : Nat) (arg : RegVal) (s : State) : Result :=
  whenRunning s (writeCsrOrRaise csr arg (encodeWord (.csrwi csr arg)) s)

/-- CSRRD csr (R288): the register's value is the response's result. -/
def execCsrrd (csr : Nat) (s : State) : Result :=
  whenRunning s <|
    match Csr.ofNumber csr with
    | none => raise .illegalCsr (encodeWord (.csrrd csr)) s
    | some r => doneWith (s.readCsr r) s

end Sys2Proof.Machine
end

