-- ==== Sys2Proof/Machine/FieldWord.lean ====
section
/-! DEFINITION. The field-word unit (spec/41_field_word.md): 4-byte polynomials modulo y^4+1, and the commands WADD,
WMUL, SUBW, ROTW, WEXT, WINS (R147 to R152). -/

namespace Sys2Proof.Machine

/-- `w_add(a, b)` (R141): coefficient by coefficient. -/
def wAdd (a b : FieldWord) : FieldWord := FieldWord.ofCoef fun k => gfAdd (a.coef k) (b.coef k)

/-- `w_mul(a, b)` (R142): coefficient j is the sum over k of `a`'s coefficient (j-k) mod 4 times `b`'s coefficient k. -/
def wMul (a b : FieldWord) : FieldWord :=
  FieldWord.ofCoef fun j =>
    gfMul (a.coef (j - 0)) (b.coef 0) ^^^ gfMul (a.coef (j - 1)) (b.coef 1)
      ^^^ gfMul (a.coef (j - 2)) (b.coef 2) ^^^ gfMul (a.coef (j - 3)) (b.coef 3)

/-- MIXC, the mix-column constant {03}y^3 + {01}y^2 + {01}y + {02} (R144). -/
def mixc : FieldWord := ⟨0x02, 0x01, 0x01, 0x03⟩

/-- IMIXC, its inverse {0b}y^3 + {0d}y^2 + {09}y + {0e} (R144). -/
def imixc : FieldWord := ⟨0x0e, 0x09, 0x0d, 0x0b⟩

/-- `sub_word(w)` (R145). -/
def subWord (w : FieldWord) : FieldWord := FieldWord.ofCoef fun k => sbox (w.coef k)

/-- `rot_word(w) = word(c1, c2, c3, c0)` (R146). -/
def rotWord (w : FieldWord) : FieldWord := ⟨w.c1, w.c2, w.c3, w.c0⟩

/-- WADD rd, ra, rb (R147). -/
def execWadd (rd ra rb : Reg) (s : State) : Result :=
  whenRunning s (done (s.setReg rd (wAdd (.unpack (s.reg ra)) (.unpack (s.reg rb))).pack))

/-- WMUL rd, ra, rb (R148): any two words. -/
def execWmul (rd ra rb : Reg) (s : State) : Result :=
  whenRunning s (done (s.setReg rd (wMul (.unpack (s.reg ra)) (.unpack (s.reg rb))).pack))

/-- SUBW rd, ra (R149). -/
def execSubw (rd ra : Reg) (s : State) : Result :=
  whenRunning s (done (s.setReg rd (subWord (.unpack (s.reg ra))).pack))

/-- ROTW rd, ra (R150). -/
def execRotw (rd ra : Reg) (s : State) : Result :=
  whenRunning s (done (s.setReg rd (rotWord (.unpack (s.reg ra))).pack))

/-- WEXT rd, ra, pos (R151): the byte at position pos, as a byte value. -/
def execWext (rd ra : Reg) (pos : Fin 4) (s : State) : Result :=
  whenRunning s (done (s.setReg rd (zextByte ((FieldWord.unpack (s.reg ra)).coef pos))))

/-- WINS rd, ra, pos (R152): the low byte of x[ra] replaces the coefficient at pos of the word in x[rd]. -/
def execWins (rd ra : Reg) (pos : Fin 4) (s : State) : Result :=
  whenRunning s (done (s.setReg rd ((FieldWord.unpack (s.reg rd)).setCoef pos (lowByte (s.reg ra))).pack))

end Sys2Proof.Machine
end

