-- ==== Sys2Proof/Machine/StateTransforms.lean ====
section
/-! DEFINITION. The cipher state (spec/42_state_transforms.md): the seven transformation functions (R165 to R171), and
the commands LDS, STS, SUBBYTES, ISUBBYTES, SHIFTROWS, ISHIFTROWS, MIXCOLS, IMIXCOLS, ADDRK (R163, R164, R173 to R179). -/

namespace Sys2Proof.Machine

/-- `sub_bytes(T)` (R165). -/
def subBytes (t : Grid) : Grid := Grid.ofBytes fun r c => sbox (t.at r c)

/-- `inv_sub_bytes(T)` (R166). -/
def invSubBytes (t : Grid) : Grid := Grid.ofBytes fun r c => invSbox (t.at r c)

/-- `shift_rows(T)` (R167): row r rotates left by r, toward column 0; column numbers are taken mod 4. -/
def shiftRows (t : Grid) : Grid := Grid.ofBytes fun r c => t.at r (c + r)

/-- `inv_shift_rows(T)` (R168): row r rotates right by r. -/
def invShiftRows (t : Grid) : Grid := Grid.ofBytes fun r c => t.at r (c - r)

/-- `mix_columns(T)` (R169). -/
def mixColumns (t : Grid) : Grid := t.mapCols fun w => wMul w mixc

/-- `inv_mix_columns(T)` (R170). -/
def invMixColumns (t : Grid) : Grid := t.mapCols fun w => wMul w imixc

/-- `add_round_key(T, k)` (R171). -/
def addRoundKey (t k : Grid) : Grid := ⟨wAdd t.t0 k.t0, wAdd t.t1 k.t1, wAdd t.t2 k.t2, wAdd t.t3 k.t3⟩

/-- LDS (R163). -/
def execLds (s : State) : Result :=
  whenRunning s <|
    if ¬ inRange s.memSize s.SRC.toNat 16 then raise .addrRange (encodeWord .lds) s
    else done { s with S := fromBlock (Memory.readBytes s.MEM s.SRC.toNat 16) }

/-- STS (R164). S is not changed. -/
def execSts (s : State) : Result :=
  whenRunning s <|
    if ¬ inRange s.memSize s.DST.toNat 16 then raise .addrRange (encodeWord .sts) s
    else done { s with MEM := Memory.writeBytes s.MEM s.DST.toNat (toBlock s.S) }

/-- SUBBYTES (R173). -/
def execSubbytes (s : State) : Result := whenRunning s (done { s with S := subBytes s.S })

/-- ISUBBYTES (R174). -/
def execIsubbytes (s : State) : Result := whenRunning s (done { s with S := invSubBytes s.S })

/-- SHIFTROWS (R175). -/
def execShiftrows (s : State) : Result := whenRunning s (done { s with S := shiftRows s.S })

/-- ISHIFTROWS (R176). -/
def execIshiftrows (s : State) : Result := whenRunning s (done { s with S := invShiftRows s.S })

/-- MIXCOLS (R177). -/
def execMixcols (s : State) : Result := whenRunning s (done { s with S := mixColumns s.S })

/-- IMIXCOLS (R178). -/
def execImixcols (s : State) : Result := whenRunning s (done { s with S := invMixColumns s.S })

/-- ADDRK round (R179). It asks of RKLEN only that the slice lies inside the installed schedule. -/
def execAddrk (round : Nat) (s : State) : Result :=
  whenRunning s <|
    if 4 * round + 4 > s.RKLEN then raise .rkSlice (encodeWord (.addrk round)) s
    else done { s with S := addRoundKey s.S (rkSlice s.RK round) }

end Sys2Proof.Machine
end

