-- ==== Sys2Proof/Machine/KeySchedule.lean ====
section
/-! DEFINITION. The key-schedule expander (spec/43_key_schedule.md): the round constants (R192), `key_expand` (R193), and
the commands KEXP and LDRK (R194, R195). -/

namespace Sys2Proof.Machine

/-- RCON (R192). Entry 0 is never read. -/
def rcon : List Byte := [0x00, 0x01, 0x02, 0x04, 0x08, 0x10, 0x20, 0x40, 0x80, 0x1b, 0x36]

/-- The round-constant word of index j: `word(RCON[j], 0, 0, 0)` (R192). -/
def rconWord (j : Nat) : FieldWord := ⟨rcon.getD j 0, 0x00, 0x00, 0x00⟩

/-- `temp` of `key_expand` (R193) for word i, from `w[i-1]`. -/
def expandTemp (nk i : Nat) (prev : FieldWord) : FieldWord :=
  if i % nk = 0 then wAdd (subWord (rotWord prev)) (rconWord (i / nk))
  else if 6 < nk ∧ i % nk = 4 then subWord prev
  else prev

/-- Word `i = nk + k` of `key_expand` (R193), appended to the i words before it. -/
def expandStep (nk k : Nat) (w : List FieldWord) : List FieldWord :=
  w ++ [wAdd (w.getD k FieldWord.zero) (expandTemp nk (nk + k) (w.getD (nk + k - 1) FieldWord.zero))]

/-- The nk words of a key of 4·nk bytes (R191). -/
def keyWords (key : List Byte) (nk : Nat) : List FieldWord := (List.range nk).map fun i => wordAt key (4 * i)

/-- `4·(Nr+1) = 4·(nk+7)`, the number of words of a schedule (R190, R193). -/
def scheduleWords (nk : Nat) : Nat := 4 * (nk + 7)

/-- `key_expand(key, Nk)` (R193). -/
def keyExpand (key : List Byte) (nk : Nat) : List FieldWord :=
  forLoop (expandStep nk) (scheduleWords nk - nk) (keyWords key nk)

/-- KEXP nk (R194). RK words at and above 4·(nk+7) keep their values. -/
def execKexp (nk : Nat) (s : State) : Result :=
  whenRunning s <|
    if ¬ (nk = 4 ∨ nk = 6 ∨ nk = 8) then raise .keySize (encodeWord (.kexp nk)) s
    else if ¬ inRange s.memSize s.SRC.toNat (4 * nk) then raise .addrRange (encodeWord (.kexp nk)) s
    else done { s with
      RK := rkInstall s.RK (keyExpand (Memory.readBytes s.MEM s.SRC.toNat (4 * nk)) nk)
      RKLEN := scheduleWords nk }

/-- The n words LDRK takes from memory: word i is `word_of(MemRead(addr + 4i, 4))` (R195). -/
def memWords (m : Memory) (addr n : Nat) : List FieldWord :=
  (List.range n).map fun i => wordAt (Memory.readBytes m (addr + 4 * i) 4) 0

/-- LDRK n (R195). Any n in 0..60, a multiple of 4 or not. -/
def execLdrk (n : Nat) (s : State) : Result :=
  whenRunning s <|
    if n > Config.rkWords then raise .rkCount (encodeWord (.ldrk n)) s
    else if ¬ inRange s.memSize s.SRC.toNat (4 * n) then raise .addrRange (encodeWord (.ldrk n)) s
    else done { s with RK := rkInstall s.RK (memWords s.MEM s.SRC.toNat n), RKLEN := n }

end Sys2Proof.Machine
end

