-- ==== Sys2Proof/Machine/CipherDriver.lean ====
section
/-! DEFINITION. The cipher driver (spec/44_cipher_driver.md): the forward and the inverse round loop (R212, R213), and
the commands ENC and DEC (R214, R215). -/

namespace Sys2Proof.Machine

/-- One round of the forward loop (R212), for round number `r`. -/
def cipherRound (rk : Vector FieldWord Config.rkWords) (r : Nat) (t : Grid) : Grid :=
  addRoundKey (mixColumns (shiftRows (subBytes t))) (rkSlice rk r)

/-- `cipher(T, RK, L)` (R212): the loop runs rounds 1 .. Nr-1; the last round mixes no columns. -/
def cipher (t : Grid) (rk : Vector FieldWord Config.rkWords) (l : Nat) : Grid :=
  let t := addRoundKey t (rkSlice rk 0)
  let t := forLoop (fun k => cipherRound rk (k + 1)) (roundsOf l - 1) t
  addRoundKey (shiftRows (subBytes t)) (rkSlice rk (roundsOf l))

/-- One round of the inverse loop (R213), for round number `r`: the round key is added before the inverse column
mixing. -/
def invCipherRound (rk : Vector FieldWord Config.rkWords) (r : Nat) (t : Grid) : Grid :=
  invMixColumns (addRoundKey (invSubBytes (invShiftRows t)) (rkSlice rk r))

/-- `inv_cipher(T, RK, L)` (R213): the loop runs rounds Nr-1 .. 1, descending. -/
def invCipher (t : Grid) (rk : Vector FieldWord Config.rkWords) (l : Nat) : Grid :=
  let t := addRoundKey t (rkSlice rk (roundsOf l))
  let t := downLoop (fun k => invCipherRound rk (k + 1)) (roundsOf l - 1) t
  addRoundKey (invSubBytes (invShiftRows t)) (rkSlice rk 0)

/-- ENC (R214). -/
def execEnc (s : State) : Result :=
  whenRunning s <|
    if ¬ rkValid s.RKLEN then raise .rkLen (encodeWord .enc) s
    else done { s with S := cipher s.S s.RK s.RKLEN }

/-- DEC (R215). -/
def execDec (s : State) : Result :=
  whenRunning s <|
    if ¬ rkValid s.RKLEN then raise .rkLen (encodeWord .dec) s
    else done { s with S := invCipher s.S s.RK s.RKLEN }

end Sys2Proof.Machine
end

