-- ==== Sys2Proof/Machine/Padding.lean ====
section
/-! DEFINITION. The padding scheme (spec/46_padding.md): the functions `pad`, `pad_block`, `unpad` (R261, R262), and the
commands PAD and UNPAD (R263, R264). -/

namespace Sys2Proof.Machine

/-- `pad(msg)` (R261): p copies of the byte p after the message, p = 16·nb - n in 1 .. 16. -/
def padMessage (msg : List Byte) : List Byte :=
  let p := 16 * blockCount msg.length - msg.length
  msg ++ List.replicate p (BitVec.ofNat 8 p)

/-- `pad_block(i) = pad(msg)[16i .. 16i+16)` (R261). -/
def padBlock (msg : List Byte) (i : Nat) : List Byte := ((padMessage msg).drop (16 * i)).take 16

/-- `pad_block(i)` for the message of n bytes at `addr` in memory, as R261 gives it: a full chunk is read whole, the
last one is read as far as the message goes and filled with its pad bytes. -/
def padBlockAt (m : Memory) (addr n i : Nat) : List Byte :=
  if i < blockCount n - 1 then Memory.readBytes m (addr + 16 * i) 16
  else
    let k := n - 16 * i
    Memory.readBytes m (addr + 16 * i) k ++ List.replicate (16 - k) (BitVec.ofNat 8 (16 - k))

/-- The number of bytes `unpad` keeps of a buffer of n bytes whose last byte is `last` (R262): the last byte is trusted
as the pad length; none where there is nothing to unpad or the pad length exceeds the buffer. -/
def unpadLength (n : Nat) (last : Byte) : Option Nat :=
  if n = 0 then none else if last.toNat > n then none else some (n - last.toNat)

/-- `unpad(buf)` (R262). -/
def unpadMessage (buf : List Byte) : Option (List Byte) :=
  (unpadLength buf.length (buf.getD (buf.length - 1) 0)).map (buf.take ·)

/-- The end of CBCDEC and UNPAD (R234, R264): with the buffer of n bytes at `addr`, report the Pad error, or put the
unpadded length into OUTLEN and clear ERR. -/
def finishUnpad (addr n : Nat) (s : State) : Result :=
  match unpadLength n (Memory.readByte s.MEM (addr + n - 1)) with
  | none => reportError .pad s
  | some l => done { s with OUTLEN := BitVec.ofNat 32 l, ERR := 0 }

/-- PAD (R263). -/
def execPad (s : State) : Result :=
  let n := s.LEN.toNat
  let nb := blockCount n
  let src := s.SRC.toNat
  let dst := s.DST.toNat
  whenRunning s <|
    if ¬ inRange s.memSize src n ∨ ¬ inRange s.memSize dst (16 * nb) then raise .addrRange (encodeWord .pad) s
    else if ¬ disjoint src n dst (16 * nb) then raise .overlap (encodeWord .pad) s
    else
      let m := forLoop (fun i m => Memory.writeBytes m (dst + 16 * i) (padBlockAt m src n i)) nb s.MEM
      done { s with MEM := m, OUTLEN := BitVec.ofNat 32 (16 * nb) }

/-- UNPAD (R264). It moves no data. -/
def execUnpad (s : State) : Result :=
  let n := s.LEN.toNat
  whenRunning s <|
    if ¬ inRange s.memSize s.SRC.toNat n then raise .addrRange (encodeWord .unpad) s
    else finishUnpad s.SRC.toNat n s

end Sys2Proof.Machine
end

