-- ==== Sys2Proof/Machine/Modes.lean ====
section
/-! DEFINITION. The mode engine (spec/45_modes.md): the counter increment (R235), the block steps of the chained and
counter modes, and the commands LDIV, CBCENC, CBCDEC, CTR (R232 to R236). -/

namespace Sys2Proof.Machine

/-- `enc_blk(b)` (R230): the keyed block function, forward. -/
def encBlk (rk : Vector FieldWord Config.rkWords) (l : Nat) (b : List Byte) : List Byte :=
  toBlock (cipher (fromBlock b) rk l)

/-- `dec_blk(b)` (R230): the keyed block function, inverse. -/
def decBlk (rk : Vector FieldWord Config.rkWords) (l : Nat) (b : List Byte) : List Byte :=
  toBlock (invCipher (fromBlock b) rk l)

/-- A byte sequence read as an unsigned integer, index 0 the most significant byte (R66). -/
def natOfBytes (b : List Byte) : Nat := b.foldl (fun v c => 256 * v + c.toNat) 0

/-- The `n` low bytes of an unsigned integer, index 0 the most significant (R66). -/
def bytesOfNat : Nat → Nat → List Byte
  | 0, _ => []
  | n + 1, v => BitVec.ofNat 8 (v / 256 ^ n) :: bytesOfNat n v

/-- `inc128(b)` (R235): add 1 modulo 2^128 to the block read as a big-endian integer. -/
def inc128 (b : List Byte) : List Byte := bytesOfNat 16 ((natOfBytes b + 1) % 2 ^ 128)

/-- LDIV (R232). CUR is not changed. -/
def execLdiv (s : State) : Result :=
  whenRunning s <|
    if ¬ inRange s.memSize s.SRC.toNat 16 then raise .addrRange (encodeWord .ldiv) s
    else done { s with IV := fromBlock (Memory.readBytes s.MEM s.SRC.toNat 16) }

/-- Block i of CBCENC (R233): XOR the padded block with the cursor, encrypt, store, and make it the cursor. -/
def cbcEncBlock (src dst n i : Nat) (s : State) : State :=
  let p := padBlockAt s.MEM src n i
  let c := cipher (fromBlock (xorBytes p (toBlock s.CUR))) s.RK s.RKLEN
  { s with S := c, MEM := Memory.writeBytes s.MEM (dst + 16 * i) (toBlock c), CUR := c }

/-- CBCENC (R233). The message is padded in line; the initialization vector is no part of the output. -/
def execCbcenc (s : State) : Result :=
  let n := s.LEN.toNat
  let nb := blockCount n
  let src := s.SRC.toNat
  let dst := s.DST.toNat
  whenRunning s <|
    if ¬ rkValid s.RKLEN then raise .rkLen (encodeWord .cbcenc) s
    else if ¬ inRange s.memSize src n ∨ ¬ inRange s.memSize dst (16 * nb) then raise .addrRange (encodeWord .cbcenc) s
    else if ¬ disjoint src n dst (16 * nb) then raise .overlap (encodeWord .cbcenc) s
    else
      let t := forLoop (cbcEncBlock src dst n) nb { s with CUR := s.IV }
      done { t with OUTLEN := BitVec.ofNat 32 (16 * nb) }

/-- Block i of CBCDEC (R234): decrypt, XOR with the cursor, store, and make the raw ciphertext block the cursor. -/
def cbcDecBlock (src dst i : Nat) (s : State) : State :=
  let c := Memory.readBytes s.MEM (src + 16 * i) 16
  let t := invCipher (fromBlock c) s.RK s.RKLEN
  { s with
    S := t
    MEM := Memory.writeBytes s.MEM (dst + 16 * i) (xorBytes (toBlock t) (toBlock s.CUR))
    CUR := fromBlock c }

/-- CBCDEC (R234). The Format check comes first; the pad length is trusted as the last output byte says, and the Pad
error comes after the work is done. -/
def execCbcdec (s : State) : Result :=
  let n := s.LEN.toNat
  let src := s.SRC.toNat
  let dst := s.DST.toNat
  whenRunning s <|
    if n % 16 ≠ 0 then reportError .format s
    else if ¬ rkValid s.RKLEN then raise .rkLen (encodeWord .cbcdec) s
    else if ¬ inRange s.memSize src n ∨ ¬ inRange s.memSize dst n then raise .addrRange (encodeWord .cbcdec) s
    else if ¬ disjoint src n dst n then raise .overlap (encodeWord .cbcdec) s
    else finishUnpad dst n (forLoop (cbcDecBlock src dst) (n / 16) { s with CUR := s.IV })

/-- `(n + 15)/16` (R236): the number of chunks of a message of n bytes. -/
def chunkCount (n : Nat) : Nat := (n + 15) / 16

/-- Chunk i of CTR (R236): encrypt the counter, XOR as many keystream bytes as the chunk has, and increment the
counter, after a short last chunk too. -/
def ctrChunk (src dst n i : Nat) (s : State) : State :=
  let m := min 16 (n - 16 * i)
  let ks := cipher s.CUR s.RK s.RKLEN
  let d := Memory.readBytes s.MEM (src + 16 * i) m
  { s with
    S := ks
    MEM := Memory.writeBytes s.MEM (dst + 16 * i) (xorBytes d ((toBlock ks).take m))
    CUR := fromBlock (inc128 (toBlock s.CUR)) }

/-- CTR (R236), for both directions. -/
def execCtr (s : State) : Result :=
  let n := s.LEN.toNat
  let src := s.SRC.toNat
  let dst := s.DST.toNat
  whenRunning s <|
    if ¬ rkValid s.RKLEN then raise .rkLen (encodeWord .ctr) s
    else if ¬ inRange s.memSize src n ∨ ¬ inRange s.memSize dst n then raise .addrRange (encodeWord .ctr) s
    else if ¬ disjoint src n dst n then raise .overlap (encodeWord .ctr) s
    else
      let t := forLoop (ctrChunk src dst n) (chunkCount n) { s with CUR := s.IV }
      done { t with OUTLEN := BitVec.ofNat 32 n }

end Sys2Proof.Machine
end

