-- ==== Sys2Proof/Machine/Dispatch.lean ====
section
/-! DEFINITION. exec: the effect of one decoded command, one arm for each row of spec/30_encoding.md R95. -/

namespace Sys2Proof.Machine

def exec (i : Instr) (s : State) : Host.Outcome State Fault Refusal :=
  match i with
  | .nop => Sys2Proof.Machine.execNop s
  | .li rd arg => Sys2Proof.Machine.execLi rd arg s
  | .rd ra => Sys2Proof.Machine.execRd ra s
  | .mv rd ra => Sys2Proof.Machine.execMv rd ra s
  | .csrr rd csr => Sys2Proof.Machine.execCsrr rd csr s
  | .csrw csr ra => Sys2Proof.Machine.execCsrw csr ra s
  | .csrwi csr arg => Sys2Proof.Machine.execCsrwi csr arg s
  | .csrrd csr => Sys2Proof.Machine.execCsrrd csr s
  | .gfadd rd ra rb => Sys2Proof.Machine.execGfadd rd ra rb s
  | .gfmul rd ra rb => Sys2Proof.Machine.execGfmul rd ra rb s
  | .xtime rd ra => Sys2Proof.Machine.execXtime rd ra s
  | .sbox rd ra => Sys2Proof.Machine.execSbox rd ra s
  | .isbox rd ra => Sys2Proof.Machine.execIsbox rd ra s
  | .wadd rd ra rb => Sys2Proof.Machine.execWadd rd ra rb s
  | .wmul rd ra rb => Sys2Proof.Machine.execWmul rd ra rb s
  | .subw rd ra => Sys2Proof.Machine.execSubw rd ra s
  | .rotw rd ra => Sys2Proof.Machine.execRotw rd ra s
  | .wext rd ra pos => Sys2Proof.Machine.execWext rd ra pos s
  | .wins rd ra pos => Sys2Proof.Machine.execWins rd ra pos s
  | .lds => Sys2Proof.Machine.execLds s
  | .sts => Sys2Proof.Machine.execSts s
  | .subbytes => Sys2Proof.Machine.execSubbytes s
  | .isubbytes => Sys2Proof.Machine.execIsubbytes s
  | .shiftrows => Sys2Proof.Machine.execShiftrows s
  | .ishiftrows => Sys2Proof.Machine.execIshiftrows s
  | .mixcols => Sys2Proof.Machine.execMixcols s
  | .imixcols => Sys2Proof.Machine.execImixcols s
  | .addrk round => Sys2Proof.Machine.execAddrk round s
  | .kexp nk => Sys2Proof.Machine.execKexp nk s
  | .ldrk n => Sys2Proof.Machine.execLdrk n s
  | .enc => Sys2Proof.Machine.execEnc s
  | .dec => Sys2Proof.Machine.execDec s
  | .cbcenc => Sys2Proof.Machine.execCbcenc s
  | .cbcdec => Sys2Proof.Machine.execCbcdec s
  | .ctr => Sys2Proof.Machine.execCtr s
  | .ldiv => Sys2Proof.Machine.execLdiv s
  | .pad => Sys2Proof.Machine.execPad s
  | .unpad => Sys2Proof.Machine.execUnpad s

end Sys2Proof.Machine
end

