-- ==== Sys2Proof/Machine/Port.lean ====
section
/-! DEFINITION. The command port: how the unit takes one command (spec/10_state.md R20, R24, spec/60_exceptions.md R305,
R309), and how the host's next action reaches it. -/

namespace Sys2Proof.Machine

/-- One command transaction (R90): FAULT is checked before decoding (R305), an illegal word raises IllegalCmd with its
own command word (R96, R303), and a legal one is executed, from start to end (R20). -/
def issue (I : Command) (s : State) : Result :=
  whenRunning s <|
    match decode I with
    | .error _ => raise .illegalCmd I.word s
    | .ok i => exec i s

/-- The host's next action, one a step. With nothing pending the unit holds its state and does nothing (R317). -/
def deliver (s : State) : Result :=
  match s.inbox with
  | [] => .next s
  | .command I :: rest => issue I { s with inbox := rest }
  | .store addr bytes :: rest => hostStore addr.toNat bytes { s with inbox := rest }
  | .reset :: rest => .next (State.resetUnit { s with inbox := rest })

end Sys2Proof.Machine
end

