-- ==== Sys2Proof/Machine/Step.lean ====
section
/-! DEFINITION. One step of the machine: the host's next action is carried out, whole (spec/10_state.md R20). -/

namespace Sys2Proof.Machine

/-- One step: one command, from issue to response, or one action of the host between commands. -/
def step (s : State) : Host.Outcome State Fault Refusal := deliver s

/-- The state in which the very next thing the host does is to issue the transaction whose bits are the low `nbits` of
`w`. The unit fetches nothing and has no program counter (R24): a command comes from the host's port. -/
def State.withFetchWord (s : State) (nbits w : Nat) : State :=
  { s with inbox := .command (commandOfTable nbits w) :: s.inbox }

end Sys2Proof.Machine
end

