-- ==== Sys2Proof/Machine/Assembler.lean ====
section
/-! DEFINITION. The assembler form of a command and the pseudo-instructions (spec/30_encoding.md R99, R100). They add
nothing to the machine: a pseudo-instruction is an abbreviation for the commands it expands to. -/

namespace Sys2Proof.Machine

/-- The mnemonic of a row (R95). -/
def mnemonicOf : Opcode → String
  | .nop => "NOP"
  | .li => "LI"
  | .rd => "RD"
  | .mv => "MV"
  | .csrr => "CSRR"
  | .csrw => "CSRW"
  | .csrwi => "CSRWI"
  | .csrrd => "CSRRD"
  | .gfadd => "GFADD"
  | .gfmul => "GFMUL"
  | .xtime => "XTIME"
  | .sbox => "SBOX"
  | .isbox => "ISBOX"
  | .wadd => "WADD"
  | .wmul => "WMUL"
  | .subw => "SUBW"
  | .rotw => "ROTW"
  | .wext => "WEXT"
  | .wins => "WINS"
  | .lds => "LDS"
  | .sts => "STS"
  | .subbytes => "SUBBYTES"
  | .isubbytes => "ISUBBYTES"
  | .shiftrows => "SHIFTROWS"
  | .ishiftrows => "ISHIFTROWS"
  | .mixcols => "MIXCOLS"
  | .imixcols => "IMIXCOLS"
  | .addrk => "ADDRK"
  | .kexp => "KEXP"
  | .ldrk => "LDRK"
  | .enc => "ENC"
  | .dec => "DEC"
  | .cbcenc => "CBCENC"
  | .cbcdec => "CBCDEC"
  | .ctr => "CTR"
  | .ldiv => "LDIV"
  | .pad => "PAD"
  | .unpad => "UNPAD"

/-- A general register's name, `x0` .. `x15` (R22). -/
def regName (r : Reg) : String := "x" ++ Nat.repr r.val

/-- A control register's name (R36). -/
def csrName : Csr → String
  | .src => "SRC"
  | .dst => "DST"
  | .len => "LEN"
  | .outlen => "OUTLEN"
  | .nblk => "NBLK"
  | .err => "ERR"
  | .rklen => "RKLEN"
  | .s c => "S" ++ Nat.repr c.val
  | .iv c => "IV" ++ Nat.repr c.val
  | .cur c => "CUR" ++ Nat.repr c.val
  | .rk i => "RK" ++ Nat.repr i.val

/-- How a control-register number is written: by its register's name, or as the number where it is unassigned (R99). -/
def csrOperand (n : Nat) : String :=
  match Csr.ofNumber n with
  | some r => csrName r
  | none => Nat.repr n

/-- The operands of a command as text, in the order of R99: rd, ra, rb, immediate, argument; CSRW names the control
register first, as R99's own example does. -/
def operandTexts : Instr → List String
  | .li rd arg => [regName rd, Nat.repr arg.toNat]
  | .rd ra => [regName ra]
  | .csrr rd csr => [regName rd, csrOperand csr]
  | .csrw csr ra => [csrOperand csr, regName ra]
  | .csrwi csr arg => [csrOperand csr, Nat.repr arg.toNat]
  | .csrrd csr => [csrOperand csr]
  | .gfadd rd ra rb | .gfmul rd ra rb | .wadd rd ra rb | .wmul rd ra rb => [regName rd, regName ra, regName rb]
  | .mv rd ra | .xtime rd ra | .sbox rd ra | .isbox rd ra | .subw rd ra | .rotw rd ra => [regName rd, regName ra]
  | .wext rd ra pos | .wins rd ra pos => [regName rd, regName ra, Nat.repr pos.val]
  | .addrk v | .kexp v | .ldrk v => [Nat.repr v]
  | .nop | .lds | .sts | .subbytes | .isubbytes | .shiftrows | .ishiftrows | .mixcols | .imixcols
  | .enc | .dec | .cbcenc | .cbcdec | .ctr | .ldiv | .pad | .unpad => []

/-- The assembler line of a command (R99), numbers in decimal. -/
def assemblyLine (i : Instr) : String :=
  match operandTexts i with
  | [] => mnemonicOf i.opcode
  | ops => mnemonicOf i.opcode ++ " " ++ String.intercalate ", " ops

/-- `SETBUF s, d, n` (R100). -/
def pseudoSetbuf (src dst n : RegVal) : List Instr := [.csrwi 0x000 src, .csrwi 0x001 dst, .csrwi 0x002 n]

/-- `CIPHERBLK` (R100). -/
def pseudoCipherblk : List Instr := [.lds, .enc, .sts]

/-- `INVCIPHERBLK` (R100). -/
def pseudoInvCipherblk : List Instr := [.lds, .dec, .sts]

/-- `KEXP128` (R100). -/
def pseudoKexp128 : List Instr := [.kexp 4]

/-- `KEXP192` (R100). -/
def pseudoKexp192 : List Instr := [.kexp 6]

/-- `KEXP256` (R100). -/
def pseudoKexp256 : List Instr := [.kexp 8]

end Sys2Proof.Machine
end

