-- ==== Sys2Proof/Safety.lean ====
section
/-! DEFINITION. What counts as a safe run, in the terms the statements use: the two operating conditions of the unit
(spec/60_exceptions.md R313), the invariant every step keeps, which commands write which state (spec/10_state.md R21,
spec/20_memory.md R69), the states a fault and a completed command leave, sequences of commands, and the chained modes as
functions on block sequences (spec/45_modes.md R233, R234). -/

namespace Sys2Proof.Machine

/-! ### Operating conditions and what a command leaves -/

/-- The unit is running (R313). A correct run ends in such a state: a claim about a command sequence takes FAULT = 0 at
the end as part of what it proves (R305). -/
abbrev State.running (s : State) : Prop := s.FAULT = false

/-- The state after a fault with cause code `cause`, raised by the command word `w` (R304): nothing else changes. -/
def State.afterFault (s : State) (cause : Byte) (w : RegVal) : State :=
  { s with FAULT := true, FCAUSE := cause, FINFO := w, rsp := some ⟨.fault, cause, 0⟩ }

/-- The state after a command whose response is `(OK, 0, res)` and that changes nothing else (R15). -/
def State.afterOk (s : State) (res : RegVal) : State := { s with rsp := some ⟨.ok, 0, res⟩ }

/-- The state after the error `code` (R310): ERR and OUTLEN are written and nothing else. -/
def State.afterError (s : State) (code : BitVec 2) : State :=
  { s with ERR := code, OUTLEN := 0, rsp := some ⟨.err, code.zeroExtend 8, 0⟩ }

/-- Every state element but MEM holds its reset value (R51). -/
structure State.HasResetValues (s : State) : Prop where
  x : ∀ r : Reg, s.reg r = 0
  S : s.S = Grid.zero
  RK : ∀ i : Fin 60, s.RK[i] = FieldWord.zero
  RKLEN : s.RKLEN = 0
  IV : s.IV = Grid.zero
  CUR : s.CUR = Grid.zero
  SRC : s.SRC = 0
  DST : s.DST = 0
  LEN : s.LEN = 0
  OUTLEN : s.OUTLEN = 0
  ERR : s.ERR = 0
  FAULT : s.FAULT = false
  FCAUSE : s.FCAUSE = 0
  FINFO : s.FINFO = 0

/-! ### The invariant -/

/-- What every step keeps: MEM_SIZE is a legal size (R11), the memory has its canonical form and lies inside it, at most
60 round-key words are valid (R21), ERR holds no code above 2 (R42), FCAUSE and FINFO are zero while FAULT is 0 and
FCAUSE is a cause of R303 while it is 1 (R33), and the last response has the form of R98. -/
structure State.Inv (s : State) : Prop where
  memSize_pos : 0 < s.memSize
  memSize_le : s.memSize ≤ Config.maxMemSize
  mem_wf : Memory.wf s.MEM
  mem_inside : ∀ c ∈ s.MEM, c.1 < s.memSize
  rklen_le : s.RKLEN ≤ Config.rkWords
  err_ne : s.ERR ≠ 3
  latch_clear : s.FAULT = false → s.FCAUSE = 0 ∧ s.FINFO = 0
  latch_set : s.FAULT = true → 1 ≤ s.FCAUSE.toNat ∧ s.FCAUSE.toNat ≤ 8
  rsp_ok : ∀ r, s.rsp = some r → r.st = .ok → r.code = 0
  rsp_err : ∀ r, s.rsp = some r → r.st = .err → (r.code = 1 ∨ r.code = 2) ∧ r.res = 0
  rsp_fault : ∀ r, s.rsp = some r → r.st = .fault → s.FAULT = true ∧ r.code = s.FCAUSE ∧ r.res = 0

end Sys2Proof.Machine

namespace Sys2Proof

/-! ### Which commands write which state (R21, R69) -/

/-- The control-register number CSRW or CSRWI names. -/
def Instr.csrWritten : Instr → Option Nat
  | .csrw csr _ => some csr
  | .csrwi csr _ => some csr
  | _ => none

/-- CSRW or CSRWI to a number from `lo` on, below `hi`. -/
def Instr.writesCsr (i : Instr) (lo hi : Nat) : Bool :=
  match i.csrWritten with
  | some n => decide (lo ≤ n ∧ n < hi)
  | none => false

/-- The general register a command writes (R21, row x). -/
def Instr.destReg : Instr → Option Reg
  | .li d _ | .mv d _ | .csrr d _ => some d
  | .gfadd d _ _ | .gfmul d _ _ | .xtime d _ | .sbox d _ | .isbox d _ => some d
  | .wadd d _ _ | .wmul d _ _ | .subw d _ | .rotw d _ | .wext d _ _ | .wins d _ _ => some d
  | _ => none

/-- The commands that write S (R21). -/
def Instr.writesS (i : Instr) : Bool :=
  i.writesCsr 0x010 0x014 ||
  match i with
  | .lds | .subbytes | .isubbytes | .shiftrows | .ishiftrows | .mixcols | .imixcols | .addrk _ | .enc | .dec
  | .cbcenc | .cbcdec | .ctr => true
  | _ => false

/-- The commands that write RK and RKLEN (R21, R31). -/
def Instr.writesRK : Instr → Bool
  | .kexp _ | .ldrk _ => true
  | _ => false

/-- The commands that write IV (R21). -/
def Instr.writesIV (i : Instr) : Bool := i.writesCsr 0x014 0x018 || decide (i = .ldiv)

/-- The commands that write CUR (R21). -/
def Instr.writesCUR : Instr → Bool
  | .cbcenc | .cbcdec | .ctr => true
  | _ => false

/-- The commands that write OUTLEN (R21, R40). -/
def Instr.writesOUTLEN : Instr → Bool
  | .cbcenc | .cbcdec | .ctr | .pad | .unpad => true
  | _ => false

/-- The commands that write ERR (R21, R42). -/
def Instr.writesERR : Instr → Bool
  | .cbcdec | .unpad => true
  | _ => false

/-- The range of memory a command writes, as its first address and its length (R69, column writes). -/
def Instr.storeRange (i : Instr) (s : Machine.State) : Nat × Nat :=
  match i with
  | .sts => (s.DST.toNat, 16)
  | .cbcenc | .pad => (s.DST.toNat, 16 * (s.LEN.toNat / 16 + 1))
  | .cbcdec | .ctr => (s.DST.toNat, s.LEN.toNat)
  | _ => (0, 0)

/-- The commands that write the data memory (R21, row MEM). -/
def Instr.writesMEM : Instr → Bool
  | .sts | .cbcenc | .cbcdec | .ctr | .pad => true
  | _ => false

/-- The range of memory a command reads, as its first address and its length (R69, column reads). -/
def Instr.loadRange (i : Instr) (s : Machine.State) : Nat × Nat :=
  match i with
  | .lds | .ldiv => (s.SRC.toNat, 16)
  | .kexp nk => (s.SRC.toNat, 4 * nk)
  | .ldrk n => (s.SRC.toNat, 4 * n)
  | .cbcenc | .cbcdec | .ctr | .pad => (s.SRC.toNat, s.LEN.toNat)
  | .unpad => (s.SRC.toNat + s.LEN.toNat - 1, min 1 s.LEN.toNat)
  | _ => (0, 0)

/-- The command is encoded with this opcode value and this format (R92, R95). -/
def Instr.encodedAs (i : Instr) (op : Byte) (f : Format) : Prop := i.opcode.byte = op ∧ i.opcode.format = f

end Sys2Proof

namespace Sys2Proof.Machine

/-! ### Sequences of commands -/

/-- Commands issued one after another (R20, R24), stopping where one gives no next state. -/
def runCommands : List Instr → State → Result
  | [], s => .next s
  | i :: is, s =>
    match exec i s with
    | .next t => runCommands is t
    | .fault r => .fault r
    | .refused r => .refused r

/-- The transformation commands that make up the forward cipher with `nr` rounds (R212). -/
def cipherCommands (nr : Nat) : List Instr :=
  [.addrk 0]
    ++ ((List.range (nr - 1)).map fun k => [.subbytes, .shiftrows, .mixcols, .addrk (k + 1)]).flatten
    ++ [.subbytes, .shiftrows, .addrk nr]

/-- The transformation commands that make up the inverse cipher with `nr` rounds (R213), the rounds descending. -/
def invCipherCommands (nr : Nat) : List Instr :=
  [.addrk nr]
    ++ ((List.range (nr - 1)).reverse.map fun k => [.ishiftrows, .isubbytes, .addrk (k + 1), .imixcols]).flatten
    ++ [.ishiftrows, .isubbytes, .addrk 0]

/-! ### The modes as functions on block sequences -/

/-- The blocks of a byte sequence whose length is a multiple of 16. -/
def blocksOf (b : List Byte) : List (List Byte) :=
  (List.range (b.length / 16)).map fun i => (b.drop (16 * i)).take 16

/-- Chained encryption of a block sequence (R233): each block is XORed with the one before it in the output, `prev`
before the first, and encrypted. -/
def chainEncrypt (e : List Byte → List Byte) (prev : List Byte) : List (List Byte) → List (List Byte)
  | [] => []
  | p :: ps => e (xorBytes p prev) :: chainEncrypt e (e (xorBytes p prev)) ps

/-- Chained decryption of a block sequence (R234): each block is decrypted and XORed with the raw block before it. -/
def chainDecrypt (d : List Byte → List Byte) (prev : List Byte) : List (List Byte) → List (List Byte)
  | [] => []
  | c :: cs => xorBytes (d c) prev :: chainDecrypt d c cs

/-- The counter value of chunk i of counter mode (R235, R236): the initialization vector plus i, modulo 2^128. -/
def counterBlock (iv : Grid) (i : Nat) : List Byte := bytesOfNat 16 ((natOfBytes (toBlock iv) + i) % 2 ^ 128)

/-- The state value whose columns are these packed words, as spec/95_test_vectors.md writes blocks. -/
def gridOfPacked (a b c d : RegVal) : Grid := ⟨.unpack a, .unpack b, .unpack c, .unpack d⟩

/-- The round-key memory after KEXP of a key that is given as packed words, in a unit just reset (R194). -/
def scheduleOf (key : List RegVal) : Vector FieldWord Config.rkWords :=
  rkInstall (Vector.replicate Config.rkWords .zero)
    (keyExpand (key.map fun v => bytesOf (.unpack v)).flatten key.length)

/-- The message a command reads: MEM[SRC .. SRC+LEN-1] (R231). -/
def State.message (s : State) : List Byte := Memory.readBytes s.MEM s.SRC.toNat s.LEN.toNat

/-! ### Shapes the result statements share -/

/-- CSRR and CSRRD of the register number `n` both give `v`, and change nothing but the destination register. -/
def State.csrReads (s : State) (n : Nat) (v : RegVal) : Prop :=
  (∀ d, exec (.csrr d n) s = .next { s with x := s.x.set d v, rsp := some ⟨.ok, 0, 0⟩ }) ∧
  exec (.csrrd n) s = .next (s.afterOk v)

/-- CSRW and CSRWI of the register number `n` both lead to `t v`, where `v` is the value written. -/
def State.csrWrites (s : State) (n : Nat) (t : RegVal → State) : Prop :=
  (∀ ra, exec (.csrw n ra) s = .next (t s.x[ra])) ∧ ∀ arg, exec (.csrwi n arg) s = .next (t arg)

/-- The next state has S with the byte `f r c` in row r, column c, and nothing else changed. -/
def State.mapsS (s : State) (i : Instr) (f : Fin 4 → Fin 4 → Byte) : Prop :=
  ∃ g : Grid, (∀ r c : Fin 4, g.at r c = f r c) ∧ exec i s = .next { s with S := g, rsp := some ⟨.ok, 0, 0⟩ }

end Sys2Proof.Machine
end

