-- ==== Sys2Proof/Certificates/Slice0/Obligations.lean ====
section
/-! DEFINITION. The statements about the model, for the provers. Each names in its docstring the rule of spec/ it
formalises; the entries of OBLIGATIONS.json quote it. -/

open Sys2Proof Sys2Proof.Machine

/-! ### The encoding (spec/30_encoding.md) -/

/-- Decoding the encoding of a well-formed command gives the command back, every operand at every value (R91 to R95). -/
def Obligations.DecodeInvertsEncode : Prop :=
  ∀ i : Instr, i.wellFormed = true → decode (encode i) = .ok i

/-- A transaction that decodes is the one transaction of its command word: the command is well formed, its word is the
word read, and its argument is the argument read where the command uses one (R91, R93, R94). -/
def Obligations.DecodedCommandEncodesBack : Prop :=
  ∀ (I : Command) (i : Instr), decode I = .ok i →
    i.wellFormed = true ∧ encodeWord i = I.word ∧
    (∀ d a, i = .li d a → a = I.arg) ∧ (∀ n a, i = .csrwi n a → a = I.arg)

/-- R92: the masks of the formats and the commands of each; a word selects a row's command exactly when `(W & mask) = match`, where match is
`op << 24`. -/
def Obligations.WordSelectsRowByMaskAndMatch : Prop :=
  (Format.mask .n = 0xFFFFFFFF ∧ Format.mask .r3 = 0xFF000FFF ∧ Format.mask .r2 = 0xFF00FFFF ∧
   Format.mask .rp = 0xFF00FFFC ∧ Format.mask .d = 0xFF0FFFFF ∧ Format.mask .a = 0xFFF0FFFF ∧
   Format.mask .cr = 0xFF0FF000 ∧ Format.mask .cw = 0xFFF0F000 ∧ Format.mask .ci = 0xFFFFF000 ∧
   Format.mask .co = 0xFFFFF000 ∧ Format.mask .i = 0xFFFFF000) ∧
  ((∀ o : Opcode, o.format = .n ↔ o ∈ [.nop, .lds, .sts, .subbytes, .isubbytes, .shiftrows, .ishiftrows, .mixcols,
      .imixcols, .enc, .dec, .cbcenc, .cbcdec, .ctr, .ldiv, .pad, .unpad]) ∧
   (∀ o : Opcode, o.format = .r3 ↔ o ∈ [.gfadd, .gfmul, .wadd, .wmul]) ∧
   (∀ o : Opcode, o.format = .r2 ↔ o ∈ [.mv, .xtime, .sbox, .isbox, .subw, .rotw]) ∧
   (∀ o : Opcode, o.format = .rp ↔ o ∈ [.wext, .wins]) ∧ (∀ o : Opcode, o.format = .d ↔ o = .li) ∧
   (∀ o : Opcode, o.format = .a ↔ o = .rd) ∧ (∀ o : Opcode, o.format = .cr ↔ o = .csrr) ∧
   (∀ o : Opcode, o.format = .cw ↔ o = .csrw) ∧ (∀ o : Opcode, o.format = .ci ↔ o = .csrwi) ∧
   (∀ o : Opcode, o.format = .co ↔ o = .csrrd) ∧ ∀ o : Opcode, o.format = .i ↔ o ∈ [.addrk, .kexp, .ldrk]) ∧
  (∀ o : Opcode, o.matchBits = (o.byte.zeroExtend 32 : RegVal) <<< 24) ∧
  ∀ (I : Command) (o : Opcode),
    I.word &&& o.format.mask = o.matchBits ↔ ∃ i, decode I = .ok i ∧ i.opcode = o

/-- R94: a set bit outside the fields of the row's format makes the word illegal, and ARG is ignored by every command
but LI and CSRWI. -/
def Obligations.ReservedBitsAreIllegalAndArgIgnored : Prop :=
  (∀ (I : Command) (o : Opcode) (k : Nat), fieldOp I.word = o.byte → k < 24 → o.format.mask.getLsbD k = true →
    I.word.getLsbD k = true → decode I = .error .reservedBit) ∧
  (∀ (w a b : RegVal) (i : Instr), decode (Command.ofParts a w) = .ok i →
    i.opcode ≠ .li → i.opcode ≠ .csrwi → decode (Command.ofParts b w) = .ok i)

/-- The words of spec/95_test_vectors.md section 2.9, written out there from the encoding, at least one of every format,
decode to the commands they stand for. -/
def Obligations.WordsOfEveryFormatDecode : Prop :=
  decode 0x0000000000000000 = .ok .nop ∧
  decode 0x0000000050000000 = .ok .enc ∧
  decode 0x0000000011501000 = .ok (.gfmul 5 0 1) ∧
  decode 0x0000000020FED000 = .ok (.wadd 15 14 13) ∧
  decode 0x0000000012320000 = .ok (.xtime 3 2) ∧
  decode 0x0000000025410001 = .ok (.wins 4 1 1) ∧
  decode 0x0E090D0B01900000 = .ok (.li 9 0x0E090D0B) ∧
  decode 0x0000000002060000 = .ok (.rd 6) ∧
  decode 0x0000000004600044 = .ok (.csrr 6 0x044) ∧
  decode 0x0000000005030010 = .ok (.csrw 0x010 3) ∧
  decode 0xFCFDFEFF06000017 = .ok (.csrwi 0x017 0xFCFDFEFF) ∧
  decode 0x000000000700001B = .ok (.csrrd 0x01B) ∧
  decode 0x000000003800000A = .ok (.addrk 10) ∧
  decode 0x0000000041000008 = .ok (.ldrk 8)

/-! ### One step: commands, faults, reset (spec/10_state.md R20, spec/60_exceptions.md, spec/70_reset_and_hazards.md) -/

/-- A step whose next host action is a transaction that decodes runs the decoded command on the state with that action
taken off the host's list (R20, R90). -/
def Obligations.StepRunsTheDecodedCommand : Prop :=
  ∀ (s : State) (I : Command) (rest : List HostEvent) (i : Instr),
    s.inbox = .command I :: rest → s.running → decode I = .ok i → step s = exec i { s with inbox := rest }

/-- R96: a word that matches no row raises IllegalCmd and changes nothing else; a word matches at most one row, and a
word that matches one is that row's command. -/
def Obligations.IllegalWordFaultsAndNothingElse : Prop :=
  (∀ (s : State) (I : Command) (rest : List HostEvent),
    s.inbox = .command I :: rest → s.running → (∀ o : Opcode, I.word &&& o.format.mask ≠ o.matchBits) →
    step s = .next ({ s with inbox := rest }.afterFault 1 I.word)) ∧
  (∀ (w : RegVal) (o p : Opcode), w &&& o.format.mask = o.matchBits → w &&& p.format.mask = p.matchBits → o = p) ∧
  (∀ (I : Command) (o : Opcode), I.word &&& o.format.mask = o.matchBits → ∃ i, decode I = .ok i ∧ i.opcode = o)

/-- R305: while FAULT = 1 every command, legal or not, is refused with the first fault's cause, and nothing changes. -/
def Obligations.FaultedUnitRefusesEveryCommand : Prop :=
  (∀ (s : State) (I : Command) (rest : List HostEvent), s.inbox = .command I :: rest → s.FAULT = true →
    step s = .next { s with inbox := rest, rsp := some ⟨.fault, s.FCAUSE, 0⟩ }) ∧
  (∀ (i : Instr) (s : State), s.FAULT = true → exec i s = .next { s with rsp := some ⟨.fault, s.FCAUSE, 0⟩ })

/-- R304: a command that faults, legal or not, changes nothing but the fault latch and the response, and FINFO is its
command word. -/
def Obligations.FaultsArePrecise : Prop :=
  ∀ (s t : State) (I : Command) (rest : List HostEvent), s.inbox = .command I :: rest → s.running →
    step s = .next t → t.FAULT = true →
    ∃ cause : Byte, 1 ≤ cause.toNat ∧ cause.toNat ≤ 8 ∧ t = { s with inbox := rest }.afterFault cause I.word

/-- R307: no step but a reset clears FAULT or rewrites FCAUSE or FINFO; a reset clears the latch and every register, and
only the data memory survives it. -/
def Obligations.OnlyResetLeavesTheFaultState : Prop :=
  (∀ s t : State, s.FAULT = true → (∀ rest, s.inbox ≠ .reset :: rest) → step s = .next t →
    t.FAULT = true ∧ t.FCAUSE = s.FCAUSE ∧ t.FINFO = s.FINFO) ∧
  (∀ (s : State) (rest : List HostEvent), s.inbox = .reset :: rest →
    ∃ t, step s = .next t ∧ t.HasResetValues ∧ t.MEM = s.MEM)

/-- R98: every transaction, legal or not, gets one response; with OK the code is 0 and the result is 0 except for RD and
CSRRD; with ERR the code is the error's and the result 0; with FAULT the code is FCAUSE and the result 0; the status 3
is never produced. The unit always goes on to a next state (R354). -/
def Obligations.EveryCommandReturnsOneResponse : Prop :=
  ∀ (s : State) (I : Command) (rest : List HostEvent), s.inbox = .command I :: rest →
    ∃ (t : State) (r : Response), step s = .next t ∧ t.rsp = some r ∧ r.st.bits ≠ 3 ∧
      (r.st = .ok → t.FAULT = false ∧ r.code = 0 ∧
        (r.res ≠ 0 → (∃ ra, decode I = .ok (.rd ra)) ∨ ∃ n, decode I = .ok (.csrrd n))) ∧
      (r.st = .err → t.FAULT = false ∧ (r.code = 1 ∨ r.code = 2) ∧ r.code = t.ERR.zeroExtend 8 ∧ r.res = 0) ∧
      (r.st = .fault → t.FAULT = true ∧ r.code = t.FCAUSE ∧ r.res = 0)

/-- R350, R51: reset puts every state element but MEM at its reset value, which is zero for each, and does not change
MEM; NBLK then reads 1. -/
def Obligations.ResetStepClearsAllButMemory : Prop :=
  ∀ (s : State) (rest : List HostEvent), s.inbox = .reset :: rest →
    ∃ t, step s = .next t ∧ t.HasResetValues ∧ t.MEM = s.MEM ∧ t.memSize = s.memSize ∧ t.inbox = rest ∧
      exec (.csrrd 0x004) t = .next (t.afterOk 1)

/-- The state right after reset, the run's first, has the reset values of R51; the model's own fields (assumptions 3, 4,
5) are empty: no byte written, nothing pending, no response returned. -/
def Obligations.ResetStateHoldsTheResetValues : Prop :=
  State.reset.HasResetValues ∧ State.reset.MEM = [] ∧ State.reset.inbox = [] ∧ State.reset.rsp = none

/-- What the commands do right after reset (R352, derived there): the cipher and mode commands fault with RkLen, ADDRK
with RkSlice, PAD writes sixteen bytes 0x10 at 0, UNPAD reports the Pad error, LDRK 0 succeeds and changes nothing. -/
def Obligations.CommandsRightAfterReset : Prop :=
  ∀ s : State, s.HasResetValues →
    exec .enc s = .next (s.afterFault 4 0x50000000) ∧
    exec .dec s = .next (s.afterFault 4 0x51000000) ∧
    exec .cbcenc s = .next (s.afterFault 4 0x60000000) ∧
    exec .cbcdec s = .next (s.afterFault 4 0x61000000) ∧
    exec .ctr s = .next (s.afterFault 4 0x62000000) ∧
    (∀ round, exec (.addrk round) s = .next (s.afterFault 5 (encodeWord (.addrk round)))) ∧
    exec .unpad s = .next (s.afterError 2) ∧
    exec (.ldrk 0) s = .next (s.afterOk 0) ∧
    (16 ≤ s.memSize → ∃ t, exec .pad s = .next t ∧ t.OUTLEN = 16 ∧
      ∀ a < 16, Memory.readByte t.MEM a = 0x10)

/-- The host's own write of the data memory between two commands (R20, R60, R63): the bytes go to consecutive addresses
and no other byte changes. Two things are the model's own: the host's list of actions (assumption 3, DESIGN CHOICE), and that
a store to a byte that does not exist stops the model, by the fault of that name (assumption 6, DESIGN CHOICE: the
spec does not say what such a store does). -/
def Obligations.HostStoreWritesItsBytes : Prop :=
  ∀ (s : State) (addr : RegVal) (bytes : List Byte) (rest : List HostEvent), s.inbox = .store addr bytes :: rest →
    (bytes = [] ∨ addr.toNat + bytes.length ≤ s.memSize →
      ∃ t, step s = .next t ∧ t = { s with inbox := rest, MEM := t.MEM } ∧
        (∀ k (h : k < bytes.length), Memory.readByte t.MEM (addr.toNat + k) = bytes[k]) ∧
        (∀ a, a < addr.toNat ∨ addr.toNat + bytes.length ≤ a → Memory.readByte t.MEM a = Memory.readByte s.MEM a)) ∧
    (bytes ≠ [] → s.memSize < addr.toNat + bytes.length → step s = .fault .hostStoreOutsideMemory)

/-- Between commands the unit holds its state and does nothing (R317). -/
def Obligations.IdleUnitHoldsItsState : Prop :=
  ∀ s : State, s.inbox = [] → step s = .next s

/-! ### The invariant -/

/-- The invariant holds right after reset. It rests on the model's choice of MEM_SIZE at reset (assumption 2). -/
def Obligations.ResetStateMeetsTheInvariant : Prop := State.reset.Inv

/-- Every step keeps the invariant, from every state that meets it (R11, R21, R33, R42, R98; the memory's canonical
form is the model's own, assumption 5). -/
def Obligations.StepKeepsTheInvariant : Prop :=
  ∀ s t : State, s.Inv → step s = .next t → t.Inv

/-! ### What commands may change (spec/10_state.md R21, spec/20_memory.md R69) -/

/-- R21, column "written by": a command changes no state element that does not list it as a writer, and no general
register but its destination. Only KEXP and LDRK change RK and RKLEN (R31). -/
def Obligations.CommandsWriteOnlyTheirOwnState : Prop :=
  ∀ (i : Instr) (s t : State), exec i s = .next t →
    (∀ r : Reg, i.destReg ≠ some r → t.reg r = s.reg r) ∧
    (i.writesS = false → t.S = s.S) ∧
    (i.writesRK = false → t.RK = s.RK ∧ t.RKLEN = s.RKLEN) ∧
    (i.writesIV = false → t.IV = s.IV) ∧
    (i.writesCUR = false → t.CUR = s.CUR) ∧
    (i.writesCsr 0x000 0x001 = false → t.SRC = s.SRC) ∧
    (i.writesCsr 0x001 0x002 = false → t.DST = s.DST) ∧
    (i.writesCsr 0x002 0x003 = false → t.LEN = s.LEN) ∧
    (i.writesOUTLEN = false → t.OUTLEN = s.OUTLEN) ∧
    (i.writesERR = false → t.ERR = s.ERR) ∧
    (i.writesMEM = false → t.MEM = s.MEM) ∧
    (t.FAULT = s.FAULT → t.FCAUSE = s.FCAUSE ∧ t.FINFO = s.FINFO) ∧
    t.memSize = s.memSize ∧ t.inbox = s.inbox

/-- R69, column "writes": every byte of memory outside the range a command writes reads as before; the range is
computed from the state the command starts in, and is empty for every command that stores nothing. -/
def Obligations.CommandsStoreOnlyInTheirRange : Prop :=
  ∀ (i : Instr) (s t : State), exec i s = .next t →
    ∀ a, a < (i.storeRange s).1 ∨ (i.storeRange s).1 + (i.storeRange s).2 ≤ a →
      Memory.readByte t.MEM a = Memory.readByte s.MEM a

/-- R69, column "reads": a command depends on memory through the range it reads only. From two states that differ in their
memory, but agree on that range, it leads to next states that differ in their memory only, and there every byte is the
same in both or was left alone in both. -/
def Obligations.CommandsReadOnlyTheirRange : Prop :=
  ∀ (i : Instr) (s t : State) (m : Memory), exec i s = .next t →
    (∀ a, (i.loadRange s).1 ≤ a → a < (i.loadRange s).1 + (i.loadRange s).2 →
      Memory.readByte m a = Memory.readByte s.MEM a) →
    ∃ m', exec i { s with MEM := m } = .next { t with MEM := m' } ∧
      ∀ a, Memory.readByte m' a = Memory.readByte t.MEM a ∨
        (Memory.readByte m' a = Memory.readByte m a ∧ Memory.readByte t.MEM a = Memory.readByte s.MEM a)

/-- R62, R63: MemRead gives the bytes of consecutive addresses, lowest first; MemWrite puts byte k at addr + k and
changes no other byte. -/
def Obligations.MemReadAndMemWrite : Prop :=
  (∀ (m : Memory) (addr n : Nat),
    Memory.readBytes m addr n = (List.range n).map fun k => Memory.readByte m (addr + k)) ∧
  (∀ (m : Memory) (addr : Nat) (v : List Byte),
    (∀ k (h : k < v.length), Memory.readByte (Memory.writeBytes m addr v) (addr + k) = v[k]) ∧
    (∀ a, a < addr ∨ addr + v.length ≤ a → Memory.readByte (Memory.writeBytes m addr v) a = Memory.readByte m a) ∧
    Memory.readBytes (Memory.writeBytes m addr v) addr v.length = v)

/-! ### Host access (spec/47_host_access.md) -/

/-- R281 to R284: NOP, LI, RD, MV in a running unit, the whole next state. -/
def Obligations.HostMoveResults : Prop :=
  (Instr.encodedAs .nop 0x00 .n ∧ (∀ d a, Instr.encodedAs (.li d a) 0x01 .d) ∧
   (∀ a, Instr.encodedAs (.rd a) 0x02 .a) ∧ ∀ d a, Instr.encodedAs (.mv d a) 0x03 .r2) ∧
  ∀ s : State, s.running →
    exec .nop s = .next (s.afterOk 0) ∧
    (∀ d arg, exec (.li d arg) s = .next { s with x := s.x.set d arg, rsp := some ⟨.ok, 0, 0⟩ }) ∧
    (∀ ra, exec (.rd ra) s = .next (s.afterOk s.x[ra])) ∧
    (∀ d ra, exec (.mv d ra) s = .next { s with x := s.x.set d s.x[ra], rsp := some ⟨.ok, 0, 0⟩ })

/-- R285, R288 with the map of R36 and the values of R37 to R47: what every control-register number reads as; an
unassigned number raises IllegalCsr and changes nothing else. -/
def Obligations.ControlRegisterReads : Prop :=
  ((∀ d n, Instr.encodedAs (.csrr d n) 0x04 .cr) ∧ ∀ n, Instr.encodedAs (.csrrd n) 0x07 .co) ∧
  ∀ s : State, s.running →
    s.csrReads 0x000 s.SRC ∧ s.csrReads 0x001 s.DST ∧ s.csrReads 0x002 s.LEN ∧ s.csrReads 0x003 s.OUTLEN ∧
    (∃ v : RegVal, v.toNat = s.LEN.toNat / 16 + 1 ∧ s.csrReads 0x004 v) ∧
    s.csrReads 0x005 (s.ERR.zeroExtend 32) ∧
    s.csrReads 0x006 (BitVec.ofNat 32 s.RKLEN) ∧
    (∀ c : Fin 4, s.csrReads (0x010 + c.val) (s.S.col c).pack ∧ s.csrReads (0x014 + c.val) (s.IV.col c).pack ∧
      s.csrReads (0x018 + c.val) (s.CUR.col c).pack) ∧
    (∀ i : Fin 60, s.csrReads (0x040 + i.val) s.RK[i].pack) ∧
    (∀ n, (0x007 ≤ n ∧ n ≤ 0x00F) ∨ (0x01C ≤ n ∧ n ≤ 0x03F) ∨ 0x07C ≤ n →
      (∀ d, exec (.csrr d n) s = .next (s.afterFault 2 (encodeWord (.csrr d n)))) ∧
      exec (.csrrd n) s = .next (s.afterFault 2 (encodeWord (.csrrd n))))

/-- R286, R287 with the map of R36: what a write of every control-register number does; a read-only or unassigned number
raises IllegalCsr and changes nothing else. -/
def Obligations.ControlRegisterWrites : Prop :=
  ((∀ n a, Instr.encodedAs (.csrw n a) 0x05 .cw) ∧ ∀ n v, Instr.encodedAs (.csrwi n v) 0x06 .ci) ∧
  ∀ s : State, s.running →
    s.csrWrites 0x000 (fun v => { s with SRC := v, rsp := some ⟨.ok, 0, 0⟩ }) ∧
    s.csrWrites 0x001 (fun v => { s with DST := v, rsp := some ⟨.ok, 0, 0⟩ }) ∧
    s.csrWrites 0x002 (fun v => { s with LEN := v, rsp := some ⟨.ok, 0, 0⟩ }) ∧
    (∀ c : Fin 4,
      s.csrWrites (0x010 + c.val) (fun v => { s with S := s.S.setCol c (.unpack v), rsp := some ⟨.ok, 0, 0⟩ }) ∧
      s.csrWrites (0x014 + c.val) (fun v => { s with IV := s.IV.setCol c (.unpack v), rsp := some ⟨.ok, 0, 0⟩ })) ∧
    (∀ n, (0x003 ≤ n ∧ n ≤ 0x00F) ∨ 0x018 ≤ n →
      (∀ ra, exec (.csrw n ra) s = .next (s.afterFault 2 (encodeWord (.csrw n ra)))) ∧
      ∀ arg, exec (.csrwi n arg) s = .next (s.afterFault 2 (encodeWord (.csrwi n arg))))

/-! ### The field-byte unit (spec/40_field_byte.md) -/

/-- R128 to R132: the field-byte commands in a running unit, the whole next state. -/
def Obligations.FieldByteCommandResults : Prop :=
  ((∀ d a b, Instr.encodedAs (.gfadd d a b) 0x10 .r3) ∧ (∀ d a b, Instr.encodedAs (.gfmul d a b) 0x11 .r3) ∧
   (∀ d a, Instr.encodedAs (.xtime d a) 0x12 .r2) ∧ (∀ d a, Instr.encodedAs (.sbox d a) 0x13 .r2) ∧
   ∀ d a, Instr.encodedAs (.isbox d a) 0x14 .r2) ∧
  ∀ (s : State) (d ra rb : Reg), s.running →
    let result := fun b : Byte => (.next { s with x := s.x.set d (b.zeroExtend 32), rsp := some ⟨.ok, 0, 0⟩ } : Result)
    exec (.gfadd d ra rb) s = result (s.x[ra].extractLsb' 0 8 ^^^ s.x[rb].extractLsb' 0 8) ∧
    exec (.gfmul d ra rb) s = result (gfMul (s.x[ra].extractLsb' 0 8) (s.x[rb].extractLsb' 0 8)) ∧
    exec (.xtime d ra) s = result (gfXtime (s.x[ra].extractLsb' 0 8)) ∧
    exec (.sbox d ra) s = result (sbox (s.x[ra].extractLsb' 0 8)) ∧
    exec (.isbox d ra) s = result (invSbox (s.x[ra].extractLsb' 0 8))

/-- R23: a field-byte command reads bits 7:0 of its sources and ignores bits 31:8, and its result has bits 31:8 zero. -/
def Obligations.ByteCommandsIgnoreHighBits : Prop :=
  ∀ (i : Instr) (d : Reg) (s s' : State), i.opcode ∈ [.gfadd, .gfmul, .xtime, .sbox, .isbox] → i.destReg = some d →
    s.running → s'.running → (∀ r : Reg, s.x[r].extractLsb' 0 8 = s'.x[r].extractLsb' 0 8) →
    ∃ t t', exec i s = .next t ∧ exec i s' = .next t' ∧ t.reg d = t'.reg d ∧ (t.reg d).toNat < 256

/-- The laws of the field (R124, which derives the last four of them from the definition of the product): addition is
commutative, associative and self-inverse; multiplication is commutative, distributes over addition and is associative;
products by 00, 01, 02; every nonzero byte has exactly one inverse. -/
def Obligations.FieldByteLaws : Prop :=
  (∀ a b c : Byte, gfAdd a b = gfAdd b a ∧ gfAdd (gfAdd a b) c = gfAdd a (gfAdd b c) ∧ gfAdd a a = 0x00) ∧
  (∀ a b c : Byte, gfMul a b = gfMul b a ∧ gfMul a (gfAdd b c) = gfAdd (gfMul a b) (gfMul a c) ∧
    gfMul (gfMul a b) c = gfMul a (gfMul b c)) ∧
  (∀ a : Byte, gfMul a 0x00 = 0x00 ∧ gfMul a 0x01 = a ∧ gfMul a 0x02 = gfXtime a) ∧
  (∀ a : Byte, a ≠ 0x00 → ∃ b, gfMul a b = 0x01 ∧ ∀ c, gfMul a c = 0x01 → c = b)

/-- The two substitution tables are inverse to each other, in both orders (R125, R127; the second order is the spec's own
derivation). -/
def Obligations.SubstitutionTablesInvert : Prop :=
  ∀ a : Byte, invSbox (sbox a) = a ∧ sbox (invSbox a) = a

/-- The algebraic definition of the substitution table that R126 gives (from general knowledge there, as the table is):
the affine image of the multiplicative inverse. -/
def Obligations.SboxIsTheAffineInverse : Prop :=
  ∀ a t : Byte, (a = 0x00 ∧ t = 0x00) ∨ gfMul a t = 0x01 →
    sbox a = t ^^^ t.rotateLeft 1 ^^^ t.rotateLeft 2 ^^^ t.rotateLeft 3 ^^^ t.rotateLeft 4 ^^^ 0x63

/-! ### The field-word unit (spec/41_field_word.md) -/

/-- R147 to R152: the field-word commands in a running unit, the whole next state. -/
def Obligations.FieldWordCommandResults : Prop :=
  ((∀ d a b, Instr.encodedAs (.wadd d a b) 0x20 .r3) ∧ (∀ d a b, Instr.encodedAs (.wmul d a b) 0x21 .r3) ∧
   (∀ d a, Instr.encodedAs (.subw d a) 0x22 .r2) ∧ (∀ d a, Instr.encodedAs (.rotw d a) 0x23 .r2) ∧
   (∀ d a p, Instr.encodedAs (.wext d a p) 0x24 .rp) ∧ ∀ d a p, Instr.encodedAs (.wins d a p) 0x25 .rp) ∧
  ∀ (s : State) (d ra rb : Reg), s.running →
    let result := fun v : RegVal => (.next { s with x := s.x.set d v, rsp := some ⟨.ok, 0, 0⟩ } : Result)
    exec (.wadd d ra rb) s = result (s.x[ra] ^^^ s.x[rb]) ∧
    exec (.wmul d ra rb) s = result (wMul (.unpack s.x[ra]) (.unpack s.x[rb])).pack ∧
    (∃ w : FieldWord, exec (.subw d ra) s = result w.pack ∧ ∀ k, w.coef k = sbox ((FieldWord.unpack s.x[ra]).coef k)) ∧
    exec (.rotw d ra) s = result (s.x[ra].rotateLeft 8) ∧
    (∀ pos : Fin 4, exec (.wext d ra pos) s =
      result ((s.x[ra].extractLsb' (24 - 8 * pos.val) 8).zeroExtend 32)) ∧
    (∀ pos : Fin 4, ∃ w : FieldWord, exec (.wins d ra pos) s = result w.pack ∧
      w.coef pos = s.x[ra].extractLsb' 0 8 ∧ ∀ k, k ≠ pos → w.coef k = (FieldWord.unpack s.x[d]).coef k)

/-- R142, its sum written out for the four coefficients. -/
def Obligations.WordProductWrittenOut : Prop :=
  ∀ a b : FieldWord, wMul a b =
    ⟨gfMul a.c0 b.c0 ^^^ gfMul a.c3 b.c1 ^^^ gfMul a.c2 b.c2 ^^^ gfMul a.c1 b.c3,
     gfMul a.c1 b.c0 ^^^ gfMul a.c0 b.c1 ^^^ gfMul a.c3 b.c2 ^^^ gfMul a.c2 b.c3,
     gfMul a.c2 b.c0 ^^^ gfMul a.c1 b.c1 ^^^ gfMul a.c0 b.c2 ^^^ gfMul a.c3 b.c3,
     gfMul a.c3 b.c0 ^^^ gfMul a.c2 b.c1 ^^^ gfMul a.c1 b.c2 ^^^ gfMul a.c0 b.c3⟩

/-- The laws of the word ring (R143, derived there): the product is commutative, associative and distributes over the sum;
word(1,0,0,0) is its identity, word(0,1,0,0) rotates; word(1,1,1,1) is a zero divisor. -/
def Obligations.WordRingLaws : Prop :=
  (∀ a b c : FieldWord, wMul a b = wMul b a ∧ wMul (wMul a b) c = wMul a (wMul b c) ∧
    wMul a (wAdd b c) = wAdd (wMul a b) (wMul a c)) ∧
  (∀ b : FieldWord, wMul ⟨1, 0, 0, 0⟩ b = b ∧ wMul ⟨0, 1, 0, 0⟩ b = ⟨b.c3, b.c0, b.c1, b.c2⟩) ∧
  wMul ⟨1, 1, 1, 1⟩ ⟨1, 1, 1, 1⟩ = ⟨0, 0, 0, 0⟩

/-- R144: the two mix-column constants, their packed values and their product. -/
def Obligations.MixConstantsMultiplyToOne : Prop :=
  mixc.pack = 0x02010103 ∧ imixc.pack = 0x0e090d0b ∧ wMul mixc imixc = ⟨0x01, 0x00, 0x00, 0x00⟩

/-! ### The cipher state (spec/42_state_transforms.md) -/

/-- R162: byte 4c+r of a block is the state byte in row r, column c, in both directions, and the round trips are the
identity. -/
def Obligations.BlockSerialization : Prop :=
  (∀ (t : Grid) (r c : Fin 4), (toBlock t).length = 16 ∧ (toBlock t)[4 * c.val + r.val]? = some (t.at r c)) ∧
  (∀ (b : List Byte), b.length = 16 →
    (∀ r c : Fin 4, b[4 * c.val + r.val]? = some ((fromBlock b).at r c)) ∧ toBlock (fromBlock b) = b) ∧
  ∀ t : Grid, fromBlock (toBlock t) = t

/-- R163, R232: LDS and LDIV load sixteen bytes from SRC, byte 4c+r into row r, column c, or fault with AddrRange when
the range is not in memory. -/
def Obligations.BlockLoads : Prop :=
  (Instr.encodedAs .lds 0x30 .n ∧ Instr.encodedAs .ldiv 0x63 .n) ∧
  ∀ s : State, s.running →
    (s.SRC.toNat + 16 ≤ s.memSize → ∃ g : Grid,
      (∀ r c : Fin 4, g.at r c = Memory.readByte s.MEM (s.SRC.toNat + (4 * c.val + r.val))) ∧
      exec .lds s = .next { s with S := g, rsp := some ⟨.ok, 0, 0⟩ } ∧
      exec .ldiv s = .next { s with IV := g, rsp := some ⟨.ok, 0, 0⟩ }) ∧
    (s.memSize < s.SRC.toNat + 16 →
      exec .lds s = .next (s.afterFault 7 0x30000000) ∧ exec .ldiv s = .next (s.afterFault 7 0x63000000))

/-- R164: STS stores the state at DST, the byte in row r, column c at DST+4c+r, or faults with AddrRange; no other byte
of memory and no register changes. -/
def Obligations.StsStoresTheState : Prop :=
  Instr.encodedAs .sts 0x31 .n ∧
  ∀ s : State, s.running →
    (s.DST.toNat + 16 ≤ s.memSize → ∃ t, exec .sts s = .next t ∧
      t = { s with MEM := t.MEM, rsp := some ⟨.ok, 0, 0⟩ } ∧
      (∀ r c : Fin 4, Memory.readByte t.MEM (s.DST.toNat + (4 * c.val + r.val)) = s.S.at r c) ∧
      ∀ a, a < s.DST.toNat ∨ s.DST.toNat + 16 ≤ a → Memory.readByte t.MEM a = Memory.readByte s.MEM a) ∧
    (s.memSize < s.DST.toNat + 16 → exec .sts s = .next (s.afterFault 7 0x31000000))

/-- R173 to R178 with R165 to R170: the six keyless transformation commands, byte by byte. -/
def Obligations.TransformationCommandResults : Prop :=
  (Instr.encodedAs .subbytes 0x32 .n ∧ Instr.encodedAs .isubbytes 0x33 .n ∧ Instr.encodedAs .shiftrows 0x34 .n ∧
   Instr.encodedAs .ishiftrows 0x35 .n ∧ Instr.encodedAs .mixcols 0x36 .n ∧ Instr.encodedAs .imixcols 0x37 .n) ∧
  ∀ s : State, s.running →
    s.mapsS .subbytes (fun r c => sbox (s.S.at r c)) ∧
    s.mapsS .isubbytes (fun r c => invSbox (s.S.at r c)) ∧
    s.mapsS .shiftrows (fun r c => s.S.at r (c + r)) ∧
    s.mapsS .ishiftrows (fun r c => s.S.at r (c - r)) ∧
    s.mapsS .mixcols (fun r c => gfMul (s.S.at r c) 0x02 ^^^ gfMul (s.S.at (r + 1) c) 0x03 ^^^
      s.S.at (r + 2) c ^^^ s.S.at (r + 3) c) ∧
    s.mapsS .imixcols (fun r c => gfMul (s.S.at r c) 0x0e ^^^ gfMul (s.S.at (r + 1) c) 0x0b ^^^
      gfMul (s.S.at (r + 2) c) 0x0d ^^^ gfMul (s.S.at (r + 3) c) 0x09)

/-- The transformations and their inverses undo each other, in both orders, and byte substitution and row rotation
commute (R172, derived there). -/
def Obligations.TransformationsHaveInverses : Prop :=
  ∀ t k : Grid,
    invSubBytes (subBytes t) = t ∧ subBytes (invSubBytes t) = t ∧
    invShiftRows (shiftRows t) = t ∧ shiftRows (invShiftRows t) = t ∧
    invMixColumns (mixColumns t) = t ∧ mixColumns (invMixColumns t) = t ∧
    addRoundKey (addRoundKey t k) k = t ∧ subBytes (shiftRows t) = shiftRows (subBytes t)

/-- R179: ADDRK adds the four words RK[4·round ..] to the four columns of S when the slice lies inside the installed
schedule, and faults with RkSlice when it does not. -/
def Obligations.AddrkAddsTheRoundKey : Prop :=
  (∀ n, Instr.encodedAs (.addrk n) 0x38 .i) ∧
  ∀ (s : State) (round : Nat), s.running →
    (4 * round + 4 ≤ s.RKLEN → ∃ g : Grid,
      (∀ r c : Fin 4, g.at r c = s.S.at r c ^^^ (rkWord s.RK (4 * round + c.val)).coef r) ∧
      exec (.addrk round) s = .next { s with S := g, rsp := some ⟨.ok, 0, 0⟩ }) ∧
    (s.RKLEN < 4 * round + 4 → exec (.addrk round) s = .next (s.afterFault 5 (encodeWord (.addrk round))))

/-! ### The key schedule (spec/43_key_schedule.md) -/

/-- R194 with R191 to R193: KEXP installs the schedule that satisfies the key expansion's recurrence, sets RKLEN, keeps
the words above it and everything else; a key length other than 4, 6, 8 faults with KeySize, a key not in memory with
AddrRange. -/
def Obligations.KexpInstallsTheExpandedKey : Prop :=
  (∀ n, Instr.encodedAs (.kexp n) 0x40 .i) ∧
  ∀ (s : State) (nk : Nat), s.running →
    (nk ≠ 4 → nk ≠ 6 → nk ≠ 8 → exec (.kexp nk) s = .next (s.afterFault 3 (encodeWord (.kexp nk)))) ∧
    (nk = 4 ∨ nk = 6 ∨ nk = 8 → s.memSize < s.SRC.toNat + 4 * nk →
      exec (.kexp nk) s = .next (s.afterFault 7 (encodeWord (.kexp nk)))) ∧
    (nk = 4 ∨ nk = 6 ∨ nk = 8 → s.SRC.toNat + 4 * nk ≤ s.memSize →
      ∃ t, exec (.kexp nk) s = .next t ∧
        t = { s with RK := t.RK, RKLEN := 4 * (nk + 7), rsp := some ⟨.ok, 0, 0⟩ } ∧
        (∀ i < nk, ∀ k : Fin 4, (rkWord t.RK i).coef k = Memory.readByte s.MEM (s.SRC.toNat + (4 * i + k.val))) ∧
        (∀ i, nk ≤ i → i < 4 * (nk + 7) → rkWord t.RK i = wAdd (rkWord t.RK (i - nk))
          (if i % nk = 0 then
             wAdd (subWord (rotWord (rkWord t.RK (i - 1)))) ⟨Nat.iterate gfXtime (i / nk - 1) 0x01, 0x00, 0x00, 0x00⟩
           else if 6 < nk ∧ i % nk = 4 then subWord (rkWord t.RK (i - 1))
           else rkWord t.RK (i - 1))) ∧
        (∀ i, 4 * (nk + 7) ≤ i → rkWord t.RK i = rkWord s.RK i))

/-- R196: the published key expansions of the three key sizes (vectors V5, V6, V7 of spec/95_test_vectors.md): the key
is the first nk words of the schedule that `key_expand` makes of it. -/
def Obligations.KeyExpansionsAreThePublishedOnes : Prop :=
  let expandsTo := fun (nk : Nat) (ws : List RegVal) =>
    (keyExpand ((ws.take nk).map fun v => bytesOf (.unpack v)).flatten nk).map FieldWord.pack = ws
  expandsTo 4
    (List.flatten [[0x2b7e1516, 0x28aed2a6, 0xabf71588, 0x09cf4f3c, 0xa0fafe17, 0x88542cb1, 0x23a33939,
       0x2a6c7605, 0xf2c295f2, 0x7a96b943, 0x5935807a, 0x7359f67f, 0x3d80477d, 0x4716fe3e,
       0x1e237e44, 0x6d7a883b, 0xef44a541, 0xa8525b7f, 0xb671253b, 0xdb0bad00],
      [0xd4d1c6f8, 0x7c839d87, 0xcaf2b8bc, 0x11f915bc, 0x6d88a37a, 0x110b3efd, 0xdbf98641,
       0xca0093fd, 0x4e54f70e, 0x5f5fc9f3, 0x84a64fb2, 0x4ea6dc4f, 0xead27321, 0xb58dbad2,
       0x312bf560, 0x7f8d292f, 0xac7766f3, 0x19fadc21, 0x28d12941, 0x575c006e],
      [0xd014f9a8, 0xc9ee2589, 0xe13f0cc8, 0xb6630ca6]]) ∧
  expandsTo 6
    (List.flatten [[0x8e73b0f7, 0xda0e6452, 0xc810f32b, 0x809079e5, 0x62f8ead2, 0x522c6bf5, 0xfe0c56f7,
       0x240232a5, 0xec12c18e, 0x6c82b86b, 0x0e7a52b9, 0x5c56394c, 0x4d1e7fbd, 0x691c4d18,
       0x850e8c96, 0xe98c34fd, 0xe7f66644, 0xbba05f08, 0xa9d14f57, 0xc0cd024f],
      [0x45c38ed9, 0xac4fba24, 0x4bb9dc60, 0xf0198368, 0x753d0adb, 0xb5f00894, 0xf033864d,
       0x5c7c3c69, 0x17c5e009, 0xe7dc6361, 0xe3c6e54f, 0x5636eddb, 0xa6056b96, 0xfa7957ff,
       0xedbcb7f6, 0x0a60d497, 0x138e6d28, 0x45b880f3, 0xe3bdeb65, 0x19c4bc9a],
      [0xf4780b6c, 0xfe18dffb, 0xfe106293, 0xbba8e260, 0x58150905, 0x41d1b59f, 0xb5a9bef3,
       0x4bb16108, 0xb6ff5220, 0x0d57b040, 0x5542b945, 0x14930cda]]) ∧
  expandsTo 8
    (List.flatten [[0x603deb10, 0x15ca71be, 0x2b73aef0, 0x857d7781, 0x1f352c07, 0x3b6108d7, 0x2d9810a3,
       0x0914dff4, 0x9ba35411, 0x8e6925af, 0xa51a8b5f, 0x2067fcde, 0xa8b09c1a, 0x93d194cd,
       0xbe49846e, 0xb75d5b9a, 0xd59aecb8, 0x5bf3c917, 0xfee94248, 0xde8ebe96],
      [0xb5a9328a, 0x2678a647, 0x98312229, 0x2f6c79b3, 0x812c81ad, 0xdadf48ba, 0x24360af2,
       0xfab8b464, 0x98c5bfc9, 0xbebd198e, 0x268c3ba7, 0x09e04214, 0x68007bac, 0xb2df3316,
       0x96e939e4, 0x6c518d80, 0xc814e204, 0x76a9fb8a, 0x5025c02d, 0x59c58239],
      [0xde136967, 0x6ccc5a71, 0xfa256395, 0x9674ee15, 0x5886ca5d, 0x2e2f31d7, 0x7e0af1fa,
       0x27cf73c3, 0x749c47ab, 0x18501dda, 0xe2757e4f, 0x7401905a, 0xcafaaae3, 0xe4d59b34,
       0x9adf6ace, 0xbd10190d, 0xfe4890d1, 0xe6188d0b, 0x046df344, 0x706c631e]])

/-- R195: LDRK installs n words from memory for every n up to 60, keeps the words above them and everything else; more
than 60 words fault with RkCount, words not in memory with AddrRange. -/
def Obligations.LdrkInstallsWordsFromMemory : Prop :=
  (∀ n, Instr.encodedAs (.ldrk n) 0x41 .i) ∧
  ∀ (s : State) (n : Nat), s.running →
    (60 < n → exec (.ldrk n) s = .next (s.afterFault 6 (encodeWord (.ldrk n)))) ∧
    (n ≤ 60 → n ≠ 0 → s.memSize < s.SRC.toNat + 4 * n →
      exec (.ldrk n) s = .next (s.afterFault 7 (encodeWord (.ldrk n)))) ∧
    (n ≤ 60 → n = 0 ∨ s.SRC.toNat + 4 * n ≤ s.memSize →
      ∃ t, exec (.ldrk n) s = .next t ∧ t = { s with RK := t.RK, RKLEN := n, rsp := some ⟨.ok, 0, 0⟩ } ∧
        (∀ i < n, ∀ k : Fin 4, (rkWord t.RK i).coef k = Memory.readByte s.MEM (s.SRC.toNat + (4 * i + k.val))) ∧
        (∀ i, n ≤ i → rkWord t.RK i = rkWord s.RK i))

/-! ### The cipher driver (spec/44_cipher_driver.md) -/

/-- R214 with R211 and R212: with a schedule whose length is not a multiple of 4 or is at most 4 ENC faults with RkLen;
with any other it ends exactly as the transformation commands of the forward cipher issued one by one, and changes S
only. -/
def Obligations.EncEqualsItsTransformationCommands : Prop :=
  Instr.encodedAs .enc 0x50 .n ∧
  ∀ s : State, s.running →
    (s.RKLEN % 4 ≠ 0 ∨ s.RKLEN ≤ 4 → exec .enc s = .next (s.afterFault 4 0x50000000)) ∧
    (s.RKLEN % 4 = 0 → 4 < s.RKLEN →
      ∃ t, exec .enc s = .next t ∧ t = { s with S := t.S, rsp := some ⟨.ok, 0, 0⟩ } ∧
        runCommands (cipherCommands (s.RKLEN / 4 - 1)) s = .next t)

/-- With a schedule whose length is not a multiple of 4 or is at most 4 DEC faults with RkLen; with any other it ends exactly
as the transformation commands of the inverse cipher issued one by one, and changes S only. R213 and R215 give the loop and
the command; that the commands one by one give the same is derived from them (R214 states it for ENC). -/
def Obligations.DecEqualsItsTransformationCommands : Prop :=
  Instr.encodedAs .dec 0x51 .n ∧
  ∀ s : State, s.running →
    (s.RKLEN % 4 ≠ 0 ∨ s.RKLEN ≤ 4 → exec .dec s = .next (s.afterFault 4 0x51000000)) ∧
    (s.RKLEN % 4 = 0 → 4 < s.RKLEN →
      ∃ t, exec .dec s = .next t ∧ t = { s with S := t.S, rsp := some ⟨.ok, 0, 0⟩ } ∧
        runCommands (invCipherCommands (s.RKLEN / 4 - 1)) s = .next t)

/-- For every S and every schedule of valid length, ENC followed by DEC restores S, and DEC followed by ENC (R216; the
second order is the spec's own derivation); and the published ciphertexts (vectors V1 to V4 of spec/95_test_vectors.md), with the plaintexts recovered from them. -/
def Obligations.DecAndEncUndoEachOther : Prop :=
  (∀ s : State, s.running → s.RKLEN % 4 = 0 → 4 < s.RKLEN →
    runCommands [.enc, .dec] s = .next (s.afterOk 0) ∧ runCommands [.dec, .enc] s = .next (s.afterOk 0)) ∧
  ∀ v ∈
    [([0x2b7e1516, 0x28aed2a6, 0xabf71588, 0x09cf4f3c],
      gridOfPacked 0x3243f6a8 0x885a308d 0x313198a2 0xe0370734,
      gridOfPacked 0x3925841d 0x02dc09fb 0xdc118597 0x196a0b32),
     ([0x00010203, 0x04050607, 0x08090a0b, 0x0c0d0e0f],
      gridOfPacked 0x00112233 0x44556677 0x8899aabb 0xccddeeff,
      gridOfPacked 0x69c4e0d8 0x6a7b0430 0xd8cdb780 0x70b4c55a),
     ([0x00010203, 0x04050607, 0x08090a0b, 0x0c0d0e0f, 0x10111213, 0x14151617],
      gridOfPacked 0x00112233 0x44556677 0x8899aabb 0xccddeeff,
      gridOfPacked 0xdda97ca4 0x864cdfe0 0x6eaf70a0 0xec0d7191),
     ([0x00010203, 0x04050607, 0x08090a0b, 0x0c0d0e0f, 0x10111213, 0x14151617, 0x18191a1b, 0x1c1d1e1f],
      gridOfPacked 0x00112233 0x44556677 0x8899aabb 0xccddeeff,
      gridOfPacked 0x8ea2b7ca 0x516745bf 0xeafc4990 0x4b496089)],
    cipher v.2.1 (scheduleOf v.1) (scheduleWords v.1.length) = v.2.2 ∧
    invCipher v.2.2 (scheduleOf v.1) (scheduleWords v.1.length) = v.2.1

/-- R100: the pseudo-instructions. SETBUF passes the three buffer values; CIPHERBLK and INVCIPHERBLK put the cipher, and
the inverse cipher, of the block at SRC at DST; KEXP128, KEXP192, KEXP256 are KEXP 4, 6, 8. -/
def Obligations.PseudoInstructionsExpand : Prop :=
  (∀ (s : State) (src dst n : RegVal), s.running → runCommands (pseudoSetbuf src dst n) s =
    .next { s with SRC := src, DST := dst, LEN := n, rsp := some ⟨.ok, 0, 0⟩ }) ∧
  (∀ s : State, s.running → s.RKLEN % 4 = 0 → 4 < s.RKLEN → s.SRC.toNat + 16 ≤ s.memSize →
    s.DST.toNat + 16 ≤ s.memSize →
    (∃ t, runCommands pseudoCipherblk s = .next t ∧ t = { s with S := t.S, MEM := t.MEM, rsp := some ⟨.ok, 0, 0⟩ } ∧
      Memory.readBytes t.MEM s.DST.toNat 16 = encBlk s.RK s.RKLEN (Memory.readBytes s.MEM s.SRC.toNat 16)) ∧
    ∃ t, runCommands pseudoInvCipherblk s = .next t ∧ t = { s with S := t.S, MEM := t.MEM, rsp := some ⟨.ok, 0, 0⟩ } ∧
      Memory.readBytes t.MEM s.DST.toNat 16 = decBlk s.RK s.RKLEN (Memory.readBytes s.MEM s.SRC.toNat 16)) ∧
  (pseudoSetbuf = fun src dst n => [.csrwi 0x000 src, .csrwi 0x001 dst, .csrwi 0x002 n]) ∧
  pseudoCipherblk = [.lds, .enc, .sts] ∧ pseudoInvCipherblk = [.lds, .dec, .sts] ∧
  pseudoKexp128 = [.kexp 4] ∧ pseudoKexp192 = [.kexp 6] ∧ pseudoKexp256 = [.kexp 8]

/-- R29: round-key words at and above RKLEN are never read by ADDRK, ENC, DEC or a mode command: two states that differ
in those words only lead to next states that differ in those words only. -/
def Obligations.WordsAboveRklenAreNeverRead : Prop :=
  ∀ (i : Instr) (s t : State) (rk : Vector FieldWord 60),
    i.opcode ∈ [.addrk, .enc, .dec, .cbcenc, .cbcdec, .ctr] → (∀ k < s.RKLEN, rkWord rk k = rkWord s.RK k) →
    exec i s = .next t → exec i { s with RK := rk } = .next { t with RK := rk }

/-! ### The modes of operation (spec/45_modes.md) -/

/-- R235, R66: the block is read as a big-endian integer, `{pack(T[0]), .., pack(T[3])}` of the cursor it is the block
of, and 1 is added modulo 2^128. Byte by byte: from the last byte on, 0xff bytes become 0x00 until a byte that is not 0xff, which
is incremented; the bytes before it stay; sixteen 0xff bytes become sixteen 0x00 bytes. -/
def Obligations.CounterIncrementByteByByte : Prop :=
  (∀ (p : List Byte) (b : Byte) (n : Nat), p.length + 1 + n = 16 → b ≠ 0xFF →
    inc128 (p ++ b :: List.replicate n 0xFF) = p ++ (b + 1) :: List.replicate n 0x00) ∧
  inc128 (List.replicate 16 0xFF) = List.replicate 16 0x00 ∧
  (∀ g : Grid, natOfBytes (toBlock g) = (g.t0.pack ++ g.t1.pack ++ g.t2.pack ++ g.t3.pack).toNat) ∧
  ∀ b : List Byte, b.length = 16 →
    (inc128 b).length = 16 ∧ natOfBytes (inc128 b) = (natOfBytes b + 1) % 340282366920938463463374607431768211456

/-- R233: CBCENC checks the schedule, the ranges and their disjointness in that order, each before any change; then the
destination holds the chained encryption of the padded message, CUR and S hold its last block, OUTLEN its length, and
nothing else changes. -/
def Obligations.CbcencEncryptsThePaddedMessage : Prop :=
  Instr.encodedAs .cbcenc 0x60 .n ∧
  ∀ s : State, s.running →
    let n := s.LEN.toNat
    let out := 16 * (n / 16 + 1)
    let ranges := (n = 0 ∨ s.SRC.toNat + n ≤ s.memSize) ∧ s.DST.toNat + out ≤ s.memSize
    let apart := n = 0 ∨ s.SRC.toNat + n ≤ s.DST.toNat ∨ s.DST.toNat + out ≤ s.SRC.toNat
    let valid := s.RKLEN % 4 = 0 ∧ 4 < s.RKLEN
    (¬ valid → exec .cbcenc s = .next (s.afterFault 4 0x60000000)) ∧
    (valid → ¬ ranges → exec .cbcenc s = .next (s.afterFault 7 0x60000000)) ∧
    (valid → ranges → ¬ apart → exec .cbcenc s = .next (s.afterFault 8 0x60000000)) ∧
    (valid → ranges → apart → ∃ t, exec .cbcenc s = .next t ∧
      t = { s with MEM := t.MEM, S := t.CUR, CUR := t.CUR, OUTLEN := BitVec.ofNat 32 out, rsp := some ⟨.ok, 0, 0⟩ } ∧
      Memory.readBytes t.MEM s.DST.toNat out =
        (chainEncrypt (encBlk s.RK s.RKLEN) (toBlock s.IV) (blocksOf (padMessage s.message))).flatten ∧
      toBlock t.CUR = Memory.readBytes t.MEM (s.DST.toNat + 16 * (n / 16)) 16 ∧
      ∀ a, a < s.DST.toNat ∨ s.DST.toNat + out ≤ a → Memory.readByte t.MEM a = Memory.readByte s.MEM a)

/-- R234: CBCDEC reports Format first; then it checks the schedule, the ranges and their disjointness; then the
destination holds the chained decryption of the buffer, CUR the last ciphertext block; the last output byte is trusted
as the pad length, and the Pad error is reported when there is none or it exceeds the length. -/
def Obligations.CbcdecDecryptsAndTrustsTheLastByte : Prop :=
  Instr.encodedAs .cbcdec 0x61 .n ∧
  ∀ s : State, s.running →
    let n := s.LEN.toNat
    let ranges := n = 0 ∨ s.SRC.toNat + n ≤ s.memSize ∧ s.DST.toNat + n ≤ s.memSize
    let apart := n = 0 ∨ s.SRC.toNat + n ≤ s.DST.toNat ∨ s.DST.toNat + n ≤ s.SRC.toNat
    let valid := s.RKLEN % 4 = 0 ∧ 4 < s.RKLEN
    (n % 16 ≠ 0 → exec .cbcdec s = .next (s.afterError 1)) ∧
    (n % 16 = 0 → ¬ valid → exec .cbcdec s = .next (s.afterFault 4 0x61000000)) ∧
    (n % 16 = 0 → valid → ¬ ranges → exec .cbcdec s = .next (s.afterFault 7 0x61000000)) ∧
    (n % 16 = 0 → valid → ranges → ¬ apart → exec .cbcdec s = .next (s.afterFault 8 0x61000000)) ∧
    (n = 0 → valid → exec .cbcdec s = .next ({ s with CUR := s.IV }.afterError 2)) ∧
    (n % 16 = 0 → 0 < n → valid → ranges → apart → ∃ t, exec .cbcdec s = .next t ∧
      t = { s with MEM := t.MEM, S := t.S, CUR := t.CUR, OUTLEN := t.OUTLEN, ERR := t.ERR, rsp := t.rsp } ∧
      Memory.readBytes t.MEM s.DST.toNat n =
        (chainDecrypt (decBlk s.RK s.RKLEN) (toBlock s.IV) (blocksOf s.message)).flatten ∧
      toBlock t.CUR = Memory.readBytes s.MEM (s.SRC.toNat + (n - 16)) 16 ∧
      t.S = invCipher t.CUR s.RK s.RKLEN ∧
      (∀ a, a < s.DST.toNat ∨ s.DST.toNat + n ≤ a → Memory.readByte t.MEM a = Memory.readByte s.MEM a) ∧
      let p := (Memory.readByte t.MEM (s.DST.toNat + n - 1)).toNat
      (p ≤ n → t.OUTLEN = BitVec.ofNat 32 (n - p) ∧ t.ERR = 0 ∧ t.rsp = some ⟨.ok, 0, 0⟩) ∧
      (n < p → t.OUTLEN = 0 ∧ t.ERR = 2 ∧ t.rsp = some ⟨.err, 2, 0⟩))

/-- R236: CTR checks the schedule, the ranges and their disjointness in that order; then byte k of the destination is
byte k of the message XOR byte k mod 16 of the encrypted counter of chunk k/16, CUR is IV plus the number of chunks
modulo 2^128, OUTLEN is the length, and nothing else changes but S, which keeps its value when there is no chunk. -/
def Obligations.CtrXorsTheKeystream : Prop :=
  Instr.encodedAs .ctr 0x62 .n ∧
  ∀ s : State, s.running →
    let n := s.LEN.toNat
    let ranges := n = 0 ∨ s.SRC.toNat + n ≤ s.memSize ∧ s.DST.toNat + n ≤ s.memSize
    let apart := n = 0 ∨ s.SRC.toNat + n ≤ s.DST.toNat ∨ s.DST.toNat + n ≤ s.SRC.toNat
    let valid := s.RKLEN % 4 = 0 ∧ 4 < s.RKLEN
    (¬ valid → exec .ctr s = .next (s.afterFault 4 0x62000000)) ∧
    (valid → ¬ ranges → exec .ctr s = .next (s.afterFault 7 0x62000000)) ∧
    (valid → ranges → ¬ apart → exec .ctr s = .next (s.afterFault 8 0x62000000)) ∧
    (valid → ranges → apart → ∃ t, exec .ctr s = .next t ∧
      t = { s with MEM := t.MEM, S := t.S, CUR := t.CUR, OUTLEN := s.LEN, rsp := some ⟨.ok, 0, 0⟩ } ∧
      (∀ k < n, Memory.readByte t.MEM (s.DST.toNat + k) = Memory.readByte s.MEM (s.SRC.toNat + k) ^^^
        (encBlk s.RK s.RKLEN (counterBlock s.IV (k / 16))).getD (k % 16) 0) ∧
      toBlock t.CUR = counterBlock s.IV ((n + 15) / 16) ∧
      (0 < n → toBlock t.S = encBlk s.RK s.RKLEN (counterBlock s.IV ((n + 15) / 16 - 1))) ∧
      (n = 0 → t.S = s.S) ∧
      ∀ a, a < s.DST.toNat ∨ s.DST.toNat + n ≤ a → Memory.readByte t.MEM a = Memory.readByte s.MEM a)

/-- Chained mode (R237, derived there): CBCENC, then CBCDEC with SRC at the output, LEN its length and the same IV and schedule, ends
with the message's length in OUTLEN, ERR = 0 and the message at the second destination. -/
def Obligations.ChainedRoundTripRestoresTheMessage : Prop :=
  ∀ (s t : State) (dst2 : RegVal), s.running → s.memSize ≤ Config.maxMemSize →
    exec .cbcenc s = .next t → t.FAULT = false →
    let u := { t with SRC := s.DST, DST := dst2, LEN := t.OUTLEN }
    dst2.toNat + t.OUTLEN.toNat ≤ s.memSize →
    dst2.toNat + t.OUTLEN.toNat ≤ s.DST.toNat ∨ s.DST.toNat + t.OUTLEN.toNat ≤ dst2.toNat →
    ∃ v, exec .cbcdec u = .next v ∧ v.FAULT = false ∧ v.ERR = 0 ∧ v.OUTLEN = s.LEN ∧
      Memory.readBytes v.MEM dst2.toNat s.LEN.toNat = s.message

/-- Counter mode (R237, derived there): CTR, then CTR again with SRC at the output and the same IV, length and schedule, gives the
message back, for every length. -/
def Obligations.CounterModeTwiceRestoresTheMessage : Prop :=
  ∀ (s t : State) (dst2 : RegVal), s.running → exec .ctr s = .next t → t.FAULT = false →
    let u := { t with SRC := s.DST, DST := dst2 }
    s.LEN = 0 ∨ dst2.toNat + s.LEN.toNat ≤ s.memSize ∧
      (dst2.toNat + s.LEN.toNat ≤ s.DST.toNat ∨ s.DST.toNat + s.LEN.toNat ≤ dst2.toNat) →
    ∃ v, exec .ctr u = .next v ∧ v.FAULT = false ∧ v.OUTLEN = s.LEN ∧
      Memory.readBytes v.MEM dst2.toNat s.LEN.toNat = s.message

/-- R358: every mode command starts with CUR <- IV, so CUR's old value is never used: a mode command that gets past its
checks leads to the same next state whatever CUR was. -/
def Obligations.ModeCommandsIgnoreTheOldCursor : Prop :=
  ∀ (i : Instr) (s t : State) (g : Grid), i.opcode ∈ [.cbcenc, .cbcdec, .ctr] → s.running →
    exec i s = .next t → t.FAULT = false → s.LEN.toNat % 16 = 0 ∨ i.opcode ≠ .cbcdec →
    exec i { s with CUR := g } = .next t

/-! ### The padding scheme (spec/46_padding.md) -/

/-- R261: block i of the padded message is what R261 reads from memory and fills up, for every block; the padded message
is the message and then p bytes p. -/
def Obligations.PaddedBlocksComeFromMemory : Prop :=
  (∀ msg : List Byte, padMessage msg = msg ++ List.replicate (16 * (msg.length / 16 + 1) - msg.length)
    (BitVec.ofNat 8 (16 * (msg.length / 16 + 1) - msg.length))) ∧
  ∀ (m : Memory) (addr n i : Nat), i < n / 16 + 1 →
    padBlock (Memory.readBytes m addr n) i = padBlockAt m addr n i ∧ (padBlockAt m addr n i).length = 16

/-- R263: PAD checks the ranges and their disjointness in that order; then the destination holds the padded message,
OUTLEN its length, and nothing else changes. -/
def Obligations.PadWritesThePaddedMessage : Prop :=
  Instr.encodedAs .pad 0x68 .n ∧
  ∀ s : State, s.running →
    let n := s.LEN.toNat
    let out := 16 * (n / 16 + 1)
    let ranges := (n = 0 ∨ s.SRC.toNat + n ≤ s.memSize) ∧ s.DST.toNat + out ≤ s.memSize
    let apart := n = 0 ∨ s.SRC.toNat + n ≤ s.DST.toNat ∨ s.DST.toNat + out ≤ s.SRC.toNat
    (¬ ranges → exec .pad s = .next (s.afterFault 7 0x68000000)) ∧
    (ranges → ¬ apart → exec .pad s = .next (s.afterFault 8 0x68000000)) ∧
    (ranges → apart → ∃ t, exec .pad s = .next t ∧
      t = { s with MEM := t.MEM, OUTLEN := BitVec.ofNat 32 out, rsp := some ⟨.ok, 0, 0⟩ } ∧
      Memory.readBytes t.MEM s.DST.toNat out = padMessage s.message ∧
      (∀ a, a < s.DST.toNat ∨ s.DST.toNat + out ≤ a → Memory.readByte t.MEM a = Memory.readByte s.MEM a) ∧
      (s.memSize ≤ Config.maxMemSize → t.OUTLEN.toNat = out))

/-- R264: UNPAD trusts the last byte of the buffer as the pad length: it reports the Pad error when the buffer is empty
or the pad length exceeds it, and else the length that is left; it moves no data. -/
def Obligations.UnpadReportsTheLength : Prop :=
  Instr.encodedAs .unpad 0x69 .n ∧
  ∀ s : State, s.running →
    let n := s.LEN.toNat
    let p := (Memory.readByte s.MEM (s.SRC.toNat + n - 1)).toNat
    (0 < n → s.memSize < s.SRC.toNat + n → exec .unpad s = .next (s.afterFault 7 0x69000000)) ∧
    (n = 0 → exec .unpad s = .next (s.afterError 2)) ∧
    (0 < n → s.SRC.toNat + n ≤ s.memSize → n < p → exec .unpad s = .next (s.afterError 2)) ∧
    (0 < n → s.SRC.toNat + n ≤ s.memSize → p ≤ n →
      exec .unpad s = .next { s with OUTLEN := BitVec.ofNat 32 (n - p), ERR := 0, rsp := some ⟨.ok, 0, 0⟩ })

/-- Unpadding a padded message gives the message; the padded length is 16·(n/16+1), a multiple of 16, strictly greater
than the message's for every length (R265, the last for every length derived there). -/
def Obligations.UnpadInvertsPad : Prop :=
  ∀ msg : List Byte, unpadMessage (padMessage msg) = some msg ∧ (padMessage msg).length = 16 * (msg.length / 16 + 1) ∧
    (padMessage msg).length % 16 = 0 ∧ msg.length < (padMessage msg).length
end

