-- ==== Sys2Proof/Laws/Encoding.lean ====
section
/-! SUPPORT. The fields of an assembled command word, and the opcode map as a one-to-one table. -/

namespace Sys2Proof

@[simp] theorem Command.word_ofParts (a w : RegVal) : (Command.ofParts a w).word = w := by
  have := w.isLt
  apply BitVec.eq_of_toNat_eq
  simp only [Command.word, Command.ofParts, BitVec.extractLsb'_toNat, BitVec.toNat_append]
  rw [← Nat.shiftLeft_add_eq_or_of_lt w.isLt]
  simp only [Nat.shiftLeft_eq, Nat.shiftRight_eq_div_pow]
  omega

@[simp] theorem Command.arg_ofParts (a w : RegVal) : (Command.ofParts a w).arg = a := by
  have := w.isLt; have := a.isLt
  apply BitVec.eq_of_toNat_eq
  simp only [Command.arg, Command.ofParts, BitVec.extractLsb'_toNat, BitVec.toNat_append]
  rw [← Nat.shiftLeft_add_eq_or_of_lt w.isLt]
  simp only [Nat.shiftLeft_eq, Nat.shiftRight_eq_div_pow]
  omega

theorem assemble_toNat (op : Byte) (rd ra rb : Reg) (imm : Nat) :
    (assemble op rd ra rb imm).toNat =
      op.toNat * 16777216 + rd.val * 1048576 + ra.val * 65536 + rb.val * 4096 + imm % 4096 := by
  have h1 := op.isLt; have h2 : rd.val < 16 := rd.isLt; have h3 : ra.val < 16 := ra.isLt
  have h4 : rb.val < 16 := rb.isLt
  simp only [assemble, BitVec.toNat_append, BitVec.toNat_ofFin, BitVec.toNat_ofNat]
  rw [← Nat.shiftLeft_add_eq_or_of_lt (by omega), ← Nat.shiftLeft_add_eq_or_of_lt (by omega),
    ← Nat.shiftLeft_add_eq_or_of_lt (by omega), ← Nat.shiftLeft_add_eq_or_of_lt (by omega)]
  simp only [Nat.shiftLeft_eq]
  omega

@[simp] theorem fieldOp_assemble (op : Byte) (rd ra rb : Reg) (imm : Nat) : fieldOp (assemble op rd ra rb imm) = op := by
  have h1 := op.isLt; have h2 : rd.val < 16 := rd.isLt; have h3 : ra.val < 16 := ra.isLt
  have h4 : rb.val < 16 := rb.isLt
  apply BitVec.eq_of_toNat_eq
  simp only [fieldOp, BitVec.extractLsb'_toNat, assemble_toNat, Nat.shiftRight_eq_div_pow]
  omega

@[simp] theorem fieldRd_assemble (op : Byte) (rd ra rb : Reg) (imm : Nat) : fieldRd (assemble op rd ra rb imm) = rd := by
  have h1 := op.isLt; have h2 : rd.val < 16 := rd.isLt; have h3 : ra.val < 16 := ra.isLt
  have h4 : rb.val < 16 := rb.isLt
  apply Fin.ext
  simp only [fieldRd, BitVec.val_toFin, BitVec.extractLsb'_toNat, assemble_toNat, Nat.shiftRight_eq_div_pow]
  omega

@[simp] theorem fieldRa_assemble (op : Byte) (rd ra rb : Reg) (imm : Nat) : fieldRa (assemble op rd ra rb imm) = ra := by
  have h1 := op.isLt; have h2 : rd.val < 16 := rd.isLt; have h3 : ra.val < 16 := ra.isLt
  have h4 : rb.val < 16 := rb.isLt
  apply Fin.ext
  simp only [fieldRa, BitVec.val_toFin, BitVec.extractLsb'_toNat, assemble_toNat, Nat.shiftRight_eq_div_pow]
  omega

@[simp] theorem fieldRb_assemble (op : Byte) (rd ra rb : Reg) (imm : Nat) : fieldRb (assemble op rd ra rb imm) = rb := by
  have h1 := op.isLt; have h2 : rd.val < 16 := rd.isLt; have h3 : ra.val < 16 := ra.isLt
  have h4 : rb.val < 16 := rb.isLt
  apply Fin.ext
  simp only [fieldRb, BitVec.val_toFin, BitVec.extractLsb'_toNat, assemble_toNat, Nat.shiftRight_eq_div_pow]
  omega

theorem fieldImm_assemble (op : Byte) (rd ra rb : Reg) (imm : Nat) :
    fieldImm (assemble op rd ra rb imm) = imm % 4096 := by
  have h1 := op.isLt; have h2 : rd.val < 16 := rd.isLt; have h3 : ra.val < 16 := ra.isLt
  have h4 : rb.val < 16 := rb.isLt
  simp only [fieldImm, BitVec.extractLsb'_toNat, assemble_toNat, Nat.shiftRight_eq_div_pow]
  omega

theorem fieldPos_assemble (op : Byte) (rd ra rb : Reg) (pos : Fin 4) :
    fieldPos (assemble op rd ra rb pos) = pos := by
  have h1 := op.isLt; have h2 : rd.val < 16 := rd.isLt; have h3 : ra.val < 16 := ra.isLt
  have h4 : rb.val < 16 := rb.isLt; have h5 := pos.isLt
  apply Fin.ext
  simp only [fieldPos, BitVec.val_toFin, BitVec.extractLsb'_toNat, assemble_toNat, Nat.shiftRight_eq_div_pow]
  omega

/-- A command word is its five fields (R91). -/
theorem assemble_fields (w : RegVal) :
    assemble (fieldOp w) (fieldRd w) (fieldRa w) (fieldRb w) (fieldImm w) = w := by
  have h := w.isLt
  apply BitVec.eq_of_toNat_eq
  rw [assemble_toNat]
  simp only [fieldOp, fieldRd, fieldRa, fieldRb, fieldImm, BitVec.val_toFin, BitVec.extractLsb'_toNat,
    Nat.shiftRight_eq_div_pow]
  omega

theorem fieldImm_lt (w : RegVal) : fieldImm w < 4096 := (w.extractLsb' 0 12).isLt

theorem Opcode.mem_all (o : Opcode) : o ∈ Opcode.all := by cases o <;> decide

/-- The opcode value names its row. -/
theorem Opcode.ofByte_byte (o : Opcode) : Opcode.ofByte o.byte = some o := by cases o <;> decide

theorem Opcode.byte_of_ofByte (b : Byte) (o : Opcode) (h : Opcode.ofByte b = some o) : o.byte = b := by
  have := List.find?_some h
  simpa using this

theorem Opcode.byte_injective (o p : Opcode) (h : o.byte = p.byte) : o = p := by
  have := Opcode.ofByte_byte o
  rw [h, Opcode.ofByte_byte p] at this
  exact (Option.some.inj this).symm

/-- Every mask covers the opcode field (R92). -/
theorem Format.mask_covers_op (f : Format) (w : RegVal) : fieldOp (w &&& f.mask) = fieldOp w := by
  have : f.mask.extractLsb' 24 8 = 0xFF := by cases f <;> decide
  simp only [fieldOp, BitVec.extractLsb'_and, this]
  exact BitVec.and_allOnes

theorem Opcode.fieldOp_matchBits (o : Opcode) : fieldOp o.matchBits = o.byte := by cases o <;> decide

/-- A word that matches a row has the row's opcode in its opcode field. -/
theorem Opcode.fieldOp_of_match (o : Opcode) (w : RegVal) (h : w &&& o.format.mask = o.matchBits) :
    fieldOp w = o.byte := by
  rw [← Format.mask_covers_op o.format w, h, Opcode.fieldOp_matchBits]

/-- The command a row builds belongs to the row. -/
theorem Opcode.opcode_build (o : Opcode) (w a : RegVal) : (o.build w a).opcode = o := by cases o <;> rfl

/-- The decoder on a word that matches a row. -/
theorem decode_of_match (I : Command) (o : Opcode) (h : I.word &&& o.format.mask = o.matchBits) :
    decode I = .ok (o.build I.word I.arg) := by
  simp [decode, Opcode.fieldOp_of_match o I.word h, Opcode.ofByte_byte, h]

/-- The decoder in two cases: a row matches and its command is built, or no row does and the word is rejected. -/
theorem decode_cases (I : Command) :
    (∃ o : Opcode, I.word &&& o.format.mask = o.matchBits ∧ decode I = .ok (o.build I.word I.arg)) ∨
    ((∀ o : Opcode, I.word &&& o.format.mask ≠ o.matchBits) ∧ ∃ r, decode I = .error r) := by
  by_cases h : ∃ o : Opcode, I.word &&& o.format.mask = o.matchBits
  · obtain ⟨o, ho⟩ := h
    exact .inl ⟨o, ho, decode_of_match I o ho⟩
  · have h' : ∀ o : Opcode, I.word &&& o.format.mask ≠ o.matchBits := fun o ho => h ⟨o, ho⟩
    refine .inr ⟨h', ?_⟩
    unfold decode
    split
    · exact ⟨_, rfl⟩
    · rename_i o _
      exact ⟨.reservedBit, if_neg (h' o)⟩

/-! ### The encoded word and its row's mask -/

theorem append_and_append {a b : Nat} (x u : BitVec a) (y v : BitVec b) :
    (x ++ y) &&& (u ++ v) = (x &&& u) ++ (y &&& v) := by
  apply BitVec.eq_of_getLsbD_eq
  intro k _
  simp only [BitVec.getLsbD_and, BitVec.getLsbD_append]
  split <;> rfl

/-- A word whose operands lie in the fields its format uses keeps only its opcode under the mask. The mask is given by
its five fields; an operand's field is covered by the mask only where the operand is zero. -/
theorem assemble_and_mask (op : Byte) (rd ra rb : Reg) (imm : Nat) (m1 m2 m3 : BitVec 4) (m4 : BitVec 12) (m : RegVal)
    (hm : m = 0xFF#8 ++ m1 ++ m2 ++ m3 ++ m4)
    (h1 : BitVec.ofFin (w := 4) rd &&& m1 = 0) (h2 : BitVec.ofFin (w := 4) ra &&& m2 = 0)
    (h3 : BitVec.ofFin (w := 4) rb &&& m3 = 0) (h4 : BitVec.ofNat 12 imm &&& m4 = 0) :
    assemble op rd ra rb imm &&& m = op ++ (0 : BitVec 24) := by
  rw [hm, assemble, append_and_append, append_and_append, append_and_append, append_and_append, h1, h2, h3, h4]
  have h0 : op &&& 0xFF#8 = op := BitVec.and_allOnes
  rw [h0]
  decide +revert

end Sys2Proof
end

