-- ==== Sys2Proof/Laws/State.lean ====
section
/-! SUPPORT. What each named update of State leaves in each field, one lemma per field and update, so that no later proof
unfolds a record update. -/

namespace Sys2Proof.Machine

/-! ### `State.setReg` -/

@[simp] theorem State.setReg_x (s : State) (r : Reg) (v : RegVal) : (s.setReg r v).x = s.x.set r v := rfl
@[simp] theorem State.setReg_S (s : State) (r : Reg) (v : RegVal) : (s.setReg r v).S = s.S := rfl
@[simp] theorem State.setReg_RK (s : State) (r : Reg) (v : RegVal) : (s.setReg r v).RK = s.RK := rfl
@[simp] theorem State.setReg_RKLEN (s : State) (r : Reg) (v : RegVal) : (s.setReg r v).RKLEN = s.RKLEN := rfl
@[simp] theorem State.setReg_IV (s : State) (r : Reg) (v : RegVal) : (s.setReg r v).IV = s.IV := rfl
@[simp] theorem State.setReg_CUR (s : State) (r : Reg) (v : RegVal) : (s.setReg r v).CUR = s.CUR := rfl
@[simp] theorem State.setReg_SRC (s : State) (r : Reg) (v : RegVal) : (s.setReg r v).SRC = s.SRC := rfl
@[simp] theorem State.setReg_DST (s : State) (r : Reg) (v : RegVal) : (s.setReg r v).DST = s.DST := rfl
@[simp] theorem State.setReg_LEN (s : State) (r : Reg) (v : RegVal) : (s.setReg r v).LEN = s.LEN := rfl
@[simp] theorem State.setReg_OUTLEN (s : State) (r : Reg) (v : RegVal) : (s.setReg r v).OUTLEN = s.OUTLEN := rfl
@[simp] theorem State.setReg_ERR (s : State) (r : Reg) (v : RegVal) : (s.setReg r v).ERR = s.ERR := rfl
@[simp] theorem State.setReg_FAULT (s : State) (r : Reg) (v : RegVal) : (s.setReg r v).FAULT = s.FAULT := rfl
@[simp] theorem State.setReg_FCAUSE (s : State) (r : Reg) (v : RegVal) : (s.setReg r v).FCAUSE = s.FCAUSE := rfl
@[simp] theorem State.setReg_FINFO (s : State) (r : Reg) (v : RegVal) : (s.setReg r v).FINFO = s.FINFO := rfl
@[simp] theorem State.setReg_MEM (s : State) (r : Reg) (v : RegVal) : (s.setReg r v).MEM = s.MEM := rfl
@[simp] theorem State.setReg_memSize (s : State) (r : Reg) (v : RegVal) : (s.setReg r v).memSize = s.memSize := rfl
@[simp] theorem State.setReg_inbox (s : State) (r : Reg) (v : RegVal) : (s.setReg r v).inbox = s.inbox := rfl
@[simp] theorem State.setReg_rsp (s : State) (r : Reg) (v : RegVal) : (s.setReg r v).rsp = s.rsp := rfl

/-! ### `State.respond` -/

@[simp] theorem State.respond_x (s : State) (r : Response) : (s.respond r).x = s.x := rfl
@[simp] theorem State.respond_S (s : State) (r : Response) : (s.respond r).S = s.S := rfl
@[simp] theorem State.respond_RK (s : State) (r : Response) : (s.respond r).RK = s.RK := rfl
@[simp] theorem State.respond_RKLEN (s : State) (r : Response) : (s.respond r).RKLEN = s.RKLEN := rfl
@[simp] theorem State.respond_IV (s : State) (r : Response) : (s.respond r).IV = s.IV := rfl
@[simp] theorem State.respond_CUR (s : State) (r : Response) : (s.respond r).CUR = s.CUR := rfl
@[simp] theorem State.respond_SRC (s : State) (r : Response) : (s.respond r).SRC = s.SRC := rfl
@[simp] theorem State.respond_DST (s : State) (r : Response) : (s.respond r).DST = s.DST := rfl
@[simp] theorem State.respond_LEN (s : State) (r : Response) : (s.respond r).LEN = s.LEN := rfl
@[simp] theorem State.respond_OUTLEN (s : State) (r : Response) : (s.respond r).OUTLEN = s.OUTLEN := rfl
@[simp] theorem State.respond_ERR (s : State) (r : Response) : (s.respond r).ERR = s.ERR := rfl
@[simp] theorem State.respond_FAULT (s : State) (r : Response) : (s.respond r).FAULT = s.FAULT := rfl
@[simp] theorem State.respond_FCAUSE (s : State) (r : Response) : (s.respond r).FCAUSE = s.FCAUSE := rfl
@[simp] theorem State.respond_FINFO (s : State) (r : Response) : (s.respond r).FINFO = s.FINFO := rfl
@[simp] theorem State.respond_MEM (s : State) (r : Response) : (s.respond r).MEM = s.MEM := rfl
@[simp] theorem State.respond_memSize (s : State) (r : Response) : (s.respond r).memSize = s.memSize := rfl
@[simp] theorem State.respond_inbox (s : State) (r : Response) : (s.respond r).inbox = s.inbox := rfl
@[simp] theorem State.respond_rsp (s : State) (r : Response) : (s.respond r).rsp = some r := rfl

/-! ### `State.latchFault` -/

@[simp] theorem State.latchFault_x (s : State) (c : Cause) (w : RegVal) : (s.latchFault c w).x = s.x := rfl
@[simp] theorem State.latchFault_S (s : State) (c : Cause) (w : RegVal) : (s.latchFault c w).S = s.S := rfl
@[simp] theorem State.latchFault_RK (s : State) (c : Cause) (w : RegVal) : (s.latchFault c w).RK = s.RK := rfl
@[simp] theorem State.latchFault_RKLEN (s : State) (c : Cause) (w : RegVal) : (s.latchFault c w).RKLEN = s.RKLEN := rfl
@[simp] theorem State.latchFault_IV (s : State) (c : Cause) (w : RegVal) : (s.latchFault c w).IV = s.IV := rfl
@[simp] theorem State.latchFault_CUR (s : State) (c : Cause) (w : RegVal) : (s.latchFault c w).CUR = s.CUR := rfl
@[simp] theorem State.latchFault_SRC (s : State) (c : Cause) (w : RegVal) : (s.latchFault c w).SRC = s.SRC := rfl
@[simp] theorem State.latchFault_DST (s : State) (c : Cause) (w : RegVal) : (s.latchFault c w).DST = s.DST := rfl
@[simp] theorem State.latchFault_LEN (s : State) (c : Cause) (w : RegVal) : (s.latchFault c w).LEN = s.LEN := rfl
@[simp] theorem State.latchFault_OUTLEN (s : State) (c : Cause) (w : RegVal) : (s.latchFault c w).OUTLEN = s.OUTLEN := rfl
@[simp] theorem State.latchFault_ERR (s : State) (c : Cause) (w : RegVal) : (s.latchFault c w).ERR = s.ERR := rfl
@[simp] theorem State.latchFault_FAULT (s : State) (c : Cause) (w : RegVal) : (s.latchFault c w).FAULT = true := rfl
@[simp] theorem State.latchFault_FCAUSE (s : State) (c : Cause) (w : RegVal) : (s.latchFault c w).FCAUSE = c.code := rfl
@[simp] theorem State.latchFault_FINFO (s : State) (c : Cause) (w : RegVal) : (s.latchFault c w).FINFO = w := rfl
@[simp] theorem State.latchFault_MEM (s : State) (c : Cause) (w : RegVal) : (s.latchFault c w).MEM = s.MEM := rfl
@[simp] theorem State.latchFault_memSize (s : State) (c : Cause) (w : RegVal) : (s.latchFault c w).memSize = s.memSize := rfl
@[simp] theorem State.latchFault_inbox (s : State) (c : Cause) (w : RegVal) : (s.latchFault c w).inbox = s.inbox := rfl
@[simp] theorem State.latchFault_rsp (s : State) (c : Cause) (w : RegVal) : (s.latchFault c w).rsp = some ⟨.fault, c.code, 0⟩ := rfl

/-! ### `State.refuse` -/

@[simp] theorem State.refuse_x (s : State) : (s.refuse).x = s.x := rfl
@[simp] theorem State.refuse_S (s : State) : (s.refuse).S = s.S := rfl
@[simp] theorem State.refuse_RK (s : State) : (s.refuse).RK = s.RK := rfl
@[simp] theorem State.refuse_RKLEN (s : State) : (s.refuse).RKLEN = s.RKLEN := rfl
@[simp] theorem State.refuse_IV (s : State) : (s.refuse).IV = s.IV := rfl
@[simp] theorem State.refuse_CUR (s : State) : (s.refuse).CUR = s.CUR := rfl
@[simp] theorem State.refuse_SRC (s : State) : (s.refuse).SRC = s.SRC := rfl
@[simp] theorem State.refuse_DST (s : State) : (s.refuse).DST = s.DST := rfl
@[simp] theorem State.refuse_LEN (s : State) : (s.refuse).LEN = s.LEN := rfl
@[simp] theorem State.refuse_OUTLEN (s : State) : (s.refuse).OUTLEN = s.OUTLEN := rfl
@[simp] theorem State.refuse_ERR (s : State) : (s.refuse).ERR = s.ERR := rfl
@[simp] theorem State.refuse_FAULT (s : State) : (s.refuse).FAULT = s.FAULT := rfl
@[simp] theorem State.refuse_FCAUSE (s : State) : (s.refuse).FCAUSE = s.FCAUSE := rfl
@[simp] theorem State.refuse_FINFO (s : State) : (s.refuse).FINFO = s.FINFO := rfl
@[simp] theorem State.refuse_MEM (s : State) : (s.refuse).MEM = s.MEM := rfl
@[simp] theorem State.refuse_memSize (s : State) : (s.refuse).memSize = s.memSize := rfl
@[simp] theorem State.refuse_inbox (s : State) : (s.refuse).inbox = s.inbox := rfl
@[simp] theorem State.refuse_rsp (s : State) : (s.refuse).rsp = some ⟨.fault, s.FCAUSE, 0⟩ := rfl

/-! ### `State.reportError` -/

@[simp] theorem State.reportError_x (s : State) (e : DataError) : (s.reportError e).x = s.x := rfl
@[simp] theorem State.reportError_S (s : State) (e : DataError) : (s.reportError e).S = s.S := rfl
@[simp] theorem State.reportError_RK (s : State) (e : DataError) : (s.reportError e).RK = s.RK := rfl
@[simp] theorem State.reportError_RKLEN (s : State) (e : DataError) : (s.reportError e).RKLEN = s.RKLEN := rfl
@[simp] theorem State.reportError_IV (s : State) (e : DataError) : (s.reportError e).IV = s.IV := rfl
@[simp] theorem State.reportError_CUR (s : State) (e : DataError) : (s.reportError e).CUR = s.CUR := rfl
@[simp] theorem State.reportError_SRC (s : State) (e : DataError) : (s.reportError e).SRC = s.SRC := rfl
@[simp] theorem State.reportError_DST (s : State) (e : DataError) : (s.reportError e).DST = s.DST := rfl
@[simp] theorem State.reportError_LEN (s : State) (e : DataError) : (s.reportError e).LEN = s.LEN := rfl
@[simp] theorem State.reportError_OUTLEN (s : State) (e : DataError) : (s.reportError e).OUTLEN = 0 := rfl
@[simp] theorem State.reportError_ERR (s : State) (e : DataError) : (s.reportError e).ERR = e.bits := rfl
@[simp] theorem State.reportError_FAULT (s : State) (e : DataError) : (s.reportError e).FAULT = s.FAULT := rfl
@[simp] theorem State.reportError_FCAUSE (s : State) (e : DataError) : (s.reportError e).FCAUSE = s.FCAUSE := rfl
@[simp] theorem State.reportError_FINFO (s : State) (e : DataError) : (s.reportError e).FINFO = s.FINFO := rfl
@[simp] theorem State.reportError_MEM (s : State) (e : DataError) : (s.reportError e).MEM = s.MEM := rfl
@[simp] theorem State.reportError_memSize (s : State) (e : DataError) : (s.reportError e).memSize = s.memSize := rfl
@[simp] theorem State.reportError_inbox (s : State) (e : DataError) : (s.reportError e).inbox = s.inbox := rfl
@[simp] theorem State.reportError_rsp (s : State) (e : DataError) : (s.reportError e).rsp = some ⟨.err, e.code, 0⟩ := rfl

/-! ### `State.resetUnit` -/

@[simp] theorem State.resetUnit_x (s : State) : (s.resetUnit).x = Vector.replicate Config.numRegs 0 := rfl
@[simp] theorem State.resetUnit_S (s : State) : (s.resetUnit).S = Grid.zero := rfl
@[simp] theorem State.resetUnit_RK (s : State) : (s.resetUnit).RK = Vector.replicate Config.rkWords FieldWord.zero := rfl
@[simp] theorem State.resetUnit_RKLEN (s : State) : (s.resetUnit).RKLEN = 0 := rfl
@[simp] theorem State.resetUnit_IV (s : State) : (s.resetUnit).IV = Grid.zero := rfl
@[simp] theorem State.resetUnit_CUR (s : State) : (s.resetUnit).CUR = Grid.zero := rfl
@[simp] theorem State.resetUnit_SRC (s : State) : (s.resetUnit).SRC = 0 := rfl
@[simp] theorem State.resetUnit_DST (s : State) : (s.resetUnit).DST = 0 := rfl
@[simp] theorem State.resetUnit_LEN (s : State) : (s.resetUnit).LEN = 0 := rfl
@[simp] theorem State.resetUnit_OUTLEN (s : State) : (s.resetUnit).OUTLEN = 0 := rfl
@[simp] theorem State.resetUnit_ERR (s : State) : (s.resetUnit).ERR = 0 := rfl
@[simp] theorem State.resetUnit_FAULT (s : State) : (s.resetUnit).FAULT = false := rfl
@[simp] theorem State.resetUnit_FCAUSE (s : State) : (s.resetUnit).FCAUSE = 0 := rfl
@[simp] theorem State.resetUnit_FINFO (s : State) : (s.resetUnit).FINFO = 0 := rfl
@[simp] theorem State.resetUnit_MEM (s : State) : (s.resetUnit).MEM = s.MEM := rfl
@[simp] theorem State.resetUnit_memSize (s : State) : (s.resetUnit).memSize = s.memSize := rfl
@[simp] theorem State.resetUnit_inbox (s : State) : (s.resetUnit).inbox = s.inbox := rfl
@[simp] theorem State.resetUnit_rsp (s : State) : (s.resetUnit).rsp = none := rfl

/-! ### Registers and control registers -/

@[simp] theorem State.reg_setReg_self (s : State) (r : Reg) (v : RegVal) : (s.setReg r v).reg r = v := by
  simp [State.reg, State.setReg]

theorem State.reg_setReg_ne (s : State) (r d : Reg) (v : RegVal) (h : r ≠ d) : (s.setReg d v).reg r = s.reg r := by
  have : d.val ≠ r.val := fun e => h (Fin.ext e.symm)
  simp [State.reg, State.setReg, Vector.getElem_set_ne _ _ this]

/-- What a write to a control register can change: SRC, DST, LEN, S, IV and nothing else. -/
theorem State.writeCsr_frame (s : State) (r : Csr) (v : RegVal) :
    (s.writeCsr r v) = { s with
      SRC := (s.writeCsr r v).SRC, DST := (s.writeCsr r v).DST, LEN := (s.writeCsr r v).LEN,
      S := (s.writeCsr r v).S, IV := (s.writeCsr r v).IV } := by
  cases r <;> rfl

end Sys2Proof.Machine
end

