-- ==== Sys2Proof/Laws/Memory.lean ====
section
/-! SUPPORT. The laws of the data memory: a read after a write, what a write leaves alone, and that every operation
keeps the canonical form and the memory's bounds. -/

namespace Sys2Proof.Machine

/-! ### One byte -/

theorem Memory.lookup_writeByte (m : Memory) (k : Nat) (v : Byte) (a : Nat) :
    Memory.lookup (Memory.writeByte m k v) a = if a = k then some v else Memory.lookup m a := by
  induction m with
  | nil => simp [Memory.writeByte, Memory.lookup]
  | cons p m ih =>
    obtain ⟨b, w⟩ := p
    unfold Memory.writeByte
    split
    · simp [Memory.lookup]
    · split
      · subst b; by_cases h : a = k <;> simp [Memory.lookup, h]
      · simp only [Memory.lookup, ih]
        by_cases h : a = b
        · subst h; simp_all [eq_comm]
        · simp [h]

@[simp] theorem Memory.readByte_writeByte_self (m : Memory) (k : Nat) (v : Byte) :
    Memory.readByte (Memory.writeByte m k v) k = v := by
  simp [Memory.readByte, Memory.lookup_writeByte]

theorem Memory.readByte_writeByte_ne (m : Memory) (k : Nat) (v : Byte) (a : Nat) (h : a ≠ k) :
    Memory.readByte (Memory.writeByte m k v) a = Memory.readByte m a := by
  simp [Memory.readByte, Memory.lookup_writeByte, h]

/-- The entries of a memory after a byte is written: the new one, or one that was there. -/
theorem Memory.mem_writeByte (m : Memory) (k : Nat) (v : Byte) (p : Host.Cell)
    (h : p ∈ Memory.writeByte m k v) : p = (k, v) ∨ p ∈ m := by
  induction m with
  | nil => simpa [Memory.writeByte] using h
  | cons q m ih =>
    obtain ⟨b, w⟩ := q
    unfold Memory.writeByte at h
    split at h
    · simpa using h
    · split at h
      · rcases List.mem_cons.1 h with h | h
        · exact .inl h
        · exact .inr (List.mem_cons_of_mem _ h)
      · rcases List.mem_cons.1 h with h | h
        · exact .inr (h ▸ List.mem_cons_self)
        · exact (ih h).imp id (List.mem_cons_of_mem _)

theorem Memory.writeByte_wf (m : Memory) (k : Nat) (v : Byte) (h : Memory.wf m) :
    Memory.wf (Memory.writeByte m k v) := by
  induction m with
  | nil => simp [Memory.writeByte]
  | cons q m ih =>
    obtain ⟨b, w⟩ := q
    obtain ⟨hb, hm⟩ := List.pairwise_cons.1 h
    unfold Memory.writeByte
    split
    · rename_i hk
      refine List.pairwise_cons.2 ⟨fun p hp => ?_, h⟩
      rcases List.mem_cons.1 hp with rfl | hp
      · exact hk
      · exact Nat.lt_trans hk (hb p hp)
    · split
      · rename_i e
        exact List.pairwise_cons.2 ⟨fun p hp => e ▸ hb p hp, hm⟩
      · refine List.pairwise_cons.2 ⟨fun p hp => ?_, ih hm⟩
        rcases Memory.mem_writeByte m k v p hp with rfl | hp
        · simp only; omega
        · exact hb p hp

/-! ### Byte sequences -/

@[simp] theorem Memory.readBytes_length (m : Memory) (a n : Nat) : (Memory.readBytes m a n).length = n := by
  induction n generalizing a with
  | zero => rfl
  | succ n ih => simp [Memory.readBytes, ih]

theorem Memory.readBytes_getElem? (m : Memory) (a n k : Nat) (h : k < n) :
    (Memory.readBytes m a n)[k]? = some (Memory.readByte m (a + k)) := by
  induction n generalizing a k with
  | zero => omega
  | succ n ih =>
    cases k with
    | zero => simp [Memory.readBytes]
    | succ k =>
      have := ih (a + 1) k (by omega)
      simp only [Memory.readBytes, List.getElem?_cons_succ, this]
      congr 2; omega

@[simp] theorem Memory.readBytes_getElem (m : Memory) (a n k : Nat) (h : k < (Memory.readBytes m a n).length) :
    (Memory.readBytes m a n)[k] = Memory.readByte m (a + k) := by
  have h' : k < n := by simpa using h
  have := Memory.readBytes_getElem? m a n k h'
  rw [List.getElem?_eq_getElem h] at this
  exact Option.some.inj this

/-- A byte sequence is what memory holds in a range when it holds its bytes, one by one. -/
theorem Memory.readBytes_eq_iff (m : Memory) (a n : Nat) (v : List Byte) (h : v.length = n) :
    Memory.readBytes m a n = v ↔ ∀ k (hk : k < v.length), Memory.readByte m (a + k) = v[k] := by
  subst h
  constructor
  · intro e k hk
    have hk' : k < (Memory.readBytes m a v.length).length := by simpa using hk
    rw [← Memory.readBytes_getElem m a v.length k hk']
    simp only [e]
  · intro e
    apply List.ext_getElem (by simp)
    intro k h1 h2
    rw [Memory.readBytes_getElem, e k h2]

/-- Memories that agree on a range give the same bytes there. -/
theorem Memory.readBytes_congr (m m' : Memory) (a n : Nat)
    (h : ∀ k < n, Memory.readByte m (a + k) = Memory.readByte m' (a + k)) :
    Memory.readBytes m a n = Memory.readBytes m' a n := by
  rw [Memory.readBytes_eq_iff _ _ _ _ (by simp)]
  intro k hk
  rw [Memory.readBytes_getElem]
  exact h k (by simpa using hk)

theorem Memory.readBytes_append (m : Memory) (a j n : Nat) :
    Memory.readBytes m a (j + n) = Memory.readBytes m a j ++ Memory.readBytes m (a + j) n := by
  induction j generalizing a with
  | zero => simp [Memory.readBytes]
  | succ j ih =>
    rw [show j + 1 + n = (j + n) + 1 by omega]
    simp only [Memory.readBytes, ih, List.cons_append]
    rw [show a + 1 + j = a + (j + 1) by omega]

/-- What a write of a byte sequence leaves at an address: its byte inside the range, the old byte outside. -/
theorem Memory.readByte_writeBytes (m : Memory) (a : Nat) (v : List Byte) (k : Nat) :
    Memory.readByte (Memory.writeBytes m a v) k =
      if a ≤ k ∧ k < a + v.length then v.getD (k - a) 0 else Memory.readByte m k := by
  induction v generalizing m a with
  | nil => simp [Memory.writeBytes]
  | cons b v ih =>
    simp only [Memory.writeBytes, ih, List.length_cons]
    by_cases h : k = a
    · subst h
      rw [if_neg (by omega), if_pos (by omega)]
      simp
    · rw [Memory.readByte_writeByte_ne _ _ _ _ h]
      by_cases h2 : a + 1 ≤ k ∧ k < a + 1 + v.length
      · rw [if_pos h2, if_pos (by omega), show k - a = (k - (a + 1)) + 1 by omega]
        simp
      · rw [if_neg h2, if_neg (by omega)]

theorem Memory.readByte_writeBytes_inside (m : Memory) (a : Nat) (v : List Byte) (k : Nat) (h : k < v.length) :
    Memory.readByte (Memory.writeBytes m a v) (a + k) = v[k] := by
  rw [Memory.readByte_writeBytes, if_pos (by omega)]
  simp [h]

theorem Memory.readByte_writeBytes_outside (m : Memory) (a : Nat) (v : List Byte) (k : Nat)
    (h : k < a ∨ a + v.length ≤ k) : Memory.readByte (Memory.writeBytes m a v) k = Memory.readByte m k := by
  rw [Memory.readByte_writeBytes, if_neg (by omega)]

theorem Memory.readBytes_writeBytes_disjoint (m : Memory) (a b n : Nat) (v : List Byte)
    (h : n = 0 ∨ a + v.length ≤ b ∨ b + n ≤ a) :
    Memory.readBytes (Memory.writeBytes m a v) b n = Memory.readBytes m b n :=
  Memory.readBytes_congr _ _ _ _ fun k hk => Memory.readByte_writeBytes_outside _ _ _ _ (by omega)

theorem Memory.writeBytes_wf (m : Memory) (a : Nat) (v : List Byte) (h : Memory.wf m) :
    Memory.wf (Memory.writeBytes m a v) := by
  induction v generalizing m a with
  | nil => exact h
  | cons b v ih => exact ih _ _ (Memory.writeByte_wf _ _ _ h)

theorem Memory.writeBytes_inside (m : Memory) (a : Nat) (v : List Byte) (n : Nat) (h : ∀ c ∈ m, c.1 < n)
    (hv : v = [] ∨ a + v.length ≤ n) : ∀ c ∈ Memory.writeBytes m a v, c.1 < n := by
  induction v generalizing m a with
  | nil => exact h
  | cons b v ih =>
    have hl : a + (v.length + 1) ≤ n := by simpa using hv
    refine ih (Memory.writeByte m a b) (a + 1) (fun c hc => ?_) (.inr (by omega))
    rcases Memory.mem_writeByte m a b c hc with rfl | hc
    · simp only; omega
    · exact h c hc

/-- Two memories in canonical form that list the same byte at every address are the same data. -/
theorem Memory.ext_of_wf (m m' : Memory) (h : Memory.wf m) (h' : Memory.wf m')
    (e : ∀ a, Memory.lookup m a = Memory.lookup m' a) : m = m' := by
  induction m generalizing m' with
  | nil =>
    cases m' with
    | nil => rfl
    | cons q m' => have := e q.1; simp [Memory.lookup] at this
  | cons p m ih =>
    cases m' with
    | nil => have := e p.1; simp [Memory.lookup] at this
    | cons q m' =>
      obtain ⟨hp, hm⟩ := List.pairwise_cons.1 h
      obtain ⟨hq, hm'⟩ := List.pairwise_cons.1 h'
      have above : ∀ (l : Memory) (k : Nat), (∀ c ∈ l, k < c.1) → ∀ a ≤ k, Memory.lookup l a = none := by
        intro l k hl a ha
        induction l with
        | nil => rfl
        | cons c l ihl =>
          have h1 : k < c.1 := hl c List.mem_cons_self
          simp only [Memory.lookup]
          rw [if_neg (by omega)]
          exact ihl fun c' hc' => hl c' (List.mem_cons_of_mem _ hc')
      have hkey : p.1 = q.1 := by
        rcases Nat.lt_trichotomy p.1 q.1 with hlt | heq | hgt
        · have := e p.1
          simp only [Memory.lookup, if_neg (Nat.ne_of_lt hlt)] at this
          rw [above m' q.1 hq p.1 (Nat.le_of_lt hlt)] at this
          simp at this
        · exact heq
        · have := e q.1
          simp only [Memory.lookup, if_neg (Nat.ne_of_lt hgt)] at this
          rw [above m p.1 hp q.1 (Nat.le_of_lt hgt)] at this
          simp at this
      have hval : p.2 = q.2 := by
        have := e p.1
        simpa [Memory.lookup, hkey] using this
      have htail : m = m' := by
        refine ih m' hm hm' fun a => ?_
        by_cases ha : a = p.1
        · rw [above m p.1 hp a (Nat.le_of_eq ha), above m' q.1 hq a (by omega)]
        · have := e a
          simpa [Memory.lookup, ha, hkey ▸ ha] using this
      rw [htail, show p = q from Prod.ext hkey hval]

theorem State.reset_mem_wf : Memory.wf State.reset.MEM := List.Pairwise.nil

end Sys2Proof.Machine
end

