-- ==== Sys2Proof/Laws/Ops.lean ====
section
/-! SUPPORT. One lemma for each shared operation that says everything it can do, and the induction principles of the
bounded loops. -/

namespace Sys2Proof.Machine

/-! ### Loops -/

@[simp] theorem forLoop_zero {α : Type} (body : Nat → α → α) (st : α) : forLoop body 0 st = st := rfl

theorem forLoop_succ {α : Type} (body : Nat → α → α) (n : Nat) (st : α) :
    forLoop body (n + 1) st = body n (forLoop body n st) := rfl

@[simp] theorem downLoop_zero {α : Type} (body : Nat → α → α) (st : α) : downLoop body 0 st = st := rfl

theorem downLoop_succ {α : Type} (body : Nat → α → α) (n : Nat) (st : α) :
    downLoop body (n + 1) st = downLoop body n (body n st) := rfl

/-- A property that holds before a loop and that iteration k carries from k to k+1 holds after its n iterations. -/
theorem forLoop_induct {α : Type} (body : Nat → α → α) (n : Nat) (st : α) (P : Nat → α → Prop) (h0 : P 0 st)
    (hs : ∀ k < n, ∀ a, P k a → P (k + 1) (body k a)) : P n (forLoop body n st) := by
  induction n with
  | zero => exact h0
  | succ n ih => exact hs n (by omega) _ (ih fun k hk => hs k (by omega))

/-- A descending loop that undoes each iteration of an ascending one undoes the whole loop. -/
theorem downLoop_forLoop {α : Type} (f g : Nat → α → α) (h : ∀ k a, g k (f k a) = a) (n : Nat) (st : α) :
    downLoop g n (forLoop f n st) = st := by
  induction n with
  | zero => rfl
  | succ n ih => rw [forLoop_succ, downLoop_succ, h, ih]

theorem forLoop_downLoop {α : Type} (f g : Nat → α → α) (h : ∀ k a, f k (g k a) = a) (n : Nat) (st : α) :
    forLoop f n (downLoop g n st) = st := by
  induction n generalizing st with
  | zero => rfl
  | succ n ih => rw [forLoop_succ, downLoop_succ, ih, h]

/-- Loops whose bodies agree on every iteration agree. -/
theorem forLoop_congr {α : Type} (f g : Nat → α → α) (n : Nat) (st : α) (h : ∀ k < n, ∀ a, f k a = g k a) :
    forLoop f n st = forLoop g n st := by
  induction n with
  | zero => rfl
  | succ n ih => rw [forLoop_succ, forLoop_succ, ih fun k hk => h k (by omega), h n (by omega)]

theorem downLoop_congr {α : Type} (f g : Nat → α → α) (n : Nat) (st : α) (h : ∀ k < n, ∀ a, f k a = g k a) :
    downLoop f n st = downLoop g n st := by
  induction n generalizing st with
  | zero => rfl
  | succ n ih => rw [downLoop_succ, downLoop_succ, h n (by omega), ih _ fun k hk => h k (by omega)]

/-! ### How a command ends -/

theorem whenRunning_running (s : State) (r : Result) (h : s.FAULT = false) : whenRunning s r = r := by
  simp [whenRunning, h]

theorem whenRunning_faulted (s : State) (r : Result) (h : s.FAULT = true) : whenRunning s r = .next s.refuse := by
  simp [whenRunning, h]

/-- A command that answers a next state was refused, or the unit was running and its own effect answers it. -/
theorem whenRunning_next (s t : State) (r : Result) (h : whenRunning s r = .next t) :
    (s.FAULT = true ∧ t = s.refuse) ∨ (s.FAULT = false ∧ r = .next t) := by
  cases hf : s.FAULT with
  | true => rw [whenRunning_faulted _ _ hf] at h; injection h with h; exact .inl ⟨rfl, h.symm⟩
  | false => rw [whenRunning_running _ _ hf] at h; exact .inr ⟨rfl, h⟩

theorem doneWith_eq (res : RegVal) (s : State) : doneWith res s = .next (s.respond ⟨.ok, 0, res⟩) := rfl

theorem done_eq (s : State) : done s = .next (s.respond ⟨.ok, 0, 0⟩) := rfl

theorem raise_eq (c : Cause) (w : RegVal) (s : State) : raise c w s = .next (s.latchFault c w) := rfl

theorem reportError_eq (e : DataError) (s : State) : reportError e s = .next (s.reportError e) := rfl

theorem Cause.code_bounds (c : Cause) : 1 ≤ c.code.toNat ∧ c.code.toNat ≤ 8 := by
  cases c <;> decide

theorem DataError.bits_ne (e : DataError) : e.bits ≠ 3 := by cases e <;> decide

theorem DataError.code_cases (e : DataError) : e.code = 1 ∨ e.code = 2 := by cases e <;> decide

/-- CSRW and CSRWI: the register is written, or IllegalCsr is raised. -/
theorem writeCsrOrRaise_cases (csr : Nat) (v w : RegVal) (s : State) :
    (∃ r, Csr.ofNumber csr = some r ∧ r.writable = true ∧ writeCsrOrRaise csr v w s = done (s.writeCsr r v)) ∨
    writeCsrOrRaise csr v w s = raise .illegalCsr w s := by
  unfold writeCsrOrRaise
  cases h : Csr.ofNumber csr with
  | none => exact .inr rfl
  | some r =>
    cases hw : r.writable with
    | true => exact .inl ⟨r, rfl, hw, by simp [hw]⟩
    | false => exact .inr (by simp [hw])

/-- The end of CBCDEC and UNPAD: the Pad error, or the unpadded length in OUTLEN and ERR cleared. -/
theorem finishUnpad_cases (addr n : Nat) (s : State) :
    finishUnpad addr n s = .next (s.reportError .pad) ∨
    ∃ l ≤ n, unpadLength n (Memory.readByte s.MEM (addr + n - 1)) = some l ∧
      finishUnpad addr n s = done { s with OUTLEN := BitVec.ofNat 32 l, ERR := 0 } := by
  unfold finishUnpad
  cases h : unpadLength n (Memory.readByte s.MEM (addr + n - 1)) with
  | none => exact .inl rfl
  | some l =>
    refine .inr ⟨l, ?_, rfl, rfl⟩
    simp only [unpadLength] at h
    split at h
    · simp at h
    · split at h
      · simp at h
      · injection h with h; omega

/-- The host's store lands whole, or the model stops because a byte of it does not exist. -/
theorem hostStore_cases (addr : Nat) (bytes : List Byte) (s : State) :
    (inRange s.memSize addr bytes.length ∧
      hostStore addr bytes s = .next { s with MEM := Memory.writeBytes s.MEM addr bytes }) ∨
    (¬ inRange s.memSize addr bytes.length ∧ hostStore addr bytes s = .fault .hostStoreOutsideMemory) := by
  unfold hostStore
  by_cases h : inRange s.memSize addr bytes.length
  · exact .inl ⟨h, if_pos h⟩
  · exact .inr ⟨h, if_neg h⟩

theorem rkValid_iff (l : Nat) : rkValid l = true ↔ l % 4 = 0 ∧ 4 < l := by
  simp [rkValid]

/-! ### Register and grid views -/

@[simp] theorem toBlock_length (t : Grid) : (toBlock t).length = 16 := rfl

@[simp] theorem fromBlock_toBlock (t : Grid) : fromBlock (toBlock t) = t := rfl

theorem FieldWord.ext_coef (a b : FieldWord) (h : ∀ k, a.coef k = b.coef k) : a = b := by
  cases a; cases b
  have h0 := h 0; have h1 := h 1; have h2 := h 2; have h3 := h 3
  simp only [FieldWord.coef] at h0 h1 h2 h3
  subst h0 h1 h2 h3; rfl

@[simp] theorem FieldWord.coef_ofCoef (f : Fin 4 → Byte) (k : Fin 4) : (FieldWord.ofCoef f).coef k = f k := by
  match k with
  | 0 | 1 | 2 | 3 => rfl

@[simp] theorem Grid.at_ofBytes (f : Fin 4 → Fin 4 → Byte) (r c : Fin 4) : (Grid.ofBytes f).at r c = f r c := by
  match c with
  | 0 | 1 | 2 | 3 => simp [Grid.at, Grid.ofBytes, Grid.col]

theorem Grid.ext_at (a b : Grid) (h : ∀ r c, a.at r c = b.at r c) : a = b := by
  cases a; cases b
  simp only [Grid.mk.injEq]
  exact ⟨FieldWord.ext_coef _ _ fun r => h r 0, FieldWord.ext_coef _ _ fun r => h r 1,
    FieldWord.ext_coef _ _ fun r => h r 2, FieldWord.ext_coef _ _ fun r => h r 3⟩

theorem rkWord_rkInstall (rk : Vector FieldWord Config.rkWords) (ws : List FieldWord) (i : Nat) (hi : i < 60) :
    rkWord (rkInstall rk ws) i = (ws[i]?).getD (rkWord rk i) := by
  simp [rkWord, rkInstall, hi]

theorem rkWord_rkInstall_above (rk : Vector FieldWord Config.rkWords) (ws : List FieldWord) (i : Nat)
    (hi : ws.length ≤ i) : rkWord (rkInstall rk ws) i = rkWord rk i := by
  by_cases h : i < 60
  · rw [rkWord_rkInstall _ _ _ h, List.getElem?_eq_none hi]; rfl
  · simp [rkWord, h]

end Sys2Proof.Machine
end

