-- ==== Sys2Proof/Laws/Field.lean ====
section
/-! SUPPORT. The arithmetic of the field-byte unit distributes over addition, so an identity in it need be checked on the
eight single-bit bytes only; and the packed form of a word, coefficient by coefficient. -/

namespace Sys2Proof.Machine

theorem xor_left_swap {w : Nat} (a b c : BitVec w) : a ^^^ (b ^^^ c) = b ^^^ (a ^^^ c) := by
  rw [← BitVec.xor_assoc, ← BitVec.xor_assoc, BitVec.xor_comm a b]

theorem gfXtime_xor (a b : Byte) : gfXtime (a ^^^ b) = gfXtime a ^^^ gfXtime b := by
  have h : ∀ c d : Byte, (c ^^^ d) <<< 1 = c <<< 1 ^^^ d <<< 1 := fun c d => BitVec.shiftLeft_xor_distrib ..
  simp only [gfXtime, BitVec.getLsbD_xor, h]
  cases a.getLsbD 7 <;> cases b.getLsbD 7 <;> simp [BitVec.xor_assoc, BitVec.xor_comm, xor_left_swap]

theorem gfMul_xor_right (a b c : Byte) : gfMul a (b ^^^ c) = gfMul a b ^^^ gfMul a c := by
  have h : ∀ n, (forLoop (gfMulStep (b ^^^ c)) n (0, a)).1 =
        (forLoop (gfMulStep b) n (0, a)).1 ^^^ (forLoop (gfMulStep c) n (0, a)).1 ∧
      (forLoop (gfMulStep (b ^^^ c)) n (0, a)).2 = (forLoop (gfMulStep b) n (0, a)).2 ∧
      (forLoop (gfMulStep b) n (0, a)).2 = (forLoop (gfMulStep c) n (0, a)).2 := by
    intro n
    induction n with
    | zero => simp
    | succ n ih =>
      obtain ⟨h1, h2, h3⟩ := ih
      simp only [forLoop_succ, gfMulStep, h1, h2, h3, BitVec.getLsbD_xor, and_true]
      cases b.getLsbD n <;> cases c.getLsbD n <;> simp [BitVec.xor_comm, xor_left_swap]
  exact (h 8).1

theorem gfMul_xor_left (a b c : Byte) : gfMul (a ^^^ b) c = gfMul a c ^^^ gfMul b c := by
  have h : ∀ n, (forLoop (gfMulStep c) n (0, a ^^^ b)).1 =
        (forLoop (gfMulStep c) n (0, a)).1 ^^^ (forLoop (gfMulStep c) n (0, b)).1 ∧
      (forLoop (gfMulStep c) n (0, a ^^^ b)).2 =
        (forLoop (gfMulStep c) n (0, a)).2 ^^^ (forLoop (gfMulStep c) n (0, b)).2 := by
    intro n
    induction n with
    | zero => simp
    | succ n ih =>
      obtain ⟨h1, h2⟩ := ih
      simp only [forLoop_succ, gfMulStep, h1, h2, gfXtime_xor, and_true]
      cases c.getLsbD n <;> simp [BitVec.xor_assoc, BitVec.xor_comm, xor_left_swap]
  exact (h 8).1

/-- A byte is the sum of its bits. -/
theorem byte_eq_sum_bits (a : Byte) :
    a = (List.range 8).foldl (fun v k => v ^^^ (if a.getLsbD k then 1#8 <<< k else 0)) 0 := by
  revert a; decide +kernel

/-- Two additive functions of a byte that agree on the eight single-bit bytes are equal. -/
theorem additive_ext (f g : Byte → Byte) (hf : ∀ a b, f (a ^^^ b) = f a ^^^ f b) (hg : ∀ a b, g (a ^^^ b) = g a ^^^ g b)
    (h : ∀ k : Fin 8, f (1#8 <<< k.val) = g (1#8 <<< k.val)) (a : Byte) : f a = g a := by
  have f0 : f 0 = 0 := by simpa using hf 0 0
  have g0 : g 0 = 0 := by simpa using hg 0 0
  have key : ∀ (l : List Nat) (v : Byte), (∀ k ∈ l, k < 8) → f v = g v →
      f (l.foldl (fun v k => v ^^^ (if a.getLsbD k then 1#8 <<< k else 0)) v) =
        g (l.foldl (fun v k => v ^^^ (if a.getLsbD k then 1#8 <<< k else 0)) v) := by
    intro l
    induction l with
    | nil => exact fun v _ h => h
    | cons k l ih =>
      intro v hk hv
      refine ih _ (fun k h => hk k (List.mem_cons_of_mem _ h)) ?_
      rw [hf, hg, hv]
      congr 1
      split
      · exact h ⟨k, hk k List.mem_cons_self⟩
      · exact f0.trans g0.symm
  rw [byte_eq_sum_bits a]
  exact key _ _ (by simp) (f0.trans g0.symm)

theorem coef_unpack (v : RegVal) (k : Fin 4) : (FieldWord.unpack v).coef k = v.extractLsb' (24 - 8 * k.val) 8 := by
  match k with
  | 0 | 1 | 2 | 3 => rfl

theorem unpack_pack (w : FieldWord) : FieldWord.unpack w.pack = w := by
  obtain ⟨a, b, c, d⟩ := w
  have ha := a.isLt; have hb := b.isLt; have hc := c.isLt; have hd := d.isLt
  have h : (FieldWord.pack ⟨a, b, c, d⟩).toNat =
      ((a.toNat * 256 + b.toNat) * 256 + c.toNat) * 256 + d.toNat := by
    simp only [FieldWord.pack, BitVec.toNat_append]
    rw [← Nat.shiftLeft_add_eq_or_of_lt (by omega), ← Nat.shiftLeft_add_eq_or_of_lt (by omega),
      ← Nat.shiftLeft_add_eq_or_of_lt (by omega)]
    simp only [Nat.shiftLeft_eq]
  simp only [FieldWord.unpack, FieldWord.mk.injEq]
  refine ⟨?_, ?_, ?_, ?_⟩ <;> apply BitVec.eq_of_toNat_eq <;>
    simp only [BitVec.extractLsb'_toNat, h, Nat.shiftRight_eq_div_pow] <;> omega

theorem coef_pack (w : FieldWord) (k : Fin 4) : w.pack.extractLsb' (24 - 8 * k.val) 8 = w.coef k := by
  rw [← coef_unpack, unpack_pack]

/-- Register values that hold the same word are equal. -/
theorem regVal_ext (v w : RegVal) (h : FieldWord.unpack v = FieldWord.unpack w) : v = w := by
  simp only [FieldWord.unpack, FieldWord.mk.injEq] at h
  obtain ⟨h0, h1, h2, h3⟩ := h
  replace h0 := congrArg BitVec.toNat h0; replace h1 := congrArg BitVec.toNat h1
  replace h2 := congrArg BitVec.toNat h2; replace h3 := congrArg BitVec.toNat h3
  simp only [BitVec.extractLsb'_toNat, Nat.shiftRight_eq_div_pow] at h0 h1 h2 h3
  have hv := v.isLt; have hw := w.isLt
  apply BitVec.eq_of_toNat_eq
  omega

theorem pack_unpack (v : RegVal) : (FieldWord.unpack v).pack = v := regVal_ext _ _ (unpack_pack _)

theorem padBlockAt_length (m : Memory) (a n i : Nat) (h : i < blockCount n) : (padBlockAt m a n i).length = 16 := by
  have hb : blockCount n = n / 16 + 1 := rfl
  unfold padBlockAt
  split
  · simp
  · simp; omega

end Sys2Proof.Machine
end

