-- ==== Sys2Proof/Laws/PerInstr.lean ====
section
/-! SUPPORT. A statement about every command as encoded text, proved command by command: under its format's mask the
command word of a command is its row's match value (spec/30_encoding.md R92, R94), so no operand spills out of its
field. -/

/-- The masked command word of a command is its row's match value. -/
def Sys2Proof.Laws.EncodeMatchesRow.Statement (i : Sys2Proof.Instr) : Prop :=
  Sys2Proof.encodeWord i &&& i.opcode.format.mask = i.opcode.matchBits

namespace Sys2Proof.Laws


theorem EncodeMatchesRow.nop : EncodeMatchesRow.Statement .nop :=
  assemble_and_mask _ _ _ _ _ 15 15 15 0xFFF _ rfl (by decide) (by decide) (by decide) (by decide)

theorem EncodeMatchesRow.li (rd : Reg) (arg : RegVal) : EncodeMatchesRow.Statement (.li rd arg) :=
  assemble_and_mask _ _ _ _ _ 0 15 15 0xFFF _ rfl (BitVec.and_zero) (by decide) (by decide) (by decide)

theorem EncodeMatchesRow.rd (ra : Reg) : EncodeMatchesRow.Statement (.rd ra) :=
  assemble_and_mask _ _ _ _ _ 15 0 15 0xFFF _ rfl (by decide) (BitVec.and_zero) (by decide) (by decide)

theorem EncodeMatchesRow.mv (rd : Reg) (ra : Reg) : EncodeMatchesRow.Statement (.mv rd ra) :=
  assemble_and_mask _ _ _ _ _ 0 0 15 0xFFF _ rfl (BitVec.and_zero) (BitVec.and_zero) (by decide) (by decide)

theorem EncodeMatchesRow.csrr (rd : Reg) (csr : Nat) : EncodeMatchesRow.Statement (.csrr rd csr) :=
  assemble_and_mask _ _ _ _ _ 0 15 15 0 _ rfl (BitVec.and_zero) (by decide) (by decide) (BitVec.and_zero)

theorem EncodeMatchesRow.csrw (csr : Nat) (ra : Reg) : EncodeMatchesRow.Statement (.csrw csr ra) :=
  assemble_and_mask _ _ _ _ _ 15 0 15 0 _ rfl (by decide) (BitVec.and_zero) (by decide) (BitVec.and_zero)

theorem EncodeMatchesRow.csrwi (csr : Nat) (arg : RegVal) : EncodeMatchesRow.Statement (.csrwi csr arg) :=
  assemble_and_mask _ _ _ _ _ 15 15 15 0 _ rfl (by decide) (by decide) (by decide) (BitVec.and_zero)

theorem EncodeMatchesRow.csrrd (csr : Nat) : EncodeMatchesRow.Statement (.csrrd csr) :=
  assemble_and_mask _ _ _ _ _ 15 15 15 0 _ rfl (by decide) (by decide) (by decide) (BitVec.and_zero)

theorem EncodeMatchesRow.gfadd (rd : Reg) (ra : Reg) (rb : Reg) : EncodeMatchesRow.Statement (.gfadd rd ra rb) :=
  assemble_and_mask _ _ _ _ _ 0 0 0 0xFFF _ rfl (BitVec.and_zero) (BitVec.and_zero) (BitVec.and_zero) (by decide)

theorem EncodeMatchesRow.gfmul (rd : Reg) (ra : Reg) (rb : Reg) : EncodeMatchesRow.Statement (.gfmul rd ra rb) :=
  assemble_and_mask _ _ _ _ _ 0 0 0 0xFFF _ rfl (BitVec.and_zero) (BitVec.and_zero) (BitVec.and_zero) (by decide)

theorem EncodeMatchesRow.xtime (rd : Reg) (ra : Reg) : EncodeMatchesRow.Statement (.xtime rd ra) :=
  assemble_and_mask _ _ _ _ _ 0 0 15 0xFFF _ rfl (BitVec.and_zero) (BitVec.and_zero) (by decide) (by decide)

theorem EncodeMatchesRow.sbox (rd : Reg) (ra : Reg) : EncodeMatchesRow.Statement (.sbox rd ra) :=
  assemble_and_mask _ _ _ _ _ 0 0 15 0xFFF _ rfl (BitVec.and_zero) (BitVec.and_zero) (by decide) (by decide)

theorem EncodeMatchesRow.isbox (rd : Reg) (ra : Reg) : EncodeMatchesRow.Statement (.isbox rd ra) :=
  assemble_and_mask _ _ _ _ _ 0 0 15 0xFFF _ rfl (BitVec.and_zero) (BitVec.and_zero) (by decide) (by decide)

theorem EncodeMatchesRow.wadd (rd : Reg) (ra : Reg) (rb : Reg) : EncodeMatchesRow.Statement (.wadd rd ra rb) :=
  assemble_and_mask _ _ _ _ _ 0 0 0 0xFFF _ rfl (BitVec.and_zero) (BitVec.and_zero) (BitVec.and_zero) (by decide)

theorem EncodeMatchesRow.wmul (rd : Reg) (ra : Reg) (rb : Reg) : EncodeMatchesRow.Statement (.wmul rd ra rb) :=
  assemble_and_mask _ _ _ _ _ 0 0 0 0xFFF _ rfl (BitVec.and_zero) (BitVec.and_zero) (BitVec.and_zero) (by decide)

theorem EncodeMatchesRow.subw (rd : Reg) (ra : Reg) : EncodeMatchesRow.Statement (.subw rd ra) :=
  assemble_and_mask _ _ _ _ _ 0 0 15 0xFFF _ rfl (BitVec.and_zero) (BitVec.and_zero) (by decide) (by decide)

theorem EncodeMatchesRow.rotw (rd : Reg) (ra : Reg) : EncodeMatchesRow.Statement (.rotw rd ra) :=
  assemble_and_mask _ _ _ _ _ 0 0 15 0xFFF _ rfl (BitVec.and_zero) (BitVec.and_zero) (by decide) (by decide)

theorem EncodeMatchesRow.wext (rd : Reg) (ra : Reg) (pos : Fin 4) : EncodeMatchesRow.Statement (.wext rd ra pos) :=
  assemble_and_mask _ _ _ _ _ 0 0 15 0xFFC _ rfl (BitVec.and_zero) (BitVec.and_zero) (by decide) (by decide +revert)

theorem EncodeMatchesRow.wins (rd : Reg) (ra : Reg) (pos : Fin 4) : EncodeMatchesRow.Statement (.wins rd ra pos) :=
  assemble_and_mask _ _ _ _ _ 0 0 15 0xFFC _ rfl (BitVec.and_zero) (BitVec.and_zero) (by decide) (by decide +revert)

theorem EncodeMatchesRow.lds : EncodeMatchesRow.Statement .lds :=
  assemble_and_mask _ _ _ _ _ 15 15 15 0xFFF _ rfl (by decide) (by decide) (by decide) (by decide)

theorem EncodeMatchesRow.sts : EncodeMatchesRow.Statement .sts :=
  assemble_and_mask _ _ _ _ _ 15 15 15 0xFFF _ rfl (by decide) (by decide) (by decide) (by decide)

theorem EncodeMatchesRow.subbytes : EncodeMatchesRow.Statement .subbytes :=
  assemble_and_mask _ _ _ _ _ 15 15 15 0xFFF _ rfl (by decide) (by decide) (by decide) (by decide)

theorem EncodeMatchesRow.isubbytes : EncodeMatchesRow.Statement .isubbytes :=
  assemble_and_mask _ _ _ _ _ 15 15 15 0xFFF _ rfl (by decide) (by decide) (by decide) (by decide)

theorem EncodeMatchesRow.shiftrows : EncodeMatchesRow.Statement .shiftrows :=
  assemble_and_mask _ _ _ _ _ 15 15 15 0xFFF _ rfl (by decide) (by decide) (by decide) (by decide)

theorem EncodeMatchesRow.ishiftrows : EncodeMatchesRow.Statement .ishiftrows :=
  assemble_and_mask _ _ _ _ _ 15 15 15 0xFFF _ rfl (by decide) (by decide) (by decide) (by decide)

theorem EncodeMatchesRow.mixcols : EncodeMatchesRow.Statement .mixcols :=
  assemble_and_mask _ _ _ _ _ 15 15 15 0xFFF _ rfl (by decide) (by decide) (by decide) (by decide)

theorem EncodeMatchesRow.imixcols : EncodeMatchesRow.Statement .imixcols :=
  assemble_and_mask _ _ _ _ _ 15 15 15 0xFFF _ rfl (by decide) (by decide) (by decide) (by decide)

theorem EncodeMatchesRow.addrk (round : Nat) : EncodeMatchesRow.Statement (.addrk round) :=
  assemble_and_mask _ _ _ _ _ 15 15 15 0 _ rfl (by decide) (by decide) (by decide) (BitVec.and_zero)

theorem EncodeMatchesRow.kexp (nk : Nat) : EncodeMatchesRow.Statement (.kexp nk) :=
  assemble_and_mask _ _ _ _ _ 15 15 15 0 _ rfl (by decide) (by decide) (by decide) (BitVec.and_zero)

theorem EncodeMatchesRow.ldrk (n : Nat) : EncodeMatchesRow.Statement (.ldrk n) :=
  assemble_and_mask _ _ _ _ _ 15 15 15 0 _ rfl (by decide) (by decide) (by decide) (BitVec.and_zero)

theorem EncodeMatchesRow.enc : EncodeMatchesRow.Statement .enc :=
  assemble_and_mask _ _ _ _ _ 15 15 15 0xFFF _ rfl (by decide) (by decide) (by decide) (by decide)

theorem EncodeMatchesRow.dec : EncodeMatchesRow.Statement .dec :=
  assemble_and_mask _ _ _ _ _ 15 15 15 0xFFF _ rfl (by decide) (by decide) (by decide) (by decide)

theorem EncodeMatchesRow.cbcenc : EncodeMatchesRow.Statement .cbcenc :=
  assemble_and_mask _ _ _ _ _ 15 15 15 0xFFF _ rfl (by decide) (by decide) (by decide) (by decide)

theorem EncodeMatchesRow.cbcdec : EncodeMatchesRow.Statement .cbcdec :=
  assemble_and_mask _ _ _ _ _ 15 15 15 0xFFF _ rfl (by decide) (by decide) (by decide) (by decide)

theorem EncodeMatchesRow.ctr : EncodeMatchesRow.Statement .ctr :=
  assemble_and_mask _ _ _ _ _ 15 15 15 0xFFF _ rfl (by decide) (by decide) (by decide) (by decide)

theorem EncodeMatchesRow.ldiv : EncodeMatchesRow.Statement .ldiv :=
  assemble_and_mask _ _ _ _ _ 15 15 15 0xFFF _ rfl (by decide) (by decide) (by decide) (by decide)

theorem EncodeMatchesRow.pad : EncodeMatchesRow.Statement .pad :=
  assemble_and_mask _ _ _ _ _ 15 15 15 0xFFF _ rfl (by decide) (by decide) (by decide) (by decide)

theorem EncodeMatchesRow.unpad : EncodeMatchesRow.Statement .unpad :=
  assemble_and_mask _ _ _ _ _ 15 15 15 0xFFF _ rfl (by decide) (by decide) (by decide) (by decide)

end Sys2Proof.Laws
end

