-- ==== Sys2Proof/Laws/Step.lean ====
section
/-! SUPPORT. What one step does, by the host's next action, and what one command can do: the inversion lemma that later
proofs cite instead of unfolding the dispatcher. -/

namespace Sys2Proof.Machine

/-! ### A step, by the host's next action -/

theorem step_idle (s : State) (h : s.inbox = []) : step s = .next s := by simp only [step, deliver, h]

theorem step_command (s : State) (I : Command) (rest : List HostEvent) (h : s.inbox = .command I :: rest) :
    step s = issue I { s with inbox := rest } := by simp only [step, deliver, h]

theorem step_store (s : State) (a : RegVal) (v : List Byte) (rest : List HostEvent) (h : s.inbox = .store a v :: rest) :
    step s = hostStore a.toNat v { s with inbox := rest } := by simp only [step, deliver, h]

theorem step_reset (s : State) (rest : List HostEvent) (h : s.inbox = .reset :: rest) :
    step s = .next (({ s with inbox := rest } : State).resetUnit) := by simp only [step, deliver, h]

/-! ### Updates that leave all but S, MEM and CUR alone -/

/-- `t` is `s` but for the cipher state, the data memory and the cursor: all a block step of a mode command writes. -/
abbrev State.sameButBlocks (s t : State) : Prop := t = { s with S := t.S, MEM := t.MEM, CUR := t.CUR }

theorem cbcEncBlock_frame (src dst n i : Nat) (s : State) : s.sameButBlocks (cbcEncBlock src dst n i s) := rfl

theorem cbcDecBlock_frame (src dst i : Nat) (s : State) : s.sameButBlocks (cbcDecBlock src dst i s) := rfl

theorem ctrChunk_frame (src dst n i : Nat) (s : State) : s.sameButBlocks (ctrChunk src dst n i s) := rfl

/-- A mode command's loop, which starts with the cursor set, leaves all but S, MEM and CUR alone. -/
theorem forLoop_frame (body : Nat → State → State) (h : ∀ i s, State.sameButBlocks s (body i s)) (n : Nat) (s : State)
    (g : Grid) : s.sameButBlocks (forLoop body n { s with CUR := g }) := by
  refine forLoop_induct body n { s with CUR := g } (fun _ t => s.sameButBlocks t) rfl fun k _ t ht => ?_
  have h1 := h k t
  unfold State.sameButBlocks at *
  rw [h1, ht]

theorem State.sameButBlocks_latch (s t : State) (h : s.sameButBlocks t) :
    t.FAULT = s.FAULT ∧ t.FCAUSE = s.FCAUSE ∧ t.FINFO = s.FINFO ∧ t.memSize = s.memSize ∧ t.inbox = s.inbox := by
  rw [h]; exact ⟨rfl, rfl, rfl, rfl, rfl⟩

/-- The bytes a block step of chained encryption stores: its new cursor. -/
theorem cbcEncBlock_MEM (src dst n i : Nat) (s : State) : (cbcEncBlock src dst n i s).MEM =
    Memory.writeBytes s.MEM (dst + 16 * i) (toBlock (cbcEncBlock src dst n i s).CUR) := rfl

theorem cbcDecBlock_MEM (src dst i : Nat) (s : State) : (cbcDecBlock src dst i s).MEM =
    Memory.writeBytes s.MEM (dst + 16 * i) (xorBytes (toBlock (cbcDecBlock src dst i s).S) (toBlock s.CUR)) := rfl

theorem ctrChunk_MEM (src dst n i : Nat) (s : State) : (ctrChunk src dst n i s).MEM =
    Memory.writeBytes s.MEM (dst + 16 * i)
      (xorBytes (Memory.readBytes s.MEM (src + 16 * i) (min 16 (n - 16 * i)))
        ((toBlock (ctrChunk src dst n i s).S).take (min 16 (n - 16 * i)))) := rfl

@[simp] theorem xorBytes_length (s t : List Byte) : (xorBytes s t).length = min s.length t.length := by
  simp [xorBytes]

/-! ### A command, by how it ends -/

/-- A command of a running unit that ends in a fault. -/
def State.faultsInto (s : State) (i : Instr) (t : State) : Prop := ∃ c : Cause, t = s.latchFault c (encodeWord i)

/-- A command of a running unit that ends without a fault: the latch, the host's list and MEM_SIZE are as before, and the
response is an OK or an error. -/
def State.completesInto (s : State) (i : Instr) (t : State) : Prop :=
  (t.FAULT = s.FAULT ∧ t.FCAUSE = s.FCAUSE ∧ t.FINFO = s.FINFO ∧ t.memSize = s.memSize ∧ t.inbox = s.inbox) ∧
  ∃ r, t.rsp = some r ∧
    ((r.st = .ok ∧ r.code = 0 ∧ (r.res ≠ 0 → (∃ ra, i = .rd ra) ∨ ∃ n, i = .csrrd n)) ∨
     (r.st = .err ∧ (r.code = 1 ∨ r.code = 2) ∧ r.code = t.ERR.zeroExtend 8 ∧ r.res = 0))

theorem exec_faulted (i : Instr) (s : State) (h : s.FAULT = true) : exec i s = .next s.refuse := by
  cases i <;> exact whenRunning_faulted _ _ h

/-- A command of a running unit, past the check every command makes first. -/
theorem whenRunning_elim (s t : State) (r : Result) (P : Prop) (h : whenRunning s r = .next t) (hf : s.FAULT = false)
    (k : r = .next t → P) : P := k (by rw [whenRunning_running _ _ hf] at h; exact h)

theorem faults_of_raise (i : Instr) (s t : State) (c : Cause) (h : raise c (encodeWord i) s = .next t) :
    s.faultsInto i t := by
  injection h with h; exact ⟨c, h.symm⟩

theorem completes_of_done (i : Instr) (s t u : State) (h : done u = .next t)
    (hu : u.FAULT = s.FAULT ∧ u.FCAUSE = s.FCAUSE ∧ u.FINFO = s.FINFO ∧ u.memSize = s.memSize ∧ u.inbox = s.inbox) :
    s.completesInto i t := by
  injection h with h; subst h
  exact ⟨hu, _, rfl, .inl ⟨rfl, rfl, fun h => absurd rfl h⟩⟩

theorem completes_of_error (i : Instr) (s t u : State) (e : DataError)
    (h : (Host.Outcome.next (u.reportError e) : Result) = .next t)
    (hu : u.FAULT = s.FAULT ∧ u.FCAUSE = s.FCAUSE ∧ u.FINFO = s.FINFO ∧ u.memSize = s.memSize ∧ u.inbox = s.inbox) :
    s.completesInto i t := by
  injection h with h; subst h
  exact ⟨hu, _, rfl, .inr ⟨rfl, e.code_cases, rfl, rfl⟩⟩

theorem completes_of_finishUnpad (i : Instr) (s t u : State) (a n : Nat) (h : finishUnpad a n u = .next t)
    (hu : u.FAULT = s.FAULT ∧ u.FCAUSE = s.FCAUSE ∧ u.FINFO = s.FINFO ∧ u.memSize = s.memSize ∧ u.inbox = s.inbox) :
    s.completesInto i t := by
  rcases finishUnpad_cases a n u with e | ⟨l, _, _, e⟩
  · exact completes_of_error i s t u _ (e.symm.trans h) hu
  · exact completes_of_done i s t _ (e.symm.trans h) hu

/-- A command that answers a next state was refused because a fault was latched, or faulted, or completed. -/
theorem exec_next_cases (i : Instr) (s t : State) (h : exec i s = .next t) :
    (s.FAULT = true ∧ t = s.refuse) ∨ (s.FAULT = false ∧ (s.faultsInto i t ∨ s.completesInto i t)) := by
  rcases Bool.eq_false_or_eq_true s.FAULT with hf | hf
  · rw [exec_faulted i s hf] at h; injection h with h; exact .inl ⟨hf, h.symm⟩
  refine .inr ⟨hf, ?_⟩
  have same : s.FAULT = s.FAULT ∧ s.FCAUSE = s.FCAUSE ∧ s.FINFO = s.FINFO ∧ s.memSize = s.memSize ∧ s.inbox = s.inbox :=
    ⟨rfl, rfl, rfl, rfl, rfl⟩
  have csr : ∀ (n : Nat) (v : RegVal), writeCsrOrRaise n v (encodeWord i) s = .next t →
      s.faultsInto i t ∨ s.completesInto i t := fun n v h => by
    rcases writeCsrOrRaise_cases n v (encodeWord i) s with ⟨r, _, _, e⟩ | e
    · exact .inr (completes_of_done i s t _ (e.symm.trans h) (by rw [State.writeCsr_frame]; exact same))
    · exact .inl (faults_of_raise i s t _ (e.symm.trans h))
  cases i <;> refine whenRunning_elim _ _ _ _ h hf fun he => ?_
  case nop | li | mv | gfadd | gfmul | xtime | sbox | isbox | wadd | wmul | subw | rotw | wext | wins | subbytes | isubbytes
    | shiftrows | ishiftrows | mixcols | imixcols => exact .inr (completes_of_done _ s t _ he same)
  case rd ra => injection he with he; subst he; exact .inr ⟨same, _, rfl, .inl ⟨rfl, rfl, fun _ => .inl ⟨_, rfl⟩⟩⟩
  case csrw | csrwi => exact csr _ _ he
  case csrr =>
    split at he
    · exact .inl (faults_of_raise _ s t _ he)
    · exact .inr (completes_of_done _ s t _ he same)
  case csrrd =>
    split at he
    · exact .inl (faults_of_raise _ s t _ he)
    · injection he with he; subst he; exact .inr ⟨same, _, rfl, .inl ⟨rfl, rfl, fun _ => .inr ⟨_, rfl⟩⟩⟩
  case lds | sts | addrk | enc | dec | ldiv =>
    split at he
    · exact .inl (faults_of_raise _ s t _ he)
    · exact .inr (completes_of_done _ s t _ he same)
  case kexp | ldrk | pad =>
    split at he
    · exact .inl (faults_of_raise _ s t _ he)
    · split at he
      · exact .inl (faults_of_raise _ s t _ he)
      · exact .inr (completes_of_done _ s t _ he same)
  case unpad =>
    split at he
    · exact .inl (faults_of_raise _ s t _ he)
    · exact .inr (completes_of_finishUnpad _ s t _ _ _ he same)
  case cbcenc =>
    split at he
    · exact .inl (faults_of_raise _ s t _ he)
    split at he
    · exact .inl (faults_of_raise _ s t _ he)
    split at he
    · exact .inl (faults_of_raise _ s t _ he)
    have hl := State.sameButBlocks_latch _ _ (forLoop_frame _ (cbcEncBlock_frame s.SRC.toNat s.DST.toNat s.LEN.toNat)
      (blockCount s.LEN.toNat) s s.IV)
    exact .inr (completes_of_done _ s t _ he hl)
  case ctr =>
    split at he
    · exact .inl (faults_of_raise _ s t _ he)
    split at he
    · exact .inl (faults_of_raise _ s t _ he)
    split at he
    · exact .inl (faults_of_raise _ s t _ he)
    have hl := State.sameButBlocks_latch _ _ (forLoop_frame _ (ctrChunk_frame s.SRC.toNat s.DST.toNat s.LEN.toNat)
      (chunkCount s.LEN.toNat) s s.IV)
    exact .inr (completes_of_done _ s t _ he hl)
  case cbcdec =>
    split at he
    · exact .inr (completes_of_error _ s t _ _ he same)
    split at he
    · exact .inl (faults_of_raise _ s t _ he)
    split at he
    · exact .inl (faults_of_raise _ s t _ he)
    split at he
    · exact .inl (faults_of_raise _ s t _ he)
    have hl := State.sameButBlocks_latch _ _ (forLoop_frame _ (cbcDecBlock_frame s.SRC.toNat s.DST.toNat)
      (s.LEN.toNat / 16) s s.IV)
    exact .inr (completes_of_finishUnpad _ s t _ _ _ he hl)

end Sys2Proof.Machine
end

