-- ==== Sys2Proof/Tests/Slice0.lean ====
section
/-! SUPPORT. Tests of the model. Every expected value comes from spec/: the vectors V<n>, the tables and the programs P<n>
of spec/95_test_vectors.md, or the rule a comment names. The last part shows, for every statement of
Certificates/Slice0/Obligations.lean that has hypotheses, values that meet them, at the edges of their ranges. -/

namespace Sys2Proof.Tests

open Sys2Proof.Machine

set_option Elab.async false

/-! ### Helpers -/

/-- The outcome is a next state that passes the check. -/
def gives (r : Result) (p : State → Bool) : Bool :=
  match r with
  | .next t => p t
  | .fault _ => false
  | .refused _ => false

theorem exists_of_gives {r : Result} {p : State → Bool} (h : gives r p = true) : ∃ t, r = .next t ∧ p t = true := by
  unfold gives at h
  split at h
  · exact ⟨_, rfl, h⟩
  · cases h
  · cases h

/-- The unit after reset, x1 and x2 given values. -/
def regs (a b : RegVal) : State := (State.reset.setReg 1 a).setReg 2 b

/-- The unit after reset with a cipher state. -/
def withS (g : Grid) : State := { State.reset with S := g }

/-- The unit after reset with bytes written in its memory. -/
def withBytes (addr : Nat) (b : List Byte) : State := { State.reset with MEM := Memory.writeBytes [] addr b }

/-- The unit after reset with a schedule of `l` zero words and the three buffer registers. -/
def buffers (l : Nat) (src dst len : RegVal) : State := { State.reset with RKLEN := l, SRC := src, DST := dst, LEN := len }

/-- P of spec/95_test_vectors.md section 2.3. -/
def gridP : Grid := gridOfPacked 0x00010203 0x04050607 0x08090a0b 0x0c0d0e0f

/-- A of section 2.3: V1's state after ADDRK 0. -/
def gridA : Grid := gridOfPacked 0x193de3be 0xa0f4e22b 0x9ac68d2a 0xe9f84808

/-- The unit with the schedule of V5 installed and the initialization vector and buffers given, `b` in memory at 0x20. -/
def keyed (iv : Grid) (dst len : RegVal) (b : List Byte) : State :=
  { State.reset with
    RK := scheduleOf [0x2b7e1516, 0x28aed2a6, 0xabf71588, 0x09cf4f3c]
    RKLEN := 44
    IV := iv
    SRC := 0x20
    DST := dst
    LEN := len
    MEM := Memory.writeBytes [] 0x20 b }

/-! ### WellFormed: an immediate that does not fit twelve bits is refused (R91, R93) -/

theorem test_wf_refuses_csrr : (Instr.csrr 0 4096).wellFormed = false ∧ (Instr.csrr 0 4095).wellFormed = true := by decide
theorem test_wf_refuses_csrw : (Instr.csrw 4096 0).wellFormed = false ∧ (Instr.csrw 4095 0).wellFormed = true := by decide
theorem test_wf_refuses_csrwi : (Instr.csrwi 4096 0).wellFormed = false ∧ (Instr.csrwi 4095 0).wellFormed = true := by
  decide
theorem test_wf_refuses_csrrd : (Instr.csrrd 4096).wellFormed = false ∧ (Instr.csrrd 4095).wellFormed = true := by decide
theorem test_wf_refuses_addrk : (Instr.addrk 4096).wellFormed = false ∧ (Instr.addrk 4095).wellFormed = true := by decide
theorem test_wf_refuses_kexp : (Instr.kexp 4096).wellFormed = false ∧ (Instr.kexp 4095).wellFormed = true := by decide
theorem test_wf_refuses_ldrk : (Instr.ldrk 4096).wellFormed = false ∧ (Instr.ldrk 4095).wellFormed = true := by decide

/-! ### Decode: a word of every row, written out from R91, R92, R95 (where it stands there, from section 2.9 or P1 to P7) -/

theorem test_decode_host :
    decode 0x0000000000000000 = .ok .nop ∧ decode 0x0E090D0B01900000 = .ok (.li 9 0x0E090D0B) ∧
    decode 0x0000000002060000 = .ok (.rd 6) ∧ decode 0x0000000003210000 = .ok (.mv 2 1) ∧
    decode 0x0000000004600044 = .ok (.csrr 6 0x044) ∧ decode 0x0000000005030010 = .ok (.csrw 0x010 3) ∧
    decode 0xFCFDFEFF06000017 = .ok (.csrwi 0x017 0xFCFDFEFF) ∧ decode 0x000000000700001B = .ok (.csrrd 0x01B) := by
  decide +kernel

theorem test_decode_byte :
    decode 0x0000000010402000 = .ok (.gfadd 4 0 2) ∧ decode 0x0000000011501000 = .ok (.gfmul 5 0 1) ∧
    decode 0x0000000012320000 = .ok (.xtime 3 2) ∧ decode 0x0000000013780000 = .ok (.sbox 7 8) ∧
    decode 0x00000000149A0000 = .ok (.isbox 9 10) := by
  decide +kernel

theorem test_decode_word :
    decode 0x0000000020FED000 = .ok (.wadd 15 14 13) ∧ decode 0x0000000021645000 = .ok (.wmul 6 4 5) ∧
    decode 0x0000000022210000 = .ok (.subw 2 1) ∧ decode 0x0000000023100000 = .ok (.rotw 1 0) ∧
    decode 0x0000000024860003 = .ok (.wext 8 6 3) ∧ decode 0x0000000025410001 = .ok (.wins 4 1 1) := by
  decide +kernel

theorem test_decode_state :
    decode 0x0000000030000000 = .ok .lds ∧ decode 0x0000000031000000 = .ok .sts ∧
    decode 0x0000000032000000 = .ok .subbytes ∧ decode 0x0000000033000000 = .ok .isubbytes ∧
    decode 0x0000000034000000 = .ok .shiftrows ∧ decode 0x0000000035000000 = .ok .ishiftrows ∧
    decode 0x0000000036000000 = .ok .mixcols ∧ decode 0x0000000037000000 = .ok .imixcols ∧
    decode 0x000000003800000A = .ok (.addrk 10) := by
  decide +kernel

theorem test_decode_key_and_driver :
    decode 0x0000000040000008 = .ok (.kexp 8) ∧ decode 0x0000000041000008 = .ok (.ldrk 8) ∧
    decode 0x0000000050000000 = .ok .enc ∧ decode 0x0000000051000000 = .ok .dec := by
  decide +kernel

theorem test_decode_modes :
    decode 0x0000000060000000 = .ok .cbcenc ∧ decode 0x0000000061000000 = .ok .cbcdec ∧
    decode 0x0000000062000000 = .ok .ctr ∧ decode 0x0000000063000000 = .ok .ldiv ∧
    decode 0x0000000068000000 = .ok .pad ∧ decode 0x0000000069000000 = .ok .unpad := by
  decide +kernel

/-- The unassigned opcodes of section 2.9. -/
theorem test_decode_rejects_unassigned_opcodes :
    decode 0x08000000 = .error .unknownOpcode ∧ decode 0x15000000 = .error .unknownOpcode ∧
    decode 0x26000000 = .error .unknownOpcode ∧ decode 0x39000000 = .error .unknownOpcode ∧
    decode 0x42000000 = .error .unknownOpcode ∧ decode 0x52000000 = .error .unknownOpcode ∧
    decode 0x64000000 = .error .unknownOpcode ∧ decode 0x6A000000 = .error .unknownOpcode ∧
    decode 0xFF000000 = .error .unknownOpcode := by
  decide +kernel

/-- The words with a reserved bit of section 2.9. -/
theorem test_decode_rejects_reserved_bits :
    decode 0x00000001 = .error .reservedBit ∧ decode 0x10000001 = .error .reservedBit ∧
    decode 0x12001000 = .error .reservedBit ∧ decode 0x24000004 = .error .reservedBit ∧
    decode 0x01010000 = .error .reservedBit ∧ decode 0x02100000 = .error .reservedBit ∧
    decode 0x05100010 = .error .reservedBit ∧ decode 0x50100000 = .error .reservedBit := by
  decide +kernel

/-- Section 2.9: a legal word with an immediate its command does not accept is decoded. -/
theorem test_decode_odd_but_legal :
    decode 0x05030000 = .ok (.csrw 0x000 3) ∧ decode 0x0700007B = .ok (.csrrd 0x07B) ∧
    decode 0x38000FFF = .ok (.addrk 4095) ∧ decode 0x04000007 = .ok (.csrr 0 0x007) := by
  decide +kernel

theorem test_encode_words :
    encode (.wins 4 1 1) = 0x0000000025410001 ∧ encode (.csrwi 0x017 0xFCFDFEFF) = 0xFCFDFEFF06000017 ∧
    encode (.csrw 0x010 3) = 0x0000000005030010 ∧ encode (.wadd 15 14 13) = 0x0000000020FED000 := by
  decide +kernel

theorem test_table_word : decodeTableWord 32 0x12320000 = some (.xtime 3 2) ∧ decodeTableWord 32 0x15000000 = none := by
  decide +kernel

/-! ### The assembler (R99) and its operand order -/

theorem test_assembly_gfmul : assemblyLine (.gfmul 2 0 1) = "GFMUL x2, x0, x1" := by decide +kernel
theorem test_assembly_csr :
    assemblyLine (.csrr 15 0x06B) = "CSRR x15, RK43" ∧ assemblyLine (.csrw 0x010 3) = "CSRW S0, x3" := by decide +kernel

/-! ### One step -/

/-- P1, command 2: LI x1, 0x13 is taken from the port and runs. -/
theorem test_step_runs_the_command :
    gives (step (State.reset.withFetchWord 64 0x0000001301100000))
      (fun t => t.reg 1 == 0x13 && t.rsp == some ⟨.ok, 0, 0⟩ && t.inbox == []) = true := by
  decide +kernel

/-- Section 2.10: ENC right after reset. -/
theorem test_step_takes_the_fault :
    gives (step (State.reset.withFetchWord 32 0x50000000))
      (fun t => t.FAULT && t.faultOutput && t.FCAUSE == 4 && t.FINFO == 0x50000000 && t.rsp == some ⟨.fault, 4, 0⟩ &&
        t.S == Grid.zero) = true := by
  decide +kernel

/-- Section 2.9: an illegal word, its command word in FINFO. -/
theorem test_step_illegal_word :
    gives (step (State.reset.withFetchWord 32 0x24000004))
      (fun t => t.FAULT && t.FCAUSE == 1 && t.FINFO == 0x24000004 && t.rsp == some ⟨.fault, 1, 0⟩) = true := by
  decide +kernel

/-- P5, commands 2 to 4: a faulted unit refuses RD with the first cause. -/
theorem test_step_refused_while_faulted :
    gives (step (({ State.reset with FAULT := true, FCAUSE := 4, FINFO := 0x50000000 } : State).withFetchWord 32 0x02010000))
      (fun t => t.rsp == some ⟨.fault, 4, 0⟩ && t.FINFO == 0x50000000) = true := by
  decide +kernel

/-- Section 2.10: reset clears the latch and the registers, MEM stays. -/
theorem test_step_reset :
    gives (step { withBytes 3 [0xAB] with FAULT := true, FCAUSE := 4, LEN := 7, inbox := [.reset] })
      (fun t => !t.FAULT && t.FCAUSE == 0 && t.LEN == 0 && t.MEM == [(3, 0xAB)] && t.rsp == none) = true := by
  decide +kernel

/-- R60, R63: the host's bytes go to consecutive addresses, the last one MEM_SIZE-1; one further there is no byte. -/
theorem test_step_host_store :
    gives (step { State.reset with inbox := [.store 0xFFE [1, 2]] }) (fun t => t.MEM == [(0xFFE, 1), (0xFFF, 2)]) = true ∧
    step { State.reset with inbox := [.store 0xFFF [1, 2]] } = .fault .hostStoreOutsideMemory := by
  exact ⟨by decide +kernel, rfl⟩

/-! ### Host access (section 2.8) -/

theorem test_nop : gives (exec .nop (regs 7 9)) (fun t => t == (regs 7 9).afterOk 0) = true := by decide +kernel

theorem test_li : gives (exec (.li 3 0xdeadbeef) State.reset)
    (fun t => t.reg 3 == 0xdeadbeef && t.reg 4 == 0 && t.rsp == some ⟨.ok, 0, 0⟩) = true := by decide +kernel

theorem test_rd : gives (exec (.rd 2) (regs 7 0xdeadbeef)) (fun t => t.rsp == some ⟨.ok, 0, 0xdeadbeef⟩) = true := by
  decide +kernel

theorem test_mv : gives (exec (.mv 2 1) (regs 7 9)) (fun t => t.reg 2 == 7 && t.reg 1 == 7) = true := by decide +kernel

theorem test_csrr : gives (exec (.csrr 5 0x010) (withS (gridOfPacked 0x00112233 1 2 3)))
    (fun t => t.reg 5 == 0x00112233) = true := by decide +kernel

theorem test_csrw : gives (exec (.csrw 0x014 1) (regs 0xf0f1f2f3 0))
    (fun t => t.IV == gridOfPacked 0xf0f1f2f3 0 0 0 && t.CUR == Grid.zero) = true := by decide +kernel

/-- CSRWI LEN, then NBLK: 33 gives 3, 0xffffffff gives 0x10000000. -/
theorem test_csrwi_len_and_nblk :
    gives (exec (.csrwi 0x002 33) State.reset) (fun t => t.readCsr .nblk == 3) = true ∧
    gives (exec (.csrwi 0x002 0xffffffff) State.reset) (fun t => t.readCsr .nblk == 0x10000000) = true := by
  decide +kernel

theorem test_csrwi_read_only :
    gives (exec (.csrwi 0x003 5) State.reset)
      (fun t => t.FAULT && t.FCAUSE == 2 && t.FINFO == 0x06000003 && t.OUTLEN == 0) = true := by decide +kernel

theorem test_csrrd_rk59 : gives (exec (.csrrd 0x07B) State.reset) (fun t => t.rsp == some ⟨.ok, 0, 0⟩) = true := by
  decide +kernel

theorem test_csrrd_unassigned :
    gives (exec (.csrrd 0x07C) State.reset) (fun t => t.FCAUSE == 2 && t.FINFO == 0x0700007C) = true := by decide +kernel

/-! ### Field bytes (section 2.1) -/

theorem test_gfadd : gives (exec (.gfadd 1 1 2) (regs 0x12345657 0x83)) (fun t => t.reg 1 == 0x000000d4) = true := by
  decide +kernel

theorem test_gfmul_57_83 : gives (exec (.gfmul 3 1 2) (regs 0x57 0x83)) (fun t => t.reg 3 == 0xc1) = true := by
  decide +kernel

theorem test_gfmul_ff_ff : gives (exec (.gfmul 3 1 1) (regs 0xff 0)) (fun t => t.reg 3 == 0x13) = true := by decide +kernel

theorem test_xtime : gives (exec (.xtime 3 1) (regs 0x80 0)) (fun t => t.reg 3 == 0x1b) = true := by decide +kernel

theorem test_xtime_ff : gives (exec (.xtime 1 1) (regs 0xffffffff 0)) (fun t => t.reg 1 == 0xe5) = true := by decide +kernel

theorem test_sbox : gives (exec (.sbox 3 1) (regs 0x9a 0)) (fun t => t.reg 3 == 0xb8) = true := by decide +kernel

theorem test_isbox : gives (exec (.isbox 3 1) (regs 0x16 0)) (fun t => t.reg 3 == 0xff) = true := by decide +kernel

/-! ### Field words (section 2.2, P2, P7) -/

theorem test_wadd : gives (exec (.wadd 3 1 2) (regs 0x2b7e1516 0x8b84eb01)) (fun t => t.reg 3 == 0xa0fafe17) = true := by
  decide +kernel

theorem test_wmul : gives (exec (.wmul 3 1 2) (regs 0xdb135345 0x02010103)) (fun t => t.reg 3 == 0x8e4da1bc) = true := by
  decide +kernel

theorem test_wmul_rotates : gives (exec (.wmul 3 1 2) (regs 0x00010000 0xdeadbeef))
    (fun t => t.reg 3 == 0xefdeadbe) = true := by decide +kernel

theorem test_subw : gives (exec (.subw 3 1) (regs 0xcf4f3c09 0)) (fun t => t.reg 3 == 0x8a84eb01) = true := by decide +kernel

theorem test_rotw : gives (exec (.rotw 3 1) (regs 0x09cf4f3c 0)) (fun t => t.reg 3 == 0xcf4f3c09) = true := by decide +kernel

theorem test_wext : gives (exec (.wext 3 1 0) (regs 0x046681e5 0)) (fun t => t.reg 3 == 0x04) = true ∧
    gives (exec (.wext 3 1 3) (regs 0x046681e5 0)) (fun t => t.reg 3 == 0xe5) = true := by decide +kernel

theorem test_wins : gives (exec (.wins 2 1 1) (regs 0xffffffbf 0xd4000000)) (fun t => t.reg 2 == 0xd4bf0000) = true := by
  decide +kernel

/-! ### The cipher state (section 2.3) -/

theorem test_lds : gives (exec .lds (withBytes 0 [0, 1, 2, 3, 4, 5, 6, 7, 8, 9, 10, 11, 12, 13, 14, 15]))
    (fun t => t.S == gridP && t.S.at 0 1 == 4) = true := by decide +kernel

theorem test_lds_range : gives (exec .lds { State.reset with SRC := 0xff1 })
    (fun t => t.FCAUSE == 7 && t.FINFO == 0x30000000 && t.S == Grid.zero) = true := by decide +kernel

theorem test_sts : gives (exec .sts { withS gridP with DST := 0xff0 })
    (fun t => Memory.readBytes t.MEM 0xff0 16 == [0, 1, 2, 3, 4, 5, 6, 7, 8, 9, 10, 11, 12, 13, 14, 15] && t.S == gridP) =
    true := by decide +kernel

theorem test_subbytes : gives (exec .subbytes (withS gridA))
    (fun t => t.S == gridOfPacked 0xd42711ae 0xe0bf98f1 0xb8b45de5 0x1e415230) = true := by decide +kernel

theorem test_isubbytes : gives (exec .isubbytes (withS gridP))
    (fun t => t.S == gridOfPacked 0x52096ad5 0x3036a538 0xbf40a39e 0x81f3d7fb) = true := by decide +kernel

theorem test_shiftrows : gives (exec .shiftrows (withS gridA))
    (fun t => t.S == gridOfPacked 0x19f48d08 0xa0c648be 0x9af8e32b 0xe93de22a) = true := by decide +kernel

theorem test_ishiftrows : gives (exec .ishiftrows (withS gridA))
    (fun t => t.S == gridOfPacked 0x19f88d2b 0xa03d482a 0x9af4e308 0xe9c6e2be) = true := by decide +kernel

theorem test_mixcols : gives (exec .mixcols (withS gridA))
    (fun t => t.S == gridOfPacked 0x28e32092 0x9545f6bb 0xd9ab23aa 0x9ad29980) = true := by decide +kernel

theorem test_imixcols : gives (exec .imixcols (withS gridA))
    (fun t => t.S == gridOfPacked 0x083c004d 0x0290616e 0x1cafe6ae 0x968195d3) = true := by decide +kernel

theorem test_addrk : gives (exec (.addrk 1) { keyed Grid.zero 0 0 [] with
      S := gridOfPacked 0x046681e5 0xe0cb199a 0x48f8d37a 0x2806264c })
    (fun t => t.S == gridOfPacked 0xa49c7ff2 0x689f352b 0x6b5bea43 0x026a5049) = true := by decide +kernel

theorem test_addrk_slice : gives (exec (.addrk 1) (buffers 8 0 0 0)) (fun t => !t.FAULT) = true ∧
    gives (exec (.addrk 2) (buffers 8 0 0 0)) (fun t => t.FCAUSE == 5 && t.FINFO == 0x38000002) = true := by decide +kernel

/-! ### The key schedule (section 2.4) -/

/-- KEXP 4 with sixteen zero bytes: RK[4..7], RK[40], RKLEN; the words above RKLEN stay. -/
theorem test_kexp : gives (exec (.kexp 4) { withBytes 0 (List.replicate 16 0) with RK := Vector.replicate 60 ⟨1, 2, 3, 4⟩ })
    (fun t => (rkWord t.RK 4).pack == 0x62636363 && (rkWord t.RK 40).pack == 0xb4ef5bcb &&
      (rkWord t.RK 44).pack == 0x01020304 && t.RKLEN == 44) = true := by decide +kernel

theorem test_kexp_size : gives (exec (.kexp 5) State.reset)
    (fun t => t.FCAUSE == 3 && t.FINFO == 0x40000005 && t.RKLEN == 0) = true := by decide +kernel

theorem test_ldrk : gives (exec (.ldrk 2) { withBytes 0 [0, 1, 2, 3, 4, 5, 6, 7] with RK := Vector.replicate 60 ⟨9, 9, 9, 9⟩ })
    (fun t => t.RKLEN == 2 && (rkWord t.RK 0).pack == 0x00010203 && (rkWord t.RK 1).pack == 0x04050607 &&
      (rkWord t.RK 2).pack == 0x09090909) = true := by decide +kernel

theorem test_ldrk_count : gives (exec (.ldrk 61) State.reset) (fun t => t.FCAUSE == 6 && t.FINFO == 0x4100003d) = true := by
  decide +kernel

/-! ### The cipher driver (section 2.5: the one-round schedule of the bytes 00 .. 1f) -/

/-- The schedule of eight words and the block of section 2.5. -/
def oneRound (g : Grid) : State :=
  { State.reset with
    S := g
    RK := rkInstall State.reset.RK (List.map FieldWord.unpack
      [0x00010203, 0x04050607, 0x08090a0b, 0x0c0d0e0f, 0x10111213, 0x14151617, 0x18191a1b, 0x1c1d1e1f])
    RKLEN := 8 }

theorem test_enc : gives (exec .enc (oneRound (gridOfPacked 0x00112233 0x44556677 0x8899aabb 0xccddeeff)))
    (fun t => t.S == gridOfPacked 0x7342f29f 0x1d75f713 0xd569ad4a 0xa6d7cef8) = true := by decide +kernel

theorem test_dec : gives (exec .dec (oneRound (gridOfPacked 0x7342f29f 0x1d75f713 0xd569ad4a 0xa6d7cef8)))
    (fun t => t.S == gridOfPacked 0x00112233 0x44556677 0x8899aabb 0xccddeeff) = true := by decide +kernel

/-! ### The modes (V9, V10, V12, section 2.6) -/

theorem test_cbcenc : gives (exec .cbcenc (keyed gridP 0x40 5 [0x6b, 0xc1, 0xbe, 0xe2, 0x2e]))
    (fun t => t.OUTLEN == 16 && t.CUR == gridOfPacked 0xfc4e79e8 0x0d888771 0x6fa2f858 0x0991cd24 &&
      Memory.readBytes t.MEM 0x40 16 == toBlock t.CUR && t.IV == gridP) = true := by decide +kernel

theorem test_cbcdec : gives (exec .cbcdec (keyed gridP 0x40 16
      (toBlock (gridOfPacked 0xfc4e79e8 0x0d888771 0x6fa2f858 0x0991cd24))))
    (fun t => t.OUTLEN == 5 && t.ERR == 0 && t.S == gridOfPacked 0x6bc0bce1 0x2a0e0d0c 0x03020100 0x07060504 &&
      Memory.readBytes t.MEM 0x40 16 ==
        toBlock (gridOfPacked 0x6bc1bee2 0x2e0b0b0b 0x0b0b0b0b 0x0b0b0b0b)) = true := by decide +kernel

/-- CBCDEC with LEN = 15: the Format error comes before the schedule is checked. -/
theorem test_cbcdec_format : gives (exec .cbcdec { buffers 0 0 0 15 with OUTLEN := 9 })
    (fun t => t.rsp == some ⟨.err, 1, 0⟩ && t.ERR == 1 && t.OUTLEN == 0 && !t.FAULT) = true := by decide +kernel

/-- V12: the last chunk is short and the counter is still incremented after it. -/
theorem test_ctr : gives (exec .ctr (keyed (gridOfPacked 0xf0f1f2f3 0xf4f5f6f7 0xf8f9fafb 0xfcfdfeff) 0x40 20
      [0x6b, 0xc1, 0xbe, 0xe2, 0x2e, 0x40, 0x9f, 0x96, 0xe9, 0x3d, 0x7e, 0x11, 0x73, 0x93, 0x17, 0x2a, 0xae, 0x2d, 0x8a,
        0x57]))
    (fun t => t.OUTLEN == 20 && t.CUR == gridOfPacked 0xf0f1f2f3 0xf4f5f6f7 0xf8f9fafb 0xfcfdff01 &&
      Memory.readBytes t.MEM 0x40 20 == [0x87, 0x4d, 0x61, 0x91, 0xb6, 0x20, 0xe3, 0x26, 0x1b, 0xef, 0x68, 0x64, 0x99, 0x0d,
        0xb6, 0xce, 0x98, 0x06, 0xf6, 0x6b]) = true := by decide +kernel

theorem test_ctr_in_place : gives (exec .ctr (buffers 8 0x40 0x40 1)) (fun t => t.FCAUSE == 8) = true ∧
    gives (exec .ctr (buffers 8 0x40 0x40 0)) (fun t => !t.FAULT) = true := by decide +kernel

theorem test_ldiv : gives (exec .ldiv { withBytes 0 (toBlock gridP) with CUR := gridA })
    (fun t => t.IV == gridP && t.CUR == gridA && t.S == Grid.zero) = true := by decide +kernel

/-! ### Padding (section 2.7) -/

theorem test_pad : gives (exec .pad { withBytes 0 [0x6b, 0xc1, 0xbe, 0xe2, 0x2e] with DST := 0x40, LEN := 5 })
    (fun t => t.OUTLEN == 16 && Memory.readBytes t.MEM 0x40 16 ==
      toBlock (gridOfPacked 0x6bc1bee2 0x2e0b0b0b 0x0b0b0b0b 0x0b0b0b0b)) = true := by decide +kernel

theorem test_pad_full_block : gives (exec .pad { withBytes 0 (toBlock gridP) with DST := 0x40, LEN := 16 })
    (fun t => t.OUTLEN == 32 && Memory.readBytes t.MEM 0x40 32 == toBlock gridP ++ List.replicate 16 0x10) = true := by
  decide +kernel

/-- UNPAD of 16 bytes whose last byte is 00: the length is the whole buffer. -/
theorem test_unpad : gives (exec .unpad { withBytes 15 [0x00] with LEN := 16, ERR := 2 })
    (fun t => t.OUTLEN == 16 && t.ERR == 0 && t.rsp == some ⟨.ok, 0, 0⟩) = true := by decide +kernel

theorem test_unpad_error : gives (exec .unpad { withBytes 15 [0x11] with LEN := 16 })
    (fun t => t.OUTLEN == 0 && t.ERR == 2 && t.rsp == some ⟨.err, 2, 0⟩) = true := by decide +kernel

/-! ### Values that meet the hypotheses of the statements

One theorem for each statement that has hypotheses, named after it; a conjunct for each of its clauses, at the edges of the
clause's range. A hypothesis that a command or a step leads to a next state is shown by that outcome. -/

/-- A unit that waits for one event of the host. -/
def pending (e : HostEvent) : State := { State.reset with inbox := [e] }

/-- The unit with the fault latch set, as ENC leaves it right after reset. -/
def faulted : State := { State.reset with FAULT := true, FCAUSE := 4, FINFO := 0x50000000 }

theorem test_premises_DecodeInvertsEncode :
    (Instr.csrrd 0).wellFormed = true ∧ (Instr.csrrd 4095).wellFormed = true ∧ (Instr.wins 15 15 3).wellFormed = true := by
  decide

theorem test_premises_DecodedCommandEncodesBack :
    decode 0xFCFDFEFF06000017 = .ok (.csrwi 0x017 0xFCFDFEFF) ∧ decode 0x0E090D0B01900000 = .ok (.li 9 0x0E090D0B) := by
  decide +kernel

theorem test_premises_ReservedBitsAreIllegalAndArgIgnored :
    (fieldOp (Command.word 0x00000001) = Opcode.nop.byte ∧ (0 : Nat) < 24 ∧ (Format.mask .n).getLsbD 0 = true ∧
      (Command.word 0x00000001).getLsbD 0 = true) ∧
    (fieldOp (Command.word 0x02800000) = Opcode.rd.byte ∧ (23 : Nat) < 24 ∧ (Format.mask .a).getLsbD 23 = true ∧
      (Command.word 0x02800000).getLsbD 23 = true) ∧
    decode (Command.ofParts 0xFFFFFFFF 0x02060000) = .ok (.rd 6) ∧ (Instr.rd 6).opcode ≠ .li ∧
    (Instr.rd 6).opcode ≠ .csrwi := by
  decide +kernel

theorem test_premises_StepRunsTheDecodedCommand :
    (pending (.command 0x0000000012320000)).inbox = .command 0x0000000012320000 :: [] ∧
    (pending (.command 0x0000000012320000)).running ∧ decode 0x0000000012320000 = .ok (.xtime 3 2) := by
  decide +kernel

theorem test_premises_IllegalWordFaultsAndNothingElse :
    ((pending (.command 0xFF000000)).running ∧
      ∀ o : Opcode, Command.word 0xFF000000 &&& o.format.mask ≠ o.matchBits) ∧
    (0x12320000 : RegVal) &&& Opcode.xtime.format.mask = Opcode.xtime.matchBits ∧
    Command.word 0x12320000 &&& Opcode.xtime.format.mask = Opcode.xtime.matchBits := by
  refine ⟨⟨rfl, ?_⟩, by decide, by decide⟩
  intro o
  cases o <;> decide

theorem test_premises_FaultedUnitRefusesEveryCommand :
    faulted.FAULT = true ∧ ({ faulted with inbox := [.command 0] } : State).inbox = .command 0 :: [] := ⟨rfl, rfl⟩

theorem test_premises_FaultsArePrecise :
    (pending (.command 0x50000000)).running ∧ ∃ t, step (pending (.command 0x50000000)) = .next t ∧ t.FAULT = true := by
  exact ⟨rfl, exists_of_gives (p := fun t => t.FAULT) (by decide +kernel)⟩

theorem test_premises_OnlyResetLeavesTheFaultState :
    ({ faulted with inbox := [.command 0] } : State).FAULT = true ∧
    (∀ rest, ({ faulted with inbox := [.command 0] } : State).inbox ≠ .reset :: rest) ∧
    (∃ t, step { faulted with inbox := [.command 0] } = .next t) ∧
    ({ faulted with inbox := [.reset] } : State).inbox = .reset :: [] := by
  exact ⟨rfl, (fun _ h => by cases h), ⟨_, rfl⟩, rfl⟩

/-- The three responses: OK (with a result), ERR, FAULT. -/
theorem test_premises_EveryCommandReturnsOneResponse :
    gives (step (pending (.command 0x07000004))) (fun t => t.rsp == some ⟨.ok, 0, 1⟩) = true ∧
    gives (step (pending (.command 0x69000000))) (fun t => t.rsp == some ⟨.err, 2, 0⟩) = true ∧
    gives (step (pending (.command 0x50000000))) (fun t => t.rsp == some ⟨.fault, 4, 0⟩) = true := by
  decide +kernel

theorem test_premises_ResetStepClearsAllButMemory : (pending .reset).inbox = .reset :: [] := rfl

/-- A memory of exactly sixteen bytes is enough for PAD right after reset. -/
theorem test_premises_CommandsRightAfterReset :
    ({ State.reset with memSize := 16 } : State).HasResetValues ∧ 16 ≤ ({ State.reset with memSize := 16 } : State).memSize := by
  refine ⟨⟨by decide +kernel, rfl, by decide +kernel, rfl, rfl, rfl, rfl, rfl, rfl, rfl, rfl, rfl, rfl, rfl⟩, Nat.le_refl _⟩

/-- No byte at any address; two bytes that end at the last address; two bytes that go one past it. -/
theorem test_premises_HostStoreWritesItsBytes :
    (pending (.store 0xFFFFFFFF [])).inbox = .store 0xFFFFFFFF [] :: [] ∧
    ((0xFFE : RegVal).toNat + [(1 : Byte), 2].length ≤ (pending (.store 0xFFE [1, 2])).memSize) ∧
    ((pending (.store 0xFFF [1, 2])).memSize < (0xFFF : RegVal).toNat + [(1 : Byte), 2].length) := by
  exact ⟨rfl, by decide, by decide⟩

theorem test_premises_IdleUnitHoldsItsState : State.reset.inbox = [] := rfl

theorem test_premises_StepKeepsTheInvariant :
    State.reset.Inv ∧ (∃ t, step State.reset = .next t) ∧
    faulted.Inv ∧ ∃ t, step faulted = .next t := by
  refine ⟨⟨by decide, by decide, by simp [State.reset], by simp [State.reset], by decide, by decide, fun _ => ⟨rfl, rfl⟩,
    (fun h => by cases h), (fun _ h => by cases h), (fun _ h => by cases h), fun _ h => by cases h⟩, ⟨_, rfl⟩,
    ⟨by decide, by decide, by simp [faulted, State.reset], by simp [faulted, State.reset], by decide, by decide,
    (fun h => by cases h), fun _ => by decide, (fun _ h => by cases h), (fun _ h => by cases h), fun _ h => by cases h⟩,
    ⟨_, rfl⟩⟩

theorem test_premises_CommandsWriteOnlyTheirOwnState :
    (∃ t, exec (.li 1 5) State.reset = .next t) ∧ (Instr.li 1 5).destReg ≠ some 2 ∧ (Instr.li 1 5).writesS = false ∧
    (Instr.li 1 5).writesRK = false ∧ (Instr.li 1 5).writesIV = false ∧ (Instr.li 1 5).writesCUR = false ∧
    (Instr.csrwi 0x001 5).writesCsr 0x000 0x001 = false ∧ (Instr.csrwi 0x000 5).writesCsr 0x001 0x002 = false ∧
    (Instr.csrwi 0x003 5).writesCsr 0x002 0x003 = false ∧ (Instr.li 1 5).writesOUTLEN = false ∧
    (Instr.li 1 5).writesERR = false ∧ (Instr.li 1 5).writesMEM = false := by
  exact ⟨⟨_, rfl⟩, by decide⟩

/-- STS at the end of memory: the address below the range and the first one above it. -/
theorem test_premises_CommandsStoreOnlyInTheirRange :
    (∃ t, exec .sts { State.reset with DST := 0xFF0 } = .next t ∧ t.FAULT = false) ∧
    Instr.storeRange .sts { State.reset with DST := 0xFF0 } = (0xFF0, 16) ∧
    0xFEF < (Instr.storeRange .sts { State.reset with DST := 0xFF0 }).1 ∧
    (Instr.storeRange .sts { State.reset with DST := 0xFF0 }).1 + 16 ≤ 0x1000 := by
  refine ⟨?_, by decide, by decide, by decide⟩
  obtain ⟨t, h, ht⟩ := exists_of_gives (r := exec .sts { State.reset with DST := 0xFF0 }) (p := fun t => !t.FAULT)
    (by decide +kernel)
  exact ⟨t, h, by simpa using ht⟩

/-- UNPAD of two bytes: two memories that differ in the first byte, which it does not read, and agree in the last. -/
theorem test_premises_CommandsReadOnlyTheirRange :
    (∃ t, exec .unpad { withBytes 0 [7, 1] with LEN := 2 } = .next t) ∧
    ∀ a, (Instr.loadRange .unpad { withBytes 0 [7, 1] with LEN := 2 }).1 ≤ a →
      a < (Instr.loadRange .unpad { withBytes 0 [7, 1] with LEN := 2 }).1 +
        (Instr.loadRange .unpad { withBytes 0 [7, 1] with LEN := 2 }).2 →
      Memory.readByte [(0, 9), (1, 1)] a = Memory.readByte (withBytes 0 [7, 1]).MEM a := by
  constructor
  · obtain ⟨t, h, _⟩ := exists_of_gives (r := exec .unpad { withBytes 0 [7, 1] with LEN := 2 }) (p := fun _ => true)
      (by decide +kernel)
    exact ⟨t, h⟩
  · intro a h1 h2
    have e : (Instr.loadRange .unpad { withBytes 0 [7, 1] with LEN := 2 }) = (1, 1) := by decide
    rw [e] at h1 h2
    have : a = 1 := Nat.le_antisymm (Nat.le_of_lt_succ h2) h1
    subst this
    rfl

theorem test_premises_MemReadAndMemWrite :
    (0 < [(1 : Byte), 2].length ∧ 1 < [(1 : Byte), 2].length) ∧ (4 < 5 ∨ 5 + [(1 : Byte), 2].length ≤ 4) ∧
    (7 < 5 ∨ 5 + [(1 : Byte), 2].length ≤ 7) := by
  decide

/-- The state right after reset is running: the one hypothesis of the result statements of the register commands
(HostMoveResults, FieldByteCommandResults, FieldWordCommandResults, TransformationCommandResults). -/
theorem test_premises_running : State.reset.running ∧ (regs 7 9).running ∧ (withS gridP).running := ⟨rfl, rfl, rfl⟩

/-- The edges of the unassigned ranges. -/
theorem test_premises_ControlRegisterReads :
    State.reset.running ∧ ∀ n ∈ [0x007, 0x00F, 0x01C, 0x03F, 0x07C, 0xFFF],
      (0x007 ≤ n ∧ n ≤ 0x00F) ∨ (0x01C ≤ n ∧ n ≤ 0x03F) ∨ 0x07C ≤ n := ⟨rfl, by decide⟩

/-- The edges of the read-only and unassigned ranges. -/
theorem test_premises_ControlRegisterWrites :
    State.reset.running ∧ ∀ n ∈ [0x003, 0x00F, 0x018, 0x07B, 0xFFF], (0x003 ≤ n ∧ n ≤ 0x00F) ∨ 0x018 ≤ n :=
  ⟨rfl, by decide⟩

/-- Two units whose registers agree in their low bytes only. -/
theorem test_premises_ByteCommandsIgnoreHighBits :
    (regs 0x12345657 0x83).running ∧ (regs 0x57 0xFFFFFF83).running ∧ (Instr.gfmul 3 1 2).destReg = some 3 ∧
    (Instr.gfmul 3 1 2).opcode ∈ ([.gfadd, .gfmul, .xtime, .sbox, .isbox] : List Opcode) ∧
    ∀ r : Reg, (regs 0x12345657 0x83).x[r].extractLsb' 0 8 = (regs 0x57 0xFFFFFF83).x[r].extractLsb' 0 8 := by
  exact ⟨rfl, rfl, by decide, by decide, by decide +kernel⟩

theorem test_premises_FieldByteLaws : (0x53 : Byte) ≠ 0x00 ∧ gfMul 0x53 0xca = 0x01 := by decide +kernel

theorem test_premises_SboxIsTheAffineInverse :
    ((0x00 : Byte) = 0x00 ∧ (0x00 : Byte) = 0x00) ∧ gfMul 0x53 0xca = 0x01 ∧ gfMul 0x01 0x01 = 0x01 := by decide +kernel

theorem test_premises_BlockSerialization : (toBlock gridP).length = 16 := by decide

/-- The last block that fits, and the next one. -/
theorem test_premises_BlockLoads :
    (buffers 0 0xFF0 0 0).running ∧ (buffers 0 0xFF0 0 0).SRC.toNat + 16 ≤ (buffers 0 0xFF0 0 0).memSize ∧
    (buffers 0 0xFF1 0 0).running ∧ (buffers 0 0xFF1 0 0).memSize < (buffers 0 0xFF1 0 0).SRC.toNat + 16 := by
  exact ⟨rfl, by decide, rfl, by decide⟩

theorem test_premises_StsStoresTheState :
    (buffers 0 0 0xFF0 0).running ∧ (buffers 0 0 0xFF0 0).DST.toNat + 16 ≤ (buffers 0 0 0xFF0 0).memSize ∧
    (buffers 0 0 0xFF1 0).running ∧ (buffers 0 0 0xFF1 0).memSize < (buffers 0 0 0xFF1 0).DST.toNat + 16 := by
  exact ⟨rfl, by decide, rfl, by decide⟩

theorem test_premises_AddrkAddsTheRoundKey :
    (buffers 8 0 0 0).running ∧ 4 * 1 + 4 ≤ (buffers 8 0 0 0).RKLEN ∧ (buffers 8 0 0 0).RKLEN < 4 * 2 + 4 ∧
    (buffers 7 0 0 0).RKLEN < 4 * 1 + 4 ∧ (buffers 8 0 0 0).RKLEN < 4 * 4095 + 4 := by
  exact ⟨rfl, by decide⟩

theorem test_premises_KexpInstallsTheExpandedKey :
    (buffers 0 0xFE0 0 0).running ∧ (∀ nk ∈ [0, 5, 7, 9, 4095], nk ≠ 4 ∧ nk ≠ 6 ∧ nk ≠ 8) ∧
    (buffers 0 0xFE0 0 0).SRC.toNat + 4 * 8 ≤ (buffers 0 0xFE0 0 0).memSize ∧
    (buffers 0 0xFE1 0 0).memSize < (buffers 0 0xFE1 0 0).SRC.toNat + 4 * 8 := by
  exact ⟨rfl, by decide, by decide, by decide⟩

theorem test_premises_LdrkInstallsWordsFromMemory :
    (buffers 0 0xF10 0 0).running ∧ 60 < 61 ∧ 60 < 4095 ∧
    (60 ≤ 60 ∧ (buffers 0 0xF10 0 0).SRC.toNat + 4 * 60 ≤ (buffers 0 0xF10 0 0).memSize) ∧
    (1 ≤ 60 ∧ 1 ≠ 0 ∧ (buffers 0 0xFFD 0 0).memSize < (buffers 0 0xFFD 0 0).SRC.toNat + 4 * 1) := by
  exact ⟨rfl, by decide, by decide, by decide, by decide⟩

/-- The schedule lengths of ENC and DEC (EncEqualsItsTransformationCommands, DecEqualsItsTransformationCommands,
DecAndEncUndoEachOther): the shortest and the longest valid ones, and invalid ones beside them. -/
theorem test_premises_schedule_lengths :
    (∀ l ∈ [8, 44, 60], (buffers l 0 0 0).running ∧ (buffers l 0 0 0).RKLEN % 4 = 0 ∧ 4 < (buffers l 0 0 0).RKLEN) ∧
    ∀ l ∈ [0, 4, 5, 7, 9, 43], (buffers l 0 0 0).running ∧
      ((buffers l 0 0 0).RKLEN % 4 ≠ 0 ∨ (buffers l 0 0 0).RKLEN ≤ 4) := by
  decide

theorem test_premises_PseudoInstructionsExpand :
    (buffers 8 0xFF0 0xFF0 0).running ∧ (buffers 8 0xFF0 0xFF0 0).RKLEN % 4 = 0 ∧ 4 < (buffers 8 0xFF0 0xFF0 0).RKLEN ∧
    (buffers 8 0xFF0 0xFF0 0).SRC.toNat + 16 ≤ (buffers 8 0xFF0 0xFF0 0).memSize ∧
    (buffers 8 0xFF0 0xFF0 0).DST.toNat + 16 ≤ (buffers 8 0xFF0 0xFF0 0).memSize := by
  exact ⟨rfl, by decide, by decide, by decide, by decide⟩

/-- ADDRK 1 with eight words installed; the word at index 8 differs. -/
theorem test_premises_WordsAboveRklenAreNeverRead :
    (Instr.addrk 1).opcode ∈ ([.addrk, .enc, .dec, .cbcenc, .cbcdec, .ctr] : List Opcode) ∧
    (∀ k < (buffers 8 0 0 0).RKLEN,
      rkWord ((buffers 8 0 0 0).RK.set 8 ⟨1, 2, 3, 4⟩) k = rkWord (buffers 8 0 0 0).RK k) ∧
    ∃ t, exec (.addrk 1) (buffers 8 0 0 0) = .next t := by
  refine ⟨by decide, by decide +kernel, ?_⟩
  obtain ⟨t, h, _⟩ := exists_of_gives (r := exec (.addrk 1) (buffers 8 0 0 0)) (p := fun _ => true) (by decide +kernel)
  exact ⟨t, h⟩

/-- No 0xff byte at the end, and fifteen of them. -/
theorem test_premises_CounterIncrementByteByByte :
    ((List.replicate 15 (0x00 : Byte)).length + 1 + 0 = 16 ∧ (0x00 : Byte) ≠ 0xFF) ∧
    (([] : List Byte).length + 1 + 15 = 16 ∧ (0xFE : Byte) ≠ 0xFF) ∧ (toBlock gridP).length = 16 := by
  decide

/-- CBCENC and PAD of sixteen bytes at 0 (section 2.6): DST = 0x10 touches, 0x0f overlaps, 0xff0 is too high, 0xfe0 is the
last that fits; the schedule is checked first. Of no byte, from any address: DST = 0xff0 is the last that fits and 0xff1 is
too high (CbcencEncryptsThePaddedMessage, PadWritesThePaddedMessage). -/
theorem test_premises_padded_commands :
    ¬ ((buffers 4 0 0x10 16).RKLEN % 4 = 0 ∧ 4 < (buffers 4 0 0x10 16).RKLEN) ∧
    (let s := buffers 8 0 0xFF0 16
     s.running ∧ (s.RKLEN % 4 = 0 ∧ 4 < s.RKLEN) ∧ ¬ ((16 = 0 ∨ s.SRC.toNat + 16 ≤ s.memSize) ∧ s.DST.toNat + 32 ≤ s.memSize)) ∧
    (let s := buffers 8 0 0x0F 16
     s.running ∧ (s.RKLEN % 4 = 0 ∧ 4 < s.RKLEN) ∧ ((16 = 0 ∨ s.SRC.toNat + 16 ≤ s.memSize) ∧ s.DST.toNat + 32 ≤ s.memSize) ∧
       ¬ (16 = 0 ∨ s.SRC.toNat + 16 ≤ s.DST.toNat ∨ s.DST.toNat + 32 ≤ s.SRC.toNat)) ∧
    (let s := buffers 8 0 0x10 16
     s.running ∧ (s.RKLEN % 4 = 0 ∧ 4 < s.RKLEN) ∧ ((16 = 0 ∨ s.SRC.toNat + 16 ≤ s.memSize) ∧ s.DST.toNat + 32 ≤ s.memSize) ∧
       (16 = 0 ∨ s.SRC.toNat + 16 ≤ s.DST.toNat ∨ s.DST.toNat + 32 ≤ s.SRC.toNat)) ∧
    (let s := buffers 8 0 0xFE0 16
     s.running ∧ (s.RKLEN % 4 = 0 ∧ 4 < s.RKLEN) ∧ ((16 = 0 ∨ s.SRC.toNat + 16 ≤ s.memSize) ∧ s.DST.toNat + 32 ≤ s.memSize) ∧
       (16 = 0 ∨ s.SRC.toNat + 16 ≤ s.DST.toNat ∨ s.DST.toNat + 32 ≤ s.SRC.toNat)) ∧
    (let s := buffers 8 0xFFFFFFFF 0xFF0 0
     s.running ∧ (s.RKLEN % 4 = 0 ∧ 4 < s.RKLEN) ∧
       ((s.LEN.toNat = 0 ∨ s.SRC.toNat + s.LEN.toNat ≤ s.memSize) ∧ s.DST.toNat + 16 * (s.LEN.toNat / 16 + 1) ≤ s.memSize) ∧
       (s.LEN.toNat = 0 ∨ s.SRC.toNat + s.LEN.toNat ≤ s.DST.toNat ∨
         s.DST.toNat + 16 * (s.LEN.toNat / 16 + 1) ≤ s.SRC.toNat)) ∧
    (let s := buffers 8 0xFFFFFFFF 0xFF1 0
     s.running ∧ (s.RKLEN % 4 = 0 ∧ 4 < s.RKLEN) ∧
       ¬ ((s.LEN.toNat = 0 ∨ s.SRC.toNat + s.LEN.toNat ≤ s.memSize) ∧
         s.DST.toNat + 16 * (s.LEN.toNat / 16 + 1) ≤ s.memSize)) ∧
    (buffers 8 0 0x10 16).memSize ≤ Config.maxMemSize := by
  decide +kernel

/-- CBCDEC and CTR of sixteen bytes (CbcdecDecryptsAndTrustsTheLastByte, CtrXorsTheKeystream): a length of 15 (no multiple
of 16), of 0 and of 16; the ranges at the end of memory and past it; touching and overlapping. -/
theorem test_premises_unpadded_commands :
    (buffers 8 0 0x10 15).LEN.toNat % 16 ≠ 0 ∧
    ((buffers 4 0 0x10 16).LEN.toNat % 16 = 0 ∧ ¬ ((buffers 4 0 0x10 16).RKLEN % 4 = 0 ∧ 4 < (buffers 4 0 0x10 16).RKLEN)) ∧
    (let s := buffers 8 0 0xFF1 16
     s.running ∧ (s.RKLEN % 4 = 0 ∧ 4 < s.RKLEN) ∧ s.LEN.toNat % 16 = 0 ∧
       ¬ (s.LEN.toNat = 0 ∨ s.SRC.toNat + s.LEN.toNat ≤ s.memSize ∧ s.DST.toNat + s.LEN.toNat ≤ s.memSize)) ∧
    (let s := buffers 8 0 0x0F 16
     (s.LEN.toNat = 0 ∨ s.SRC.toNat + s.LEN.toNat ≤ s.memSize ∧ s.DST.toNat + s.LEN.toNat ≤ s.memSize) ∧
       ¬ (s.LEN.toNat = 0 ∨ s.SRC.toNat + s.LEN.toNat ≤ s.DST.toNat ∨ s.DST.toNat + s.LEN.toNat ≤ s.SRC.toNat)) ∧
    ((buffers 8 0 0 0).LEN.toNat = 0 ∧ (buffers 8 0 0 0).running) ∧
    (let s := buffers 8 0 0x10 16
     s.running ∧ (s.RKLEN % 4 = 0 ∧ 4 < s.RKLEN) ∧ s.LEN.toNat % 16 = 0 ∧ 0 < s.LEN.toNat ∧
       (s.LEN.toNat = 0 ∨ s.SRC.toNat + s.LEN.toNat ≤ s.memSize ∧ s.DST.toNat + s.LEN.toNat ≤ s.memSize) ∧
       (s.LEN.toNat = 0 ∨ s.SRC.toNat + s.LEN.toNat ≤ s.DST.toNat ∨ s.DST.toNat + s.LEN.toNat ≤ s.SRC.toNat)) ∧
    (let s := buffers 8 0 0xFF0 16
     s.running ∧ (s.RKLEN % 4 = 0 ∧ 4 < s.RKLEN) ∧ s.LEN.toNat % 16 = 0 ∧ 0 < s.LEN.toNat ∧
       (s.LEN.toNat = 0 ∨ s.SRC.toNat + s.LEN.toNat ≤ s.memSize ∧ s.DST.toNat + s.LEN.toNat ≤ s.memSize) ∧
       (s.LEN.toNat = 0 ∨ s.SRC.toNat + s.LEN.toNat ≤ s.DST.toNat ∨ s.DST.toNat + s.LEN.toNat ≤ s.SRC.toNat)) := by
  decide +kernel

/-- V10's buffer under V5's schedule, with an initialization vector whose last byte is given. V10's S ends in 04, so the
last output byte is `04 ^ b`: 10 (the whole buffer is padding) for b = 14, and 11, above LEN, for b = 15. -/
def trusted (b : Byte) : State :=
  keyed ⟨⟨0, 0, 0, 0⟩, ⟨0, 0, 0, 0⟩, ⟨0, 0, 0, 0⟩, ⟨0, 0, 0, b⟩⟩ 0x40 16
    (toBlock (gridOfPacked 0xfc4e79e8 0x0d888771 0x6fa2f858 0x0991cd24))

/-- The two ends of CbcdecDecryptsAndTrustsTheLastByte: a last output byte equal to LEN, and one above it (section 2.6: the
Pad error, and the decrypted bytes are in memory all the same). -/
theorem test_premises_cbcdec_last_byte :
    gives (exec .cbcdec (trusted 0x14)) (fun t => Memory.readByte t.MEM (0x40 + 16 - 1) == 0x10 && t.OUTLEN == 0 &&
      t.ERR == 0 && t.rsp == some ⟨.ok, 0, 0⟩) = true ∧
    gives (exec .cbcdec (trusted 0x15)) (fun t => Memory.readByte t.MEM (0x40 + 16 - 1) == 0x11 &&
      Memory.readByte t.MEM 0x40 == 0x6b && t.OUTLEN == 0 && t.ERR == 2 && t.rsp == some ⟨.err, 2, 0⟩) = true := by
  decide +kernel

/-- CBCENC of the empty message, the schedule one of zero words, then the 16 bytes of output at DST decrypted to 0x20. -/
theorem test_premises_ChainedRoundTripRestoresTheMessage :
    (buffers 8 0 0 0).running ∧ (buffers 8 0 0 0).memSize ≤ Config.maxMemSize ∧
    ∃ t, exec .cbcenc (buffers 8 0 0 0) = .next t ∧ (t.FAULT = false ∧
      (0x20 : RegVal).toNat + t.OUTLEN.toNat ≤ (buffers 8 0 0 0).memSize ∧
      (buffers 8 0 0 0).DST.toNat + t.OUTLEN.toNat ≤ (0x20 : RegVal).toNat) := by
  refine ⟨rfl, by decide, ?_⟩
  obtain ⟨t, h, ht⟩ := exists_of_gives (r := exec .cbcenc (buffers 8 0 0 0))
    (p := fun t => decide (t.FAULT = false ∧ (0x20 : RegVal).toNat + t.OUTLEN.toNat ≤ (buffers 8 0 0 0).memSize ∧
      (buffers 8 0 0 0).DST.toNat + t.OUTLEN.toNat ≤ (0x20 : RegVal).toNat)) (by decide +kernel)
  exact ⟨t, h, of_decide_eq_true ht⟩

/-- CTR of one byte at 0 to 1, and then back to 2; and of no byte. -/
theorem test_premises_CounterModeTwiceRestoresTheMessage :
    (∃ t, exec .ctr { withBytes 0 [5] with RKLEN := 8, DST := 1, LEN := 1 } = .next t ∧ t.FAULT = false) ∧
    ((2 : RegVal).toNat + (1 : RegVal).toNat ≤ 0x1000 ∧ (1 : RegVal).toNat + (1 : RegVal).toNat ≤ (2 : RegVal).toNat) ∧
    (buffers 8 0 0 0).LEN = 0 := by
  refine ⟨?_, by decide, rfl⟩
  obtain ⟨t, h, ht⟩ := exists_of_gives (r := exec .ctr { withBytes 0 [5] with RKLEN := 8, DST := 1, LEN := 1 })
    (p := fun t => !t.FAULT) (by decide +kernel)
  exact ⟨t, h, by simpa using ht⟩

theorem test_premises_ModeCommandsIgnoreTheOldCursor :
    Instr.opcode .ctr ∈ ([.cbcenc, .cbcdec, .ctr] : List Opcode) ∧ (buffers 8 0 0 0).running ∧
    (∃ t, exec .ctr (buffers 8 0 0 0) = .next t ∧ t.FAULT = false) ∧ (buffers 8 0 0 0).LEN.toNat % 16 = 0 := by
  refine ⟨by decide, rfl, ?_, by decide⟩
  obtain ⟨t, h, ht⟩ := exists_of_gives (r := exec .ctr (buffers 8 0 0 0)) (p := fun t => !t.FAULT) (by decide +kernel)
  exact ⟨t, h, by simpa using ht⟩

theorem test_premises_PaddedBlocksComeFromMemory : 0 < 0 / 16 + 1 ∧ 1 < 16 / 16 + 1 ∧ 0 < 15 / 16 + 1 := by decide

/-- UNPAD: nothing to unpad; one byte past the end; a pad length equal to the length, and one larger. -/
theorem test_premises_UnpadReportsTheLength :
    (buffers 0 0 0 0).LEN.toNat = 0 ∧
    ((buffers 0 0xFF1 0 16).running ∧ 0 < (buffers 0 0xFF1 0 16).LEN.toNat ∧
      (buffers 0 0xFF1 0 16).memSize < (buffers 0 0xFF1 0 16).SRC.toNat + (buffers 0 0xFF1 0 16).LEN.toNat) ∧
    (let s : State := { withBytes 0xFFF [0x10] with SRC := 0xFF0, LEN := 16 }
     s.running ∧ 0 < s.LEN.toNat ∧ s.SRC.toNat + s.LEN.toNat ≤ s.memSize ∧
       (Memory.readByte s.MEM (s.SRC.toNat + s.LEN.toNat - 1)).toNat ≤ s.LEN.toNat) ∧
    (let s : State := { withBytes 0xFFF [0x11] with SRC := 0xFF0, LEN := 16 }
     s.running ∧ 0 < s.LEN.toNat ∧ s.SRC.toNat + s.LEN.toNat ≤ s.memSize ∧
       s.LEN.toNat < (Memory.readByte s.MEM (s.SRC.toNat + s.LEN.toNat - 1)).toNat) := by
  decide +kernel

end Sys2Proof.Tests
end

namespace Sys2Proof.Machine

/-! ### The invariant under the updates of the state

The invariant speaks of MEM_SIZE, MEM, RKLEN, ERR, the fault latch and the last response; an update of any other field
keeps it field by field, which is `{ h with }` below. -/

theorem State.setReg_inv (s : State) (r : Reg) (v : RegVal) (h : s.Inv) : (s.setReg r v).Inv := { h with }

theorem State.writeCsr_inv (s : State) (r : Csr) (v : RegVal) (h : s.Inv) : (s.writeCsr r v).Inv := by
  rw [State.writeCsr_frame]; exact { h with }

/-- An OK response has code 0 (R98). -/
theorem State.respondOk_inv (s : State) (res : RegVal) (h : s.Inv) : (s.respond ⟨.ok, 0, res⟩).Inv :=
  { h with
    rsp_ok := by rintro _ ⟨⟩ _; rfl
    rsp_err := by rintro _ ⟨⟩ ⟨⟩
    rsp_fault := by rintro _ ⟨⟩ ⟨⟩ }

/-- The refusal repeats the latched cause (R305). -/
theorem State.refuse_inv (s : State) (h : s.Inv) (hf : s.FAULT = true) : s.refuse.Inv :=
  { h with
    rsp_ok := by rintro _ ⟨⟩ ⟨⟩
    rsp_err := by rintro _ ⟨⟩ ⟨⟩
    rsp_fault := by rintro _ ⟨⟩ _; exact ⟨hf, rfl, rfl⟩ }

/-- A fault latches a cause of R303, and its response carries that cause (R304). -/
theorem State.latchFault_inv (s : State) (c : Cause) (w : RegVal) (h : s.Inv) : (s.latchFault c w).Inv :=
  { h with
    latch_clear := nofun
    latch_set := fun _ => c.code_bounds
    rsp_ok := by rintro _ ⟨⟩ ⟨⟩
    rsp_err := by rintro _ ⟨⟩ ⟨⟩
    rsp_fault := by rintro _ ⟨⟩ _; exact ⟨rfl, rfl, rfl⟩ }

/-- A reported error puts one of the codes of R311 into ERR and into the response (R310). -/
theorem State.reportError_inv (s : State) (e : DataError) (h : s.Inv) : (s.reportError e).Inv :=
  { h with
    err_ne := e.bits_ne
    rsp_ok := by rintro _ ⟨⟩ ⟨⟩
    rsp_err := by rintro _ ⟨⟩ _; exact ⟨e.code_cases, rfl⟩
    rsp_fault := by rintro _ ⟨⟩ ⟨⟩ }

/-- Reset clears all but MEM and MEM_SIZE, whose clauses it therefore keeps (R350). -/
theorem State.resetUnit_inv (s : State) (h : s.Inv) : s.resetUnit.Inv :=
  { h with
    rklen_le := Nat.zero_le _
    err_ne := by simp
    latch_clear := fun _ => ⟨rfl, rfl⟩
    latch_set := nofun
    rsp_ok := nofun
    rsp_err := nofun
    rsp_fault := nofun }

/-- A store inside MEM_SIZE keeps the memory's canonical form and its bounds. -/
theorem State.writeBytes_inv (s : State) (a : Nat) (v : List Byte) (h : s.Inv) (hr : inRange s.memSize a v.length) :
    ({ s with MEM := Memory.writeBytes s.MEM a v } : State).Inv :=
  { h with
    mem_wf := Memory.writeBytes_wf _ _ _ h.mem_wf
    mem_inside := Memory.writeBytes_inside _ _ _ _ h.mem_inside (hr.imp_left List.eq_nil_of_length_eq_zero) }

/-- A schedule that fits the round-key memory keeps the bound of RKLEN (R29). -/
theorem State.installSchedule_inv (s : State) (rk : Vector FieldWord Config.rkWords) (l : Nat) (h : s.Inv)
    (hl : l ≤ Config.rkWords) : ({ s with RK := rk, RKLEN := l } : State).Inv :=
  { h with rklen_le := hl }

/-! ### Results whose next state meets the invariant -/

/-- Whatever next state the result answers meets the invariant. -/
def KeepsInv (r : Result) : Prop := ∀ t, r = .next t → t.Inv

theorem keepsInv_next {s : State} (h : s.Inv) : KeepsInv (.next s) := by
  rintro _ ⟨⟩; exact h

theorem keepsInv_done {s : State} (h : s.Inv) : KeepsInv (done s) := keepsInv_next (s.respondOk_inv 0 h)

theorem keepsInv_doneWith {s : State} (res : RegVal) (h : s.Inv) : KeepsInv (doneWith res s) :=
  keepsInv_next (s.respondOk_inv res h)

theorem keepsInv_raise {s : State} (c : Cause) (w : RegVal) (h : s.Inv) : KeepsInv (raise c w s) :=
  keepsInv_next (s.latchFault_inv c w h)

theorem keepsInv_reportError {s : State} (e : DataError) (h : s.Inv) : KeepsInv (reportError e s) :=
  keepsInv_next (s.reportError_inv e h)

theorem keepsInv_whenRunning {s : State} {r : Result} (h : s.Inv) (hr : KeepsInv r) : KeepsInv (whenRunning s r) := by
  intro t ht
  rcases whenRunning_next s t r ht with ⟨hf, rfl⟩ | ⟨_, hn⟩
  · exact s.refuse_inv h hf
  · exact hr t hn

/-- A check that raises a fault: past it, its condition is known to be false. -/
theorem keepsInv_check {s : State} {p : Prop} [Decidable p] {c : Cause} {w : RegVal} {r : Result} (h : s.Inv)
    (hr : ¬ p → KeepsInv r) : KeepsInv (if p then raise c w s else r) := by
  split
  · exact keepsInv_raise c w h
  · exact hr ‹_›

theorem keepsInv_writeCsrOrRaise {s : State} (csr : Nat) (v w : RegVal) (h : s.Inv) :
    KeepsInv (writeCsrOrRaise csr v w s) := by
  rcases writeCsrOrRaise_cases csr v w s with ⟨r, _, _, e⟩ | e <;> rw [e]
  · exact keepsInv_done (s.writeCsr_inv r v h)
  · exact keepsInv_raise _ w h

theorem keepsInv_finishUnpad {s : State} (addr n : Nat) (h : s.Inv) : KeepsInv (finishUnpad addr n s) := by
  rcases finishUnpad_cases addr n s with e | ⟨l, _, _, e⟩ <;> rw [e]
  · exact keepsInv_next (s.reportError_inv .pad h)
  · exact keepsInv_done { h with err_ne := by simp }

theorem keepsInv_hostStore {s : State} (addr : Nat) (v : List Byte) (h : s.Inv) : KeepsInv (hostStore addr v s) := by
  rcases hostStore_cases addr v s with ⟨hr, e⟩ | ⟨_, e⟩ <;> rw [e]
  · exact keepsInv_next (s.writeBytes_inv addr v h hr)
  · exact nofun

/-! ### The loops of the mode commands and of PAD -/

theorem cbcEncBlock_inv (src dst n i : Nat) (s : State) (h : s.Inv) (hr : dst + 16 * i + 16 ≤ s.memSize) :
    (cbcEncBlock src dst n i s).Inv :=
  { s.writeBytes_inv (dst + 16 * i) (toBlock (cbcEncBlock src dst n i s).CUR) h (.inr hr) with }

theorem cbcDecBlock_inv (src dst i : Nat) (s : State) (h : s.Inv) (hr : dst + 16 * i + 16 ≤ s.memSize) :
    (cbcDecBlock src dst i s).Inv :=
  { s.writeBytes_inv (dst + 16 * i) (xorBytes (toBlock (cbcDecBlock src dst i s).S) (toBlock s.CUR)) h
      (.inr (by simpa using hr)) with }

theorem ctrChunk_inv (src dst n i : Nat) (s : State) (h : s.Inv) (hi : 16 * i < n) (hr : dst + n ≤ s.memSize) :
    (ctrChunk src dst n i s).Inv := by
  have hstore := s.writeBytes_inv (dst + 16 * i)
    (xorBytes (Memory.readBytes s.MEM (src + 16 * i) (min 16 (n - 16 * i)))
      ((toBlock (ctrChunk src dst n i s).S).take (min 16 (n - 16 * i)))) h
    (.inr (by simp only [xorBytes_length, Memory.readBytes_length]; omega))
  exact { hstore with }

/-- A mode command's loop keeps the invariant when each of its block steps does, MEM_SIZE being the loop's own. -/
theorem forLoop_inv (body : Nat → State → State) (n : Nat) (s : State) (g : Grid) (h : s.Inv)
    (hframe : ∀ i u, State.sameButBlocks u (body i u))
    (hbody : ∀ i < n, ∀ u : State, u.Inv → u.memSize = s.memSize → (body i u).Inv) :
    (forLoop body n { s with CUR := g }).Inv := by
  have hboth : (forLoop body n { s with CUR := g }).Inv ∧
      (forLoop body n { s with CUR := g }).memSize = s.memSize := by
    refine forLoop_induct body n _ (fun _ u => u.Inv ∧ u.memSize = s.memSize) ⟨{ h with }, rfl⟩ ?_
    rintro i hi u ⟨hu, hsize⟩
    obtain ⟨_, _, _, hkeep, _⟩ := State.sameButBlocks_latch _ _ (hframe i u)
    exact ⟨hbody i hi u hu hsize, hkeep.trans hsize⟩
  exact hboth.1

/-- The padded blocks PAD stores, one after another, keep the invariant. -/
theorem padLoop_inv (src dst n : Nat) (s : State) (h : s.Inv) (hr : dst + 16 * blockCount n ≤ s.memSize) :
    ({ s with
      MEM := forLoop (fun i m => Memory.writeBytes m (dst + 16 * i) (padBlockAt m src n i)) (blockCount n) s.MEM }
      : State).Inv := by
  refine forLoop_induct _ (blockCount n) s.MEM (fun _ m => ({ s with MEM := m } : State).Inv) h fun i hi m hm => ?_
  refine State.writeBytes_inv { s with MEM := m } _ _ hm (.inr ?_)
  rw [padBlockAt_length m src n i hi]
  change dst + 16 * i + 16 ≤ s.memSize
  omega

/-! ### The commands that write memory in a loop -/

theorem execCbcenc_keepsInv (s : State) (h : s.Inv) : KeepsInv (execCbcenc s) := by
  refine keepsInv_whenRunning h (keepsInv_check h fun _ => keepsInv_check h fun hrange => keepsInv_check h fun _ => ?_)
  have hloop := forLoop_inv (cbcEncBlock s.SRC.toNat s.DST.toNat s.LEN.toNat) (blockCount s.LEN.toNat) s s.IV h
    (cbcEncBlock_frame _ _ _) fun i hi u hu hsize => cbcEncBlock_inv _ _ _ i u hu (by omega)
  exact keepsInv_done { hloop with }

theorem execCbcdec_keepsInv (s : State) (h : s.Inv) : KeepsInv (execCbcdec s) := by
  refine keepsInv_whenRunning h ?_
  split
  · exact keepsInv_reportError .format h
  refine keepsInv_check h fun _ => keepsInv_check h fun hrange => keepsInv_check h fun _ => keepsInv_finishUnpad _ _ ?_
  exact forLoop_inv (cbcDecBlock s.SRC.toNat s.DST.toNat) (s.LEN.toNat / 16) s s.IV h
    (cbcDecBlock_frame _ _) fun i hi u hu hsize => cbcDecBlock_inv _ _ i u hu (by omega)

theorem execCtr_keepsInv (s : State) (h : s.Inv) : KeepsInv (execCtr s) := by
  refine keepsInv_whenRunning h (keepsInv_check h fun _ => keepsInv_check h fun hrange => keepsInv_check h fun _ => ?_)
  have hloop := forLoop_inv (ctrChunk s.SRC.toNat s.DST.toNat s.LEN.toNat) (chunkCount s.LEN.toNat) s s.IV h
    (ctrChunk_frame _ _ _) fun i hi u hu hsize => by
      have hi : 16 * i < s.LEN.toNat := by unfold chunkCount at hi; omega
      exact ctrChunk_inv _ _ _ i u hu hi (by omega)
  exact keepsInv_done { hloop with }

theorem execPad_keepsInv (s : State) (h : s.Inv) : KeepsInv (execPad s) := by
  refine keepsInv_whenRunning h (keepsInv_check h fun hrange => keepsInv_check h fun _ => ?_)
  have hpos : 0 < blockCount s.LEN.toNat := Nat.succ_pos _
  have hloop := padLoop_inv s.SRC.toNat s.DST.toNat s.LEN.toNat s h (by omega)
  exact keepsInv_done { hloop with }

/-! ### Every command and every step -/

theorem exec_keepsInv (i : Instr) (s : State) (h : s.Inv) : KeepsInv (exec i s) := by
  cases i
  case cbcenc => exact execCbcenc_keepsInv s h
  case cbcdec => exact execCbcdec_keepsInv s h
  case ctr => exact execCtr_keepsInv s h
  case pad => exact execPad_keepsInv s h
  all_goals refine keepsInv_whenRunning h ?_
  case nop => exact keepsInv_done h
  case rd ra => exact keepsInv_doneWith _ h
  case li | mv | gfadd | gfmul | xtime | sbox | isbox | wadd | wmul | subw | rotw | wext | wins =>
    exact keepsInv_done (s.setReg_inv _ _ h)
  case csrr =>
    split
    · exact keepsInv_raise _ _ h
    · exact keepsInv_done (s.setReg_inv _ _ h)
  case csrrd =>
    split
    · exact keepsInv_raise _ _ h
    · exact keepsInv_doneWith _ h
  case csrw | csrwi => exact keepsInv_writeCsrOrRaise _ _ _ h
  case subbytes | isubbytes | shiftrows | ishiftrows | mixcols | imixcols => exact keepsInv_done { h with }
  case lds | ldiv | addrk | enc | dec => exact keepsInv_check h fun _ => keepsInv_done { h with }
  case sts => exact keepsInv_check h fun hrange => keepsInv_done (s.writeBytes_inv _ _ h (not_not.1 hrange))
  case kexp nk =>
    refine keepsInv_check h fun hnk => keepsInv_check h fun _ => keepsInv_done (s.installSchedule_inv _ _ h ?_)
    rcases not_not.1 hnk with rfl | rfl | rfl <;> decide
  case ldrk n =>
    exact keepsInv_check h fun hn => keepsInv_check h fun _ =>
      keepsInv_done (s.installSchedule_inv _ _ h (Nat.le_of_not_lt hn))
  case unpad => exact keepsInv_check h fun _ => keepsInv_finishUnpad _ _ h

theorem issue_keepsInv (I : Command) (s : State) (h : s.Inv) : KeepsInv (issue I s) := by
  refine keepsInv_whenRunning h ?_
  split
  · exact keepsInv_raise .illegalCmd I.word h
  · exact exec_keepsInv _ s h

/-- Taking an event off the host's list keeps the invariant, and so does what the event makes the unit do. -/
theorem step_keepsInv (s : State) (h : s.Inv) : KeepsInv (step s) := by
  have htaken : ∀ rest, ({ s with inbox := rest } : State).Inv := fun _ => { h with }
  cases hinbox : s.inbox with
  | nil => rw [step_idle s hinbox]; exact keepsInv_next h
  | cons event rest =>
    cases event with
    | command I => rw [step_command s I rest hinbox]; exact issue_keepsInv I _ (htaken rest)
    | store a v => rw [step_store s a v rest hinbox]; exact keepsInv_hostStore a.toNat v (htaken rest)
    | reset => rw [step_reset s rest hinbox]; exact keepsInv_next (State.resetUnit_inv _ (htaken rest))

/-- Settles O18, by the host's next event: a command keeps the invariant whichever way it ends (`exec_keepsInv`), a
store that lands is inside MEM_SIZE, and reset clears what it does not keep. -/
theorem stepKeepsTheInvariant : Obligations.StepKeepsTheInvariant :=
  fun s t h ht => step_keepsInv s h t ht

end Sys2Proof.Machine

namespace Sys2Proof.Machine

/-! ### Reset -/

/-- Reset gives every element but MEM its reset value (R51, R350). -/
theorem State.resetUnit_hasResetValues (s : State) : s.resetUnit.HasResetValues where
  x r := by simp [State.reg]
  S := rfl
  RK i := by simp
  RKLEN := rfl
  IV := rfl
  CUR := rfl
  SRC := rfl
  DST := rfl
  LEN := rfl
  OUTLEN := rfl
  ERR := rfl
  FAULT := rfl
  FCAUSE := rfl
  FINFO := rfl

/-- Settles O13: the run's first state is what reset makes of it (`State.resetUnit_hasResetValues`). -/
theorem resetStateHoldsTheResetValues : Obligations.ResetStateHoldsTheResetValues :=
  ⟨State.reset.resetUnit_hasResetValues, rfl, rfl, rfl⟩

/-- Settles O17: 0x1000 is a legal MEM_SIZE, no byte is listed, and neither a fault nor a response is there to speak of. -/
theorem resetStateMeetsTheInvariant : Obligations.ResetStateMeetsTheInvariant where
  memSize_pos := by decide
  memSize_le := by decide
  mem_wf := State.reset_mem_wf
  mem_inside := nofun
  rklen_le := Nat.zero_le _
  err_ne := by decide
  latch_clear _ := ⟨rfl, rfl⟩
  latch_set := nofun
  rsp_ok := nofun
  rsp_err := nofun
  rsp_fault := nofun

/-! ### A command and a store of the host -/

/-- A running unit executes the command a transaction decodes to (R20). -/
theorem issue_of_decode (I : Command) (i : Instr) (s : State) (hf : s.FAULT = false) (hd : decode I = .ok i) :
    issue I s = exec i s := by
  rw [issue, whenRunning_running _ _ hf, hd]

/-- Settles O6, by the step's own law for a command and `issue_of_decode`. -/
theorem stepRunsTheDecodedCommand : Obligations.StepRunsTheDecodedCommand := by
  intro s I rest i hinbox hf hd
  exact (step_command s I rest hinbox).trans (issue_of_decode I i _ hf hd)

/-- Settles O15: a store inside MEM_SIZE is one `Memory.writeBytes`, whose bytes are read back inside its range and which
leaves every byte outside alone; any other store stops the model (`hostStore_cases`). -/
theorem hostStoreWritesItsBytes : Obligations.HostStoreWritesItsBytes := by
  intro s addr bytes rest hinbox
  rw [step_store s addr bytes rest hinbox]
  rcases hostStore_cases addr.toNat bytes { s with inbox := rest } with
    ⟨(hin : inRange s.memSize addr.toNat bytes.length), e⟩ | ⟨hout, e⟩ <;> rw [e]
  · refine ⟨fun _ => ⟨_, rfl, rfl, ?_, ?_⟩, fun hne hlt => ?_⟩
    · exact fun k hk => Memory.readByte_writeBytes_inside _ _ _ k hk
    · exact fun a ha => Memory.readByte_writeBytes_outside _ _ _ a ha
    · have hpos := List.length_pos_of_ne_nil hne
      omega
  · exact ⟨fun h => absurd (h.imp_left (congrArg List.length)) hout, fun _ _ => rfl⟩

/-! ### The field-byte commands -/

theorem zextByte_toNat (b : Byte) : (zextByte b).toNat = b.toNat :=
  BitVec.toNat_setWidth_of_le (by decide)

/-- A field-byte command writes one byte, which is a function of the low bytes of the registers (R23). -/
theorem exec_fieldByte (i : Instr) (d : Reg) (hop : i.opcode ∈ [.gfadd, .gfmul, .xtime, .sbox, .isbox])
    (hd : i.destReg = some d) : ∃ f : (Reg → Byte) → Byte, ∀ s : State, s.running →
      exec i s = done (s.setReg d (zextByte (f fun r => lowByte (s.reg r)))) := by
  cases i
  case gfadd _ ra rb => cases hd; exact ⟨fun low => gfAdd (low ra) (low rb), fun s hf => whenRunning_running s _ hf⟩
  case gfmul _ ra rb => cases hd; exact ⟨fun low => gfMul (low ra) (low rb), fun s hf => whenRunning_running s _ hf⟩
  case xtime _ ra => cases hd; exact ⟨fun low => gfXtime (low ra), fun s hf => whenRunning_running s _ hf⟩
  case sbox _ ra => cases hd; exact ⟨fun low => sbox (low ra), fun s hf => whenRunning_running s _ hf⟩
  case isbox _ ra => cases hd; exact ⟨fun low => invSbox (low ra), fun s hf => whenRunning_running s _ hf⟩
  all_goals simp [Instr.opcode] at hop

/-- Settles O27: two states whose registers agree in their low bytes give `exec_fieldByte` the same byte to write. -/
theorem byteCommandsIgnoreHighBits : Obligations.ByteCommandsIgnoreHighBits := by
  intro i d s s' hop hd hf hf' hlow
  obtain ⟨f, hexec⟩ := exec_fieldByte i d hop hd
  have hsame : (fun r => lowByte (s.reg r)) = fun r => lowByte (s'.reg r) := funext hlow
  refine ⟨_, _, hexec s hf, hexec s' hf', ?_, ?_⟩
  · change (s.setReg d _).reg d = (s'.setReg d _).reg d
    rw [State.reg_setReg_self, State.reg_setReg_self, hsame]
  · change ((s.setReg d _).reg d).toNat < 256
    rw [State.reg_setReg_self, zextByte_toNat]
    exact BitVec.isLt _

/-! ### Which state a command writes (R21) -/

/-- The number of a control register (R36). -/
def Csr.number : Csr → Nat
  | .src => 0x000
  | .dst => 0x001
  | .len => 0x002
  | .outlen => 0x003
  | .nblk => 0x004
  | .err => 0x005
  | .rklen => 0x006
  | .s c => 0x010 + c.val
  | .iv c => 0x014 + c.val
  | .cur c => 0x018 + c.val
  | .rk i => 0x040 + i.val

theorem Csr.number_of_ofNumber (n : Nat) (r : Csr) (h : Csr.ofNumber n = some r) : r.number = n := by
  unfold Csr.ofNumber at h
  split at h
  case h_8 =>
    split_ifs at h <;> cases h <;> simp only [Csr.number] <;> omega
  all_goals cases h; rfl

/-- From `s` to `t` no state element changed that does not list the command as a writer (R21, column "written by"; the
fault latch apart, which every command can set). -/
structure OwnStateOnly (i : Instr) (s t : State) : Prop where
  reg : ∀ r : Reg, i.destReg ≠ some r → t.reg r = s.reg r
  S : i.writesS = false → t.S = s.S
  RK : i.writesRK = false → t.RK = s.RK ∧ t.RKLEN = s.RKLEN
  IV : i.writesIV = false → t.IV = s.IV
  CUR : i.writesCUR = false → t.CUR = s.CUR
  SRC : i.writesCsr 0x000 0x001 = false → t.SRC = s.SRC
  DST : i.writesCsr 0x001 0x002 = false → t.DST = s.DST
  LEN : i.writesCsr 0x002 0x003 = false → t.LEN = s.LEN
  OUTLEN : i.writesOUTLEN = false → t.OUTLEN = s.OUTLEN
  ERR : i.writesERR = false → t.ERR = s.ERR
  MEM : i.writesMEM = false → t.MEM = s.MEM

section
variable (i : Instr) (s : State)

theorem ownStateOnly_refl : OwnStateOnly i s s :=
  ⟨fun _ _ => rfl, fun _ => rfl, fun _ => ⟨rfl, rfl⟩, fun _ => rfl, fun _ => rfl, fun _ => rfl, fun _ => rfl,
    fun _ => rfl, fun _ => rfl, fun _ => rfl, fun _ => rfl⟩

theorem ownStateOnly_setReg (d : Reg) (v : RegVal) (hd : i.destReg = some d) : OwnStateOnly i s (s.setReg d v) :=
  { ownStateOnly_refl i s with
    reg := fun r hr => s.reg_setReg_ne r d v fun e => hr (e ▸ hd) }

/-- A write of a control register by the command that names it. -/
theorem ownStateOnly_writeCsr (r : Csr) (v : RegVal) (hn : i.csrWritten = some r.number) :
    OwnStateOnly i s (s.writeCsr r v) := by
  have hwrites : ∀ lo hi, i.writesCsr lo hi = decide (lo ≤ r.number ∧ r.number < hi) := fun lo hi => by
    simp only [Instr.writesCsr, hn]
  have hrefl := ownStateOnly_refl i s
  cases r with
  | src => exact { hrefl with SRC := by simp [hwrites, Csr.number] }
  | dst => exact { hrefl with DST := by simp [hwrites, Csr.number] }
  | len => exact { hrefl with LEN := by simp [hwrites, Csr.number] }
  | s c =>
    have hin : c.val + 0x010 < 0x014 := by omega
    exact { hrefl with S := by simp [Instr.writesS, hwrites, Csr.number, Nat.add_comm, hin] }
  | iv c =>
    have hin : c.val + 0x014 < 0x018 := by omega
    exact { hrefl with IV := by simp [Instr.writesIV, hwrites, Csr.number, Nat.add_comm, hin] }
  | outlen | nblk | err | rklen | cur c | rk k => exact hrefl

/-- The block steps of a command that writes S, MEM and CUR. -/
theorem ownStateOnly_blocks (t : State) (h : s.sameButBlocks t) (hS : i.writesS = true) (hMEM : i.writesMEM = true)
    (hCUR : i.writesCUR = true) : OwnStateOnly i s t := by
  rw [h]
  exact { ownStateOnly_refl i s with S := by simp [hS], MEM := by simp [hMEM], CUR := by simp [hCUR] }

/-- Whatever next state the result answers has changed in what the command writes only. -/
def WritesOwnOnly (r : Result) : Prop := ∀ t, r = .next t → OwnStateOnly i s t

end

section
variable {i : Instr} {s u : State}

/-! Updates of elements the command writes, after others of them. -/

theorem ownStateOnly_setS (h : OwnStateOnly i s u) (g : Grid) (hS : i.writesS = true) :
    OwnStateOnly i s { u with S := g } :=
  { h with S := by simp [hS] }

theorem ownStateOnly_setIV (h : OwnStateOnly i s u) (g : Grid) (hIV : i.writesIV = true) :
    OwnStateOnly i s { u with IV := g } :=
  { h with IV := by simp [hIV] }

theorem ownStateOnly_setMEM (h : OwnStateOnly i s u) (m : Memory) (hMEM : i.writesMEM = true) :
    OwnStateOnly i s { u with MEM := m } :=
  { h with MEM := by simp [hMEM] }

theorem ownStateOnly_setOutput (h : OwnStateOnly i s u) (m : Memory) (v : RegVal) (hMEM : i.writesMEM = true)
    (hOUTLEN : i.writesOUTLEN = true) : OwnStateOnly i s { u with MEM := m, OUTLEN := v } :=
  { h with MEM := by simp [hMEM], OUTLEN := by simp [hOUTLEN] }

theorem ownStateOnly_installSchedule (h : OwnStateOnly i s u) (rk : Vector FieldWord Config.rkWords) (l : Nat)
    (hRK : i.writesRK = true) : OwnStateOnly i s { u with RK := rk, RKLEN := l } :=
  { h with RK := by simp [hRK] }

/-! How a command ends. -/

theorem writesOwnOnly_done (h : OwnStateOnly i s u) : WritesOwnOnly i s (done u) := by
  rintro _ ⟨⟩; exact { h with }

theorem writesOwnOnly_doneWith (res : RegVal) : WritesOwnOnly i s (doneWith res s) := by
  rintro _ ⟨⟩; exact { ownStateOnly_refl i s with }

theorem writesOwnOnly_raise (c : Cause) (w : RegVal) : WritesOwnOnly i s (raise c w s) := by
  rintro _ ⟨⟩; exact { ownStateOnly_refl i s with }

theorem writesOwnOnly_reportError (e : DataError) (h : OwnStateOnly i s u) (hOUTLEN : i.writesOUTLEN = true)
    (hERR : i.writesERR = true) : WritesOwnOnly i s (reportError e u) := by
  rintro _ ⟨⟩; exact { h with OUTLEN := by simp [hOUTLEN], ERR := by simp [hERR] }

theorem writesOwnOnly_finishUnpad (addr n : Nat) (h : OwnStateOnly i s u) (hOUTLEN : i.writesOUTLEN = true)
    (hERR : i.writesERR = true) : WritesOwnOnly i s (finishUnpad addr n u) := by
  rcases finishUnpad_cases addr n u with e | ⟨l, _, _, e⟩ <;> rw [e]
  · exact writesOwnOnly_reportError .pad h hOUTLEN hERR
  · exact writesOwnOnly_done { h with OUTLEN := by simp [hOUTLEN], ERR := by simp [hERR] }

theorem writesOwnOnly_whenRunning {r : Result} (h : WritesOwnOnly i s r) : WritesOwnOnly i s (whenRunning s r) := by
  intro t ht
  rcases whenRunning_next s t r ht with ⟨_, rfl⟩ | ⟨_, hr⟩
  · exact { ownStateOnly_refl i s with }
  · exact h t hr

theorem writesOwnOnly_check {p : Prop} [Decidable p] {c : Cause} {w : RegVal} {r : Result} (h : WritesOwnOnly i s r) :
    WritesOwnOnly i s (if p then raise c w s else r) := by
  split
  · exact writesOwnOnly_raise c w
  · exact h

theorem writesOwnOnly_writeCsrOrRaise (csr : Nat) (v w : RegVal) (hn : i.csrWritten = some csr) :
    WritesOwnOnly i s (writeCsrOrRaise csr v w s) := by
  rcases writeCsrOrRaise_cases csr v w s with ⟨r, hr, _, e⟩ | e <;> rw [e]
  · exact writesOwnOnly_done (ownStateOnly_writeCsr i s r v (by rw [hn, Csr.number_of_ofNumber csr r hr]))
  · exact writesOwnOnly_raise _ w

end

/-- The commands one by one, each with the elements it writes. -/
theorem exec_writesOwnOnly (i : Instr) (s : State) : WritesOwnOnly i s (exec i s) := by
  have hrefl := ownStateOnly_refl i s
  cases i <;> refine writesOwnOnly_whenRunning ?_
  case nop => exact writesOwnOnly_done hrefl
  case rd => exact writesOwnOnly_doneWith _
  case li | mv | gfadd | gfmul | xtime | sbox | isbox | wadd | wmul | subw | rotw | wext | wins =>
    exact writesOwnOnly_done (ownStateOnly_setReg _ s _ _ rfl)
  case csrr =>
    split
    · exact writesOwnOnly_raise _ _
    · exact writesOwnOnly_done (ownStateOnly_setReg _ s _ _ rfl)
  case csrrd =>
    split
    · exact writesOwnOnly_raise _ _
    · exact writesOwnOnly_doneWith _
  case csrw | csrwi => exact writesOwnOnly_writeCsrOrRaise _ _ _ rfl
  case subbytes | isubbytes | shiftrows | ishiftrows | mixcols | imixcols =>
    exact writesOwnOnly_done (ownStateOnly_setS hrefl _ rfl)
  case lds | addrk | enc | dec => exact writesOwnOnly_check (writesOwnOnly_done (ownStateOnly_setS hrefl _ rfl))
  case ldiv => exact writesOwnOnly_check (writesOwnOnly_done (ownStateOnly_setIV hrefl _ rfl))
  case sts => exact writesOwnOnly_check (writesOwnOnly_done (ownStateOnly_setMEM hrefl _ rfl))
  case kexp | ldrk =>
    exact writesOwnOnly_check (writesOwnOnly_check (writesOwnOnly_done (ownStateOnly_installSchedule hrefl _ _ rfl)))
  case pad =>
    exact writesOwnOnly_check (writesOwnOnly_check (writesOwnOnly_done (ownStateOnly_setOutput hrefl _ _ rfl rfl)))
  case unpad => exact writesOwnOnly_check (writesOwnOnly_finishUnpad _ _ hrefl rfl rfl)
  case cbcenc =>
    refine writesOwnOnly_check (writesOwnOnly_check (writesOwnOnly_check (writesOwnOnly_done ?_)))
    have hblocks := ownStateOnly_blocks .cbcenc s _ (forLoop_frame _ (cbcEncBlock_frame s.SRC.toNat s.DST.toNat
      s.LEN.toNat) (blockCount s.LEN.toNat) s s.IV) rfl rfl rfl
    exact ownStateOnly_setOutput hblocks _ _ rfl rfl
  case ctr =>
    refine writesOwnOnly_check (writesOwnOnly_check (writesOwnOnly_check (writesOwnOnly_done ?_)))
    have hblocks := ownStateOnly_blocks .ctr s _ (forLoop_frame _ (ctrChunk_frame s.SRC.toNat s.DST.toNat
      s.LEN.toNat) (chunkCount s.LEN.toNat) s s.IV) rfl rfl rfl
    exact ownStateOnly_setOutput hblocks _ _ rfl rfl
  case cbcdec =>
    split
    · exact writesOwnOnly_reportError .format hrefl rfl rfl
    refine writesOwnOnly_check (writesOwnOnly_check (writesOwnOnly_check (writesOwnOnly_finishUnpad _ _ ?_ rfl rfl)))
    exact ownStateOnly_blocks .cbcdec s _ (forLoop_frame _ (cbcDecBlock_frame s.SRC.toNat s.DST.toNat)
      (s.LEN.toNat / 16) s s.IV) rfl rfl rfl

/-- A command that leaves FAULT as it was leaves the rest of the latch too, and no command touches MEM_SIZE or the host's
list. -/
theorem exec_keeps_latch (i : Instr) (s t : State) (h : exec i s = .next t) :
    (t.FAULT = s.FAULT → t.FCAUSE = s.FCAUSE ∧ t.FINFO = s.FINFO) ∧ t.memSize = s.memSize ∧ t.inbox = s.inbox := by
  rcases exec_next_cases i s t h with ⟨_, rfl⟩ | ⟨hf, ⟨c, rfl⟩ | ⟨⟨_, hcause, hinfo, hsize, hinbox⟩, _⟩⟩
  · exact ⟨fun _ => ⟨rfl, rfl⟩, rfl, rfl⟩
  · exact ⟨fun e => absurd (e.trans hf) nofun, rfl, rfl⟩
  · exact ⟨fun _ => ⟨hcause, hinfo⟩, hsize, hinbox⟩

/-- Settles O19, by the commands one by one (`exec_writesOwnOnly`) and by how a command ends (`exec_keeps_latch`). -/
theorem commandsWriteOnlyTheirOwnState : Obligations.CommandsWriteOnlyTheirOwnState := by
  intro i s t h
  obtain ⟨hreg, hS, hRK, hIV, hCUR, hSRC, hDST, hLEN, hOUTLEN, hERR, hMEM⟩ := exec_writesOwnOnly i s t h
  exact ⟨hreg, hS, hRK, hIV, hCUR, hSRC, hDST, hLEN, hOUTLEN, hERR, hMEM, exec_keeps_latch i s t h⟩

/-! ### Round-key words at and above RKLEN (R29) -/

section
variable {rk rk' : Vector FieldWord Config.rkWords} {l : Nat}

theorem rkSlice_congr (h : ∀ k < l, rkWord rk k = rkWord rk' k) (r : Nat) (hr : 4 * r + 4 ≤ l) :
    rkSlice rk r = rkSlice rk' r := by
  simp only [rkSlice, h (4 * r) (by omega), h (4 * r + 1) (by omega), h (4 * r + 2) (by omega),
    h (4 * r + 3) (by omega)]

/-- A valid schedule holds the slices of all its rounds (R210, R211). -/
theorem rkSlice_congr_of_rkValid (h : ∀ k < l, rkWord rk k = rkWord rk' k) (hl : rkValid l = true) (r : Nat)
    (hr : r ≤ roundsOf l) : rkSlice rk r = rkSlice rk' r := by
  obtain ⟨hmod, hlt⟩ := (rkValid_iff l).1 hl
  unfold roundsOf at hr
  exact rkSlice_congr h r (by omega)

theorem cipher_congr (h : ∀ k < l, rkWord rk k = rkWord rk' k) (hl : rkValid l = true) (t : Grid) :
    cipher t rk l = cipher t rk' l := by
  have hslice := rkSlice_congr_of_rkValid h hl
  have hround : ∀ k < roundsOf l - 1, ∀ u, cipherRound rk (k + 1) u = cipherRound rk' (k + 1) u := fun k hk u => by
    rw [cipherRound, cipherRound, hslice (k + 1) (by omega)]
  simp only [cipher, hslice 0 (Nat.zero_le _), hslice _ (Nat.le_refl _), forLoop_congr _ _ _ _ hround]

theorem invCipher_congr (h : ∀ k < l, rkWord rk k = rkWord rk' k) (hl : rkValid l = true) (t : Grid) :
    invCipher t rk l = invCipher t rk' l := by
  have hslice := rkSlice_congr_of_rkValid h hl
  have hround : ∀ k < roundsOf l - 1, ∀ u, invCipherRound rk (k + 1) u = invCipherRound rk' (k + 1) u :=
    fun k hk u => by rw [invCipherRound, invCipherRound, hslice (k + 1) (by omega)]
  simp only [invCipher, hslice 0 (Nat.zero_le _), hslice _ (Nat.le_refl _), downLoop_congr _ _ _ _ hround]

end

/-- The state with another round-key memory. -/
def State.withRK (s : State) (rk : Vector FieldWord Config.rkWords) : State := { s with RK := rk }

/-- The second result is the first one with another round-key memory in its next state. -/
def SameButRK (rk : Vector FieldWord Config.rkWords) (r r' : Result) : Prop :=
  ∀ t, r = .next t → r' = .next (t.withRK rk)

section
variable {rk : Vector FieldWord Config.rkWords} {s : State}

/-! The checks and the ends of a command. -/

theorem sameButRK_next : SameButRK rk (.next s) (.next (s.withRK rk)) := by
  rintro _ ⟨⟩; rfl

theorem sameButRK_whenRunning {r r' : Result} (h : SameButRK rk r r') :
    SameButRK rk (whenRunning s r) (whenRunning (s.withRK rk) r') := by
  intro t ht
  rcases whenRunning_next s t r ht with ⟨hf, rfl⟩ | ⟨hf, hr⟩
  · exact whenRunning_faulted (s.withRK rk) r' hf
  · rw [whenRunning_running (s.withRK rk) r' hf, h t hr]

theorem sameButRK_ite {p : Prop} [Decidable p] {r r' q q' : Result} (hr : SameButRK rk r r')
    (hq : ¬ p → SameButRK rk q q') : SameButRK rk (if p then r else q) (if p then r' else q') := by
  split
  · exact hr
  · exact hq ‹_›

theorem sameButRK_check {p : Prop} [Decidable p] {c : Cause} {w : RegVal} {r r' : Result}
    (h : ¬ p → SameButRK rk r r') :
    SameButRK rk (if p then raise c w s else r) (if p then raise c w (s.withRK rk) else r') :=
  sameButRK_ite sameButRK_next h

theorem sameButRK_done {u : State} (e : u = s.withRK rk) : SameButRK rk (done s) (done u) := by
  subst e; exact sameButRK_next

theorem sameButRK_finishUnpad {u : State} (addr n : Nat) (e : u = s.withRK rk) :
    SameButRK rk (finishUnpad addr n s) (finishUnpad addr n u) := by
  subst e
  have hmem : (s.withRK rk).MEM = s.MEM := rfl
  rw [finishUnpad, finishUnpad, hmem]
  cases unpadLength n (Memory.readByte s.MEM (addr + n - 1)) <;> exact sameButRK_next

/-- A mode command's loop does not see the words its block steps do not see. -/
theorem forLoop_withRK (body : Nat → State → State) (hframe : ∀ i u, State.sameButBlocks u (body i u))
    (hbody : ∀ i u, u.RK = s.RK → u.RKLEN = s.RKLEN → body i (u.withRK rk) = (body i u).withRK rk)
    (n : Nat) (g : Grid) :
    forLoop body n { s.withRK rk with CUR := g } = (forLoop body n { s with CUR := g }).withRK rk := by
  induction n with
  | zero => rfl
  | succ n ih =>
    have hloop := forLoop_frame body hframe n s g
    rw [forLoop_succ, forLoop_succ, ih, hbody n _ (by rw [hloop]) (by rw [hloop])]

end

section
variable {rk : Vector FieldWord Config.rkWords} {s : State} (h : ∀ k < s.RKLEN, rkWord rk k = rkWord s.RK k)
include h

/-! The commands that use the schedule. -/

theorem execAddrk_sameButRK (round : Nat) : SameButRK rk (execAddrk round s) (execAddrk round (s.withRK rk)) := by
  refine sameButRK_whenRunning (sameButRK_check fun hround => sameButRK_done ?_)
  simp only [State.withRK, rkSlice_congr h round (Nat.le_of_not_lt hround)]

theorem execEnc_sameButRK : SameButRK rk (execEnc s) (execEnc (s.withRK rk)) := by
  refine sameButRK_whenRunning (sameButRK_check fun hl => sameButRK_done ?_)
  simp only [State.withRK, cipher_congr h (not_not.1 hl)]

theorem execDec_sameButRK : SameButRK rk (execDec s) (execDec (s.withRK rk)) := by
  refine sameButRK_whenRunning (sameButRK_check fun hl => sameButRK_done ?_)
  simp only [State.withRK, invCipher_congr h (not_not.1 hl)]

theorem execCbcenc_sameButRK : SameButRK rk (execCbcenc s) (execCbcenc (s.withRK rk)) := by
  refine sameButRK_whenRunning (sameButRK_check fun hl => sameButRK_check fun _ => sameButRK_check fun _ => ?_)
  have hloop := forLoop_withRK (rk := rk) (s := s) _ (cbcEncBlock_frame s.SRC.toNat s.DST.toNat s.LEN.toNat)
    (fun i u hRK hRKLEN => by
      simp only [cbcEncBlock, State.withRK, hRK, hRKLEN, cipher_congr h (not_not.1 hl)])
    (blockCount s.LEN.toNat) s.IV
  exact sameButRK_done
    (congrArg (fun t : State => { t with OUTLEN := BitVec.ofNat 32 (16 * blockCount s.LEN.toNat) }) hloop)

theorem execCtr_sameButRK : SameButRK rk (execCtr s) (execCtr (s.withRK rk)) := by
  refine sameButRK_whenRunning (sameButRK_check fun hl => sameButRK_check fun _ => sameButRK_check fun _ => ?_)
  have hloop := forLoop_withRK (rk := rk) (s := s) _ (ctrChunk_frame s.SRC.toNat s.DST.toNat s.LEN.toNat)
    (fun i u hRK hRKLEN => by
      simp only [ctrChunk, State.withRK, hRK, hRKLEN, cipher_congr h (not_not.1 hl)])
    (chunkCount s.LEN.toNat) s.IV
  exact sameButRK_done (congrArg (fun t : State => { t with OUTLEN := BitVec.ofNat 32 s.LEN.toNat }) hloop)

theorem execCbcdec_sameButRK : SameButRK rk (execCbcdec s) (execCbcdec (s.withRK rk)) := by
  refine sameButRK_whenRunning (sameButRK_ite sameButRK_next fun _ => ?_)
  refine sameButRK_check fun hl => sameButRK_check fun _ => sameButRK_check fun _ => ?_
  have hloop := forLoop_withRK (rk := rk) (s := s) _ (cbcDecBlock_frame s.SRC.toNat s.DST.toNat)
    (fun i u hRK hRKLEN => by
      simp only [cbcDecBlock, State.withRK, hRK, hRKLEN, invCipher_congr h (not_not.1 hl)])
    (s.LEN.toNat / 16) s.IV
  exact sameButRK_finishUnpad _ _ hloop

end

/-- Settles O48, command by command: ADDRK checks that its slice lies below RKLEN, and the others check that RKLEN is a
valid length, which puts the slices of all rounds below it (`rkSlice_congr_of_rkValid`). -/
theorem wordsAboveRklenAreNeverRead : Obligations.WordsAboveRklenAreNeverRead := by
  intro i s t rk hop h ht
  cases i
  case addrk round => exact execAddrk_sameButRK h round t ht
  case enc => exact execEnc_sameButRK h t ht
  case dec => exact execDec_sameButRK h t ht
  case cbcenc => exact execCbcenc_sameButRK h t ht
  case cbcdec => exact execCbcdec_sameButRK h t ht
  case ctr => exact execCtr_sameButRK h t ht
  all_goals simp [Instr.opcode] at hop

end Sys2Proof.Machine

namespace Sys2Proof.Machine

/-! ### Byte sequences in memory (R62, R63) -/

/-- Settles O22, by the laws of a byte read after a write, one byte at a time. -/
theorem memReadAndMemWrite : Obligations.MemReadAndMemWrite := by
  refine ⟨fun m addr n => ?_, fun m addr v => ⟨fun k hk => ?_, fun a ha => ?_, ?_⟩⟩
  · rw [Memory.readBytes_eq_iff _ _ _ _ (by simp)]
    intro k hk
    simp
  · exact Memory.readByte_writeBytes_inside m addr v k hk
  · exact Memory.readByte_writeBytes_outside m addr v a ha
  · exact (Memory.readBytes_eq_iff _ _ _ _ rfl).2 fun k hk => Memory.readByte_writeBytes_inside m addr v k hk

/-! ### The range a command stores in (R69, column writes) -/

/-- Every byte outside the `n` addresses from `a` on reads the same in both memories. -/
def Memory.SameOutside (a n : Nat) (m m' : Memory) : Prop :=
  ∀ k, k < a ∨ a + n ≤ k → Memory.readByte m' k = Memory.readByte m k

theorem Memory.sameOutside_refl (a n : Nat) (m : Memory) : Memory.SameOutside a n m m := fun _ _ => rfl

/-- A further write inside the range; one of no byte touches nothing wherever it begins. -/
theorem Memory.SameOutside.writeBytes {a n : Nat} {m m' : Memory} (h : Memory.SameOutside a n m m') (b : Nat)
    (v : List Byte) (hv : v.length = 0 ∨ a ≤ b ∧ b + v.length ≤ a + n) :
    Memory.SameOutside a n m (Memory.writeBytes m' b v) := fun k hk => by
  rw [Memory.readByte_writeBytes_outside m' b v k (by omega), h k hk]

/-- Whatever next state the result answers, its memory reads as `m` outside the range. -/
def StoresIn (a n : Nat) (m : Memory) (r : Result) : Prop := ∀ t, r = .next t → Memory.SameOutside a n m t.MEM

section
variable {a n : Nat} {s u : State}

theorem storesIn_next (h : Memory.SameOutside a n s.MEM u.MEM) : StoresIn a n s.MEM (.next u) := by
  rintro _ ⟨⟩; exact h

theorem storesIn_doneOutput (v : RegVal) (h : Memory.SameOutside a n s.MEM u.MEM) :
    StoresIn a n s.MEM (done { u with OUTLEN := v }) :=
  storesIn_next h

theorem storesIn_whenRunning {r : Result} (h : StoresIn a n s.MEM r) : StoresIn a n s.MEM (whenRunning s r) := by
  intro t ht
  rcases whenRunning_next s t r ht with ⟨_, rfl⟩ | ⟨_, hr⟩
  · exact Memory.sameOutside_refl a n s.MEM
  · exact h t hr

/-- A check that ends the command before it has stored anything; past it, its condition is known to be false. -/
theorem storesIn_check {p : Prop} [Decidable p] {c : Cause} {w : RegVal} {r : Result} (h : ¬ p → StoresIn a n s.MEM r) :
    StoresIn a n s.MEM (if p then raise c w s else r) := by
  split
  · exact storesIn_next (Memory.sameOutside_refl a n s.MEM)
  · exact h ‹_›

theorem storesIn_finishUnpad (addr len : Nat) (h : Memory.SameOutside a n s.MEM u.MEM) :
    StoresIn a n s.MEM (finishUnpad addr len u) := by
  rcases finishUnpad_cases addr len u with e | ⟨l, _, _, e⟩ <;> rw [e] <;> exact storesIn_next h

/-- A mode command's loop stores in the range when each of its block steps does. -/
theorem forLoop_sameOutside (body : Nat → State → State) (k : Nat) (g : Grid)
    (hbody : ∀ i < k, ∀ u : State, Memory.SameOutside a n s.MEM u.MEM → Memory.SameOutside a n s.MEM (body i u).MEM) :
    Memory.SameOutside a n s.MEM (forLoop body k { s with CUR := g }).MEM :=
  forLoop_induct body k _ (fun _ u => Memory.SameOutside a n s.MEM u.MEM) (Memory.sameOutside_refl a n s.MEM) hbody

end

section
variable (s : State)

/-! The five commands that store. -/

theorem execSts_storesIn : StoresIn s.DST.toNat 16 s.MEM (execSts s) :=
  storesIn_whenRunning (storesIn_check fun _ => storesIn_next
    ((Memory.sameOutside_refl _ _ _).writeBytes _ _ (.inr ⟨Nat.le_refl _, by simp⟩)))

theorem execCbcenc_storesIn : StoresIn s.DST.toNat (16 * blockCount s.LEN.toNat) s.MEM (execCbcenc s) := by
  refine storesIn_whenRunning (storesIn_check fun _ => storesIn_check fun _ => storesIn_check fun _ =>
    storesIn_doneOutput _ ?_)
  refine forLoop_sameOutside _ _ _ fun i hi u hu => ?_
  rw [cbcEncBlock_MEM]
  exact hu.writeBytes _ _ (by rw [toBlock_length]; omega)

theorem execPad_storesIn : StoresIn s.DST.toNat (16 * blockCount s.LEN.toNat) s.MEM (execPad s) := by
  refine storesIn_whenRunning (storesIn_check fun _ => storesIn_check fun _ => storesIn_next ?_)
  refine forLoop_induct _ _ s.MEM (fun _ m => Memory.SameOutside _ _ s.MEM m) (Memory.sameOutside_refl _ _ _)
    fun i hi m hm => ?_
  exact hm.writeBytes _ _ (by rw [padBlockAt_length _ _ _ _ hi]; omega)

theorem execCbcdec_storesIn : StoresIn s.DST.toNat s.LEN.toNat s.MEM (execCbcdec s) := by
  refine storesIn_whenRunning ?_
  split
  · exact storesIn_next (Memory.sameOutside_refl _ _ _)
  refine storesIn_check fun _ => storesIn_check fun _ => storesIn_check fun _ => storesIn_finishUnpad _ _ ?_
  refine forLoop_sameOutside _ _ _ fun i hi u hu => ?_
  rw [cbcDecBlock_MEM]
  exact hu.writeBytes _ _ (by simp only [xorBytes_length, toBlock_length]; omega)

theorem execCtr_storesIn : StoresIn s.DST.toNat s.LEN.toNat s.MEM (execCtr s) := by
  refine storesIn_whenRunning (storesIn_check fun _ => storesIn_check fun _ => storesIn_check fun _ =>
    storesIn_doneOutput _ ?_)
  refine forLoop_sameOutside _ _ _ fun i _ u hu => ?_
  rw [ctrChunk_MEM]
  exact hu.writeBytes _ _ (by simp only [xorBytes_length, Memory.readBytes_length]; omega)

end

/-- Settles O20: the five commands that store do so in their range, block by block, and every other command leaves MEM
alone (`exec_writesOwnOnly`). -/
theorem commandsStoreOnlyInTheirRange : Obligations.CommandsStoreOnlyInTheirRange := by
  intro i s t h
  have hMEM := (exec_writesOwnOnly i s t h).MEM
  cases i
  case sts => exact execSts_storesIn s t h
  case cbcenc => exact execCbcenc_storesIn s t h
  case pad => exact execPad_storesIn s t h
  case cbcdec => exact execCbcdec_storesIn s t h
  case ctr => exact execCtr_storesIn s t h
  all_goals rw [hMEM rfl]; exact fun _ _ => rfl

/-! ### The range a command reads (R69, column reads)

The same command runs from two memories, side by side. It writes the same bytes to the same addresses of both as long as
what it reads is the same in both; and where they agree at first they agree for good, even if both are written there. -/

/-- Every byte of the `n` addresses from `a` on reads the same in both memories. -/
def Memory.AgreeOn (a n : Nat) (m m' : Memory) : Prop :=
  ∀ k, a ≤ k → k < a + n → Memory.readByte m' k = Memory.readByte m k

/-- From `m` and `m'` the same changes lead to `l` and `l'`: every byte of these is the same in both or is left alone in
both. -/
def Memory.SameChanges (m m' l l' : Memory) : Prop :=
  ∀ a, Memory.readByte l' a = Memory.readByte l a ∨
    (Memory.readByte l' a = Memory.readByte m' a ∧ Memory.readByte l a = Memory.readByte m a)

section
variable {m m' l l' : Memory} {a n : Nat}

theorem Memory.AgreeOn.readBytes_eq (h : Memory.AgreeOn a n m m') (b k : Nat) (hb : a ≤ b) (hk : b + k ≤ a + n) :
    Memory.readBytes m' b k = Memory.readBytes m b k :=
  Memory.readBytes_congr m' m b k fun j _ => h (b + j) (by omega) (by omega)

/-- The bytes of a message, read and padded, are those of the range it lies in (R261). -/
theorem Memory.AgreeOn.padBlockAt_eq (h : Memory.AgreeOn a n m m') (i : Nat) (hi : i < blockCount n) :
    padBlockAt m' a n i = padBlockAt m a n i := by
  have hcount : blockCount n = n / 16 + 1 := rfl
  simp only [padBlockAt]
  split
  · exact h.readBytes_eq (a + 16 * i) 16 (by omega) (by omega)
  · rw [h.readBytes_eq (a + 16 * i) (n - 16 * i) (by omega) (by omega)]

/-- The words of a schedule are those of the range it lies in (R195). -/
theorem Memory.AgreeOn.memWords_eq {k : Nat} (h : Memory.AgreeOn a (4 * k) m m') : memWords m' a k = memWords m a k :=
  List.map_congr_left fun i hi => by
    have hlt := List.mem_range.1 hi
    rw [h.readBytes_eq (a + 4 * i) 4 (by omega) (by omega)]

/-- The same bytes written next to a range on which memories agree make that range longer. -/
theorem Memory.AgreeOn.writeBytes_append (h : Memory.AgreeOn a n m m') (v : List Byte) (k : Nat) (hv : v.length = k) :
    Memory.AgreeOn a (n + k) (Memory.writeBytes m (a + n) v) (Memory.writeBytes m' (a + n) v) := by
  intro j hlo hhi
  rw [Memory.readByte_writeBytes, Memory.readByte_writeBytes]
  split
  · rfl
  · exact h j hlo (by omega)

theorem Memory.sameChanges_refl (m m' : Memory) : Memory.SameChanges m m' m m' := fun _ => .inr ⟨rfl, rfl⟩

theorem Memory.SameChanges.writeBytes (h : Memory.SameChanges m m' l l') (b : Nat) (v : List Byte) :
    Memory.SameChanges m m' (Memory.writeBytes l b v) (Memory.writeBytes l' b v) := by
  intro k
  rw [Memory.readByte_writeBytes, Memory.readByte_writeBytes]
  split
  · exact .inl rfl
  · exact h k

/-- The same changes keep the agreement of two memories. -/
theorem Memory.SameChanges.agreeOn (h : Memory.SameChanges m m' l l') (hagree : Memory.AgreeOn a n m m') :
    Memory.AgreeOn a n l l' := by
  intro k hlo hhi
  rcases h k with e | ⟨e', e⟩
  · exact e
  · rw [e', e, hagree k hlo hhi]

end

/-- The state with another data memory. -/
def State.withMEM (s : State) (m : Memory) : State := { s with MEM := m }

theorem State.writeCsr_withMEM (s : State) (m : Memory) (r : Csr) (v : RegVal) :
    (s.withMEM m).writeCsr r v = (s.writeCsr r v).withMEM m := by
  cases r <;> rfl

/-- `u'` is `u` with another memory, to which the same changes led from `m'` as led from `m` to the memory of `u`. -/
def SameButMEM (m m' : Memory) (u u' : State) : Prop :=
  ∃ l', u' = u.withMEM l' ∧ Memory.SameChanges m m' u.MEM l'

/-- The second result answers, for a next state of the first one, the same state but for its memory. -/
def ActsAlike (m m' : Memory) (r r' : Result) : Prop :=
  ∀ t, r = .next t → ∃ t', r' = .next t' ∧ SameButMEM m m' t t'

/-- Loops with one body keep a relation of two states that each iteration keeps. -/
theorem forLoop_rel {α : Type} (body : Nat → α → α) (n : Nat) (x y : α) (R : Nat → α → α → Prop) (h0 : R 0 x y)
    (hs : ∀ k < n, ∀ a b, R k a b → R (k + 1) (body k a) (body k b)) : R n (forLoop body n x) (forLoop body n y) := by
  induction n with
  | zero => exact h0
  | succ n ih => exact hs n (Nat.lt_succ_self n) _ _ (ih fun k hk => hs k (Nat.lt_succ_of_lt hk))

section
variable {m m' : Memory} {u u' : State}

/-! The ends of a command. -/

theorem actsAlike_next (h : SameButMEM m m' u u') : ActsAlike m m' (.next u) (.next u') := by
  rintro _ ⟨⟩; exact ⟨u', rfl, h⟩

theorem actsAlike_doneWith (res : RegVal) (h : SameButMEM m m' u u') :
    ActsAlike m m' (doneWith res u) (doneWith res u') := by
  obtain ⟨l', rfl, hl⟩ := h
  exact actsAlike_next ⟨l', rfl, hl⟩

theorem actsAlike_done (h : SameButMEM m m' u u') : ActsAlike m m' (done u) (done u') := actsAlike_doneWith 0 h

theorem actsAlike_doneOutput (v : RegVal) (h : SameButMEM m m' u u') :
    ActsAlike m m' (done { u with OUTLEN := v }) (done { u' with OUTLEN := v }) := by
  obtain ⟨l', rfl, hl⟩ := h
  exact actsAlike_next ⟨l', rfl, hl⟩

theorem actsAlike_raise (c : Cause) (w : RegVal) (h : SameButMEM m m' u u') :
    ActsAlike m m' (raise c w u) (raise c w u') := by
  obtain ⟨l', rfl, hl⟩ := h
  exact actsAlike_next ⟨l', rfl, hl⟩

theorem actsAlike_reportError (e : DataError) (h : SameButMEM m m' u u') :
    ActsAlike m m' (reportError e u) (reportError e u') := by
  obtain ⟨l', rfl, hl⟩ := h
  exact actsAlike_next ⟨l', rfl, hl⟩

/-- The end of CBCDEC and UNPAD reads the last byte of the buffer, and none of an empty one. -/
theorem actsAlike_finishUnpad (addr n : Nat) (h : SameButMEM m m' u u')
    (hlast : n ≠ 0 → Memory.readByte u'.MEM (addr + n - 1) = Memory.readByte u.MEM (addr + n - 1)) :
    ActsAlike m m' (finishUnpad addr n u) (finishUnpad addr n u') := by
  have hlen : unpadLength n (Memory.readByte u'.MEM (addr + n - 1)) =
      unpadLength n (Memory.readByte u.MEM (addr + n - 1)) := by
    rcases eq_or_ne n 0 with rfl | hn
    · rfl
    · rw [hlast hn]
  obtain ⟨l', rfl, hl⟩ := h
  rw [finishUnpad, finishUnpad, hlen]
  cases unpadLength n (Memory.readByte u.MEM (addr + n - 1)) with
  | none => exact actsAlike_reportError .pad ⟨l', rfl, hl⟩
  | some k => exact actsAlike_done ⟨l', rfl, hl⟩

end

section
variable {s : State} {m : Memory}

/-! The checks of a command, and an effect that leaves MEM alone. -/

theorem sameButMEM_untouched {u u' : State} (hMEM : u.MEM = s.MEM) (e : u' = u.withMEM m) :
    SameButMEM s.MEM m u u' :=
  ⟨m, e, hMEM ▸ Memory.sameChanges_refl s.MEM m⟩

theorem sameButMEM_withMEM : SameButMEM s.MEM m s (s.withMEM m) := sameButMEM_untouched rfl rfl

theorem actsAlike_whenRunning {r r' : Result} (h : ActsAlike s.MEM m r r') :
    ActsAlike s.MEM m (whenRunning s r) (whenRunning (s.withMEM m) r') := by
  intro t ht
  rcases whenRunning_next s t r ht with ⟨hf, rfl⟩ | ⟨hf, hr⟩
  · exact ⟨_, whenRunning_faulted (s.withMEM m) r' hf, sameButMEM_untouched rfl rfl⟩
  · rw [whenRunning_running (s.withMEM m) r' hf]
    exact h t hr

theorem actsAlike_ite {p : Prop} [Decidable p] {r r' q q' : Result} (hr : ActsAlike s.MEM m r r')
    (hq : ¬ p → ActsAlike s.MEM m q q') : ActsAlike s.MEM m (if p then r else q) (if p then r' else q') := by
  split
  · exact hr
  · exact hq ‹_›

theorem actsAlike_check {p : Prop} [Decidable p] {c : Cause} {w : RegVal} {r r' : Result}
    (h : ¬ p → ActsAlike s.MEM m r r') :
    ActsAlike s.MEM m (if p then raise c w s else r) (if p then raise c w (s.withMEM m) else r') :=
  actsAlike_ite (actsAlike_raise c w sameButMEM_withMEM) h

theorem actsAlike_writeCsrOrRaise (csr : Nat) (v w : RegVal) :
    ActsAlike s.MEM m (writeCsrOrRaise csr v w s) (writeCsrOrRaise csr v w (s.withMEM m)) := by
  unfold writeCsrOrRaise
  cases Csr.ofNumber csr with
  | none => exact actsAlike_raise _ w sameButMEM_withMEM
  | some r =>
    refine actsAlike_ite (actsAlike_done ?_) fun _ => actsAlike_raise _ w sameButMEM_withMEM
    exact sameButMEM_untouched (by rw [State.writeCsr_frame]) (s.writeCsr_withMEM m r v)

end

section
variable {m m' : Memory} {u u' : State} {src n : Nat}

/-! The block steps of the mode commands. -/

theorem cbcEncBlock_sameButMEM (dst i : Nat) (hsrc : Memory.AgreeOn src n m m') (hi : i < blockCount n)
    (h : SameButMEM m m' u u') : SameButMEM m m' (cbcEncBlock src dst n i u) (cbcEncBlock src dst n i u') := by
  obtain ⟨l', rfl, hl⟩ := h
  have hblock := (hl.agreeOn hsrc).padBlockAt_eq i hi
  refine ⟨_, ?_, hl.writeBytes (dst + 16 * i) _⟩
  simp only [cbcEncBlock, State.withMEM, hblock]

theorem ctrChunk_sameButMEM (dst i : Nat) (hsrc : Memory.AgreeOn src n m m') (hi : i < chunkCount n)
    (h : SameButMEM m m' u u') : SameButMEM m m' (ctrChunk src dst n i u) (ctrChunk src dst n i u') := by
  obtain ⟨l', rfl, hl⟩ := h
  unfold chunkCount at hi
  have hchunk := (hl.agreeOn hsrc).readBytes_eq (src + 16 * i) (min 16 (n - 16 * i)) (by omega) (by omega)
  refine ⟨_, ?_, hl.writeBytes (dst + 16 * i) _⟩
  simp only [ctrChunk, State.withMEM, hchunk]

/-- The bytes of the output so far are the same in both memories too: the last of them is read at the end (R234). -/
theorem cbcDecBlock_sameButMEM (dst i : Nat) (hsrc : Memory.AgreeOn src n m m') (hi : i < n / 16)
    (h : SameButMEM m m' u u') (hout : Memory.AgreeOn dst (16 * i) u.MEM u'.MEM) :
    SameButMEM m m' (cbcDecBlock src dst i u) (cbcDecBlock src dst i u') ∧
      Memory.AgreeOn dst (16 * (i + 1)) (cbcDecBlock src dst i u).MEM (cbcDecBlock src dst i u').MEM := by
  obtain ⟨l', rfl, hl⟩ := h
  have hblock := (hl.agreeOn hsrc).readBytes_eq (src + 16 * i) 16 (by omega) (by omega)
  have hstep : cbcDecBlock src dst i (u.withMEM l') = (cbcDecBlock src dst i u).withMEM
      (Memory.writeBytes l' (dst + 16 * i) (xorBytes (toBlock (cbcDecBlock src dst i u).S) (toBlock u.CUR))) := by
    simp only [cbcDecBlock, State.withMEM, hblock]
  rw [hstep, cbcDecBlock_MEM]
  exact ⟨⟨_, rfl, hl.writeBytes _ _⟩, hout.writeBytes_append _ 16 (by simp)⟩

end

section
variable {s : State} {m : Memory}

/-! The commands that read a message. -/

theorem execCbcenc_actsAlike (hsrc : Memory.AgreeOn s.SRC.toNat s.LEN.toNat s.MEM m) :
    ActsAlike s.MEM m (execCbcenc s) (execCbcenc (s.withMEM m)) := by
  refine actsAlike_whenRunning (actsAlike_check fun _ => actsAlike_check fun _ => actsAlike_check fun _ => ?_)
  exact actsAlike_doneOutput _ (forLoop_rel (cbcEncBlock s.SRC.toNat s.DST.toNat s.LEN.toNat) (blockCount s.LEN.toNat)
    { s with CUR := s.IV } { s.withMEM m with CUR := s.IV } (fun _ => SameButMEM s.MEM m) (sameButMEM_untouched rfl rfl)
    fun i hi _ _ => cbcEncBlock_sameButMEM s.DST.toNat i hsrc hi)

theorem execCtr_actsAlike (hsrc : Memory.AgreeOn s.SRC.toNat s.LEN.toNat s.MEM m) :
    ActsAlike s.MEM m (execCtr s) (execCtr (s.withMEM m)) := by
  refine actsAlike_whenRunning (actsAlike_check fun _ => actsAlike_check fun _ => actsAlike_check fun _ => ?_)
  exact actsAlike_doneOutput _ (forLoop_rel (ctrChunk s.SRC.toNat s.DST.toNat s.LEN.toNat) (chunkCount s.LEN.toNat)
    { s with CUR := s.IV } { s.withMEM m with CUR := s.IV } (fun _ => SameButMEM s.MEM m) (sameButMEM_untouched rfl rfl)
    fun i hi _ _ => ctrChunk_sameButMEM s.DST.toNat i hsrc hi)

theorem execCbcdec_actsAlike (hsrc : Memory.AgreeOn s.SRC.toNat s.LEN.toNat s.MEM m) :
    ActsAlike s.MEM m (execCbcdec s) (execCbcdec (s.withMEM m)) := by
  refine actsAlike_whenRunning (actsAlike_ite (actsAlike_reportError .format sameButMEM_withMEM) fun hmod => ?_)
  refine actsAlike_check fun _ => actsAlike_check fun _ => actsAlike_check fun _ => ?_
  obtain ⟨hloop, hout⟩ := forLoop_rel (cbcDecBlock s.SRC.toNat s.DST.toNat) (s.LEN.toNat / 16)
    { s with CUR := s.IV } { s.withMEM m with CUR := s.IV }
    (fun k u u' => SameButMEM s.MEM m u u' ∧ Memory.AgreeOn s.DST.toNat (16 * k) u.MEM u'.MEM)
    ⟨sameButMEM_untouched rfl rfl, fun _ _ _ => by omega⟩
    fun i hi _ _ ⟨h, hout⟩ => cbcDecBlock_sameButMEM s.DST.toNat i hsrc hi h hout
  exact actsAlike_finishUnpad _ _ hloop fun _ => hout _ (by omega) (by omega)

theorem execPad_actsAlike (hsrc : Memory.AgreeOn s.SRC.toNat s.LEN.toNat s.MEM m) :
    ActsAlike s.MEM m (execPad s) (execPad (s.withMEM m)) := by
  refine actsAlike_whenRunning (actsAlike_check fun _ => actsAlike_check fun _ => actsAlike_done ⟨_, rfl, ?_⟩)
  refine forLoop_rel _ _ s.MEM m (fun _ => Memory.SameChanges s.MEM m) (Memory.sameChanges_refl s.MEM m)
    fun i hi l l' hl => ?_
  rw [(hl.agreeOn hsrc).padBlockAt_eq i hi]
  exact hl.writeBytes _ _

theorem execUnpad_actsAlike
    (hlast : Memory.AgreeOn (s.SRC.toNat + s.LEN.toNat - 1) (min 1 s.LEN.toNat) s.MEM m) :
    ActsAlike s.MEM m (execUnpad s) (execUnpad (s.withMEM m)) :=
  actsAlike_whenRunning (actsAlike_check fun _ => actsAlike_finishUnpad _ _ sameButMEM_withMEM
    fun hn => hlast _ (Nat.le_refl _) (by omega))

end

/-- The commands one by one: those that read memory, and those that leave it alone or only store in it. -/
theorem exec_actsAlike (i : Instr) (s : State) (m : Memory)
    (h : Memory.AgreeOn (i.loadRange s).1 (i.loadRange s).2 s.MEM m) :
    ActsAlike s.MEM m (exec i s) (exec i (s.withMEM m)) := by
  cases i
  case cbcenc => exact execCbcenc_actsAlike h
  case cbcdec => exact execCbcdec_actsAlike h
  case ctr => exact execCtr_actsAlike h
  case pad => exact execPad_actsAlike h
  case unpad => exact execUnpad_actsAlike h
  all_goals refine actsAlike_whenRunning ?_
  case lds | ldiv =>
    refine actsAlike_check fun _ => actsAlike_done (sameButMEM_untouched rfl ?_)
    simp only [State.withMEM, h.readBytes_eq s.SRC.toNat 16 (Nat.le_refl _) (Nat.le_refl _)]
  case kexp nk =>
    refine actsAlike_check fun _ => actsAlike_check fun _ => actsAlike_done (sameButMEM_untouched rfl ?_)
    simp only [State.withMEM, h.readBytes_eq s.SRC.toNat (4 * nk) (Nat.le_refl _) (Nat.le_refl _)]
  case ldrk n =>
    refine actsAlike_check fun _ => actsAlike_check fun _ => actsAlike_done (sameButMEM_untouched rfl ?_)
    have hwords : memWords m s.SRC.toNat n = memWords s.MEM s.SRC.toNat n := Memory.AgreeOn.memWords_eq h
    simp only [State.withMEM, hwords]
  case nop => exact actsAlike_done sameButMEM_withMEM
  case rd ra => exact actsAlike_doneWith (s.reg ra) sameButMEM_withMEM
  case csrr =>
    split
    · exact actsAlike_raise _ _ sameButMEM_withMEM
    · exact actsAlike_done (sameButMEM_untouched rfl rfl)
  case csrrd =>
    split
    · exact actsAlike_raise _ _ sameButMEM_withMEM
    · exact actsAlike_doneWith _ sameButMEM_withMEM
  case csrw | csrwi => exact actsAlike_writeCsrOrRaise _ _ _
  case addrk | enc | dec => exact actsAlike_check fun _ => actsAlike_done (sameButMEM_untouched rfl rfl)
  case sts =>
    exact actsAlike_check fun _ => actsAlike_done ⟨_, rfl, (Memory.sameChanges_refl s.MEM m).writeBytes _ _⟩
  case li | mv | gfadd | gfmul | xtime | sbox | isbox | wadd | wmul | subw | rotw | wext | wins | subbytes | isubbytes
    | shiftrows | ishiftrows | mixcols | imixcols => exact actsAlike_done (sameButMEM_untouched rfl rfl)

/-- Settles O21, by the two runs side by side (`exec_actsAlike`). -/
theorem commandsReadOnlyTheirRange : Obligations.CommandsReadOnlyTheirRange := by
  intro i s t m ht hagree
  obtain ⟨_, hexec, m', rfl, hchanges⟩ := exec_actsAlike i s m hagree t ht
  exact ⟨m', hexec, hchanges⟩

end Sys2Proof.Machine

namespace Sys2Proof

/-! ### A command word and the row it matches (R92 to R95) -/

/-- A fact about every row of the opcode map is checked row by row. -/
theorem Opcode.forall_of_forall_mem_all {P : Opcode → Prop} (h : ∀ o ∈ Opcode.all, P o) (o : Opcode) : P o :=
  h o o.mem_all

/-- A row's match value has no bit below the opcode field (R92). -/
theorem Opcode.getLsbD_matchBits (o : Opcode) (k : Nat) (hk : k < 24) : o.matchBits.getLsbD k = false := by
  rw [Opcode.matchBits, BitVec.getLsbD_append, if_pos hk]
  exact BitVec.getLsbD_zero

/-- A field below the opcode that the row's mask covers is zero in a word that matches the row (R94). -/
theorem Opcode.extract_eq_zero_of_match {o : Opcode} {w : RegVal} (h : w &&& o.format.mask = o.matchBits)
    (lo len : Nat) (hlen : lo + len ≤ 24) (hmask : o.format.mask.extractLsb' lo len = BitVec.allOnes len) :
    w.extractLsb' lo len = 0 := by
  have hw : w.extractLsb' lo len = o.matchBits.extractLsb' lo len := by
    rw [← h, BitVec.extractLsb'_and, hmask, BitVec.and_allOnes]
  rw [hw]
  apply BitVec.eq_of_getLsbD_eq
  intro k hk
  simp [hk, o.getLsbD_matchBits (lo + k) (by omega)]

/-- A 12-bit immediate whose upper ten bits are zero is its coefficient position (R93). -/
theorem fieldImm_eq_fieldPos (w : RegVal) (h : w.extractLsb' 2 10 = 0) : fieldImm w = fieldPos w := by
  have hupper : (w.extractLsb' 2 10).toNat = 0 := by rw [h]; rfl
  simp only [BitVec.extractLsb'_toNat, Nat.shiftRight_eq_div_pow] at hupper
  simp only [fieldImm, fieldPos, BitVec.val_toFin, BitVec.extractLsb'_toNat, Nat.shiftRight_eq_div_pow]
  omega

/-! ### Decoding an encoded command -/

/-- The command word of every command matches its row (R92, R94). -/
theorem encodeWord_matches (i : Instr) : encodeWord i &&& i.opcode.format.mask = i.opcode.matchBits :=
  match i with
  | .nop => Laws.EncodeMatchesRow.nop
  | .li rd arg => Laws.EncodeMatchesRow.li rd arg
  | .rd ra => Laws.EncodeMatchesRow.rd ra
  | .mv rd ra => Laws.EncodeMatchesRow.mv rd ra
  | .csrr rd csr => Laws.EncodeMatchesRow.csrr rd csr
  | .csrw csr ra => Laws.EncodeMatchesRow.csrw csr ra
  | .csrwi csr arg => Laws.EncodeMatchesRow.csrwi csr arg
  | .csrrd csr => Laws.EncodeMatchesRow.csrrd csr
  | .gfadd rd ra rb => Laws.EncodeMatchesRow.gfadd rd ra rb
  | .gfmul rd ra rb => Laws.EncodeMatchesRow.gfmul rd ra rb
  | .xtime rd ra => Laws.EncodeMatchesRow.xtime rd ra
  | .sbox rd ra => Laws.EncodeMatchesRow.sbox rd ra
  | .isbox rd ra => Laws.EncodeMatchesRow.isbox rd ra
  | .wadd rd ra rb => Laws.EncodeMatchesRow.wadd rd ra rb
  | .wmul rd ra rb => Laws.EncodeMatchesRow.wmul rd ra rb
  | .subw rd ra => Laws.EncodeMatchesRow.subw rd ra
  | .rotw rd ra => Laws.EncodeMatchesRow.rotw rd ra
  | .wext rd ra pos => Laws.EncodeMatchesRow.wext rd ra pos
  | .wins rd ra pos => Laws.EncodeMatchesRow.wins rd ra pos
  | .lds => Laws.EncodeMatchesRow.lds
  | .sts => Laws.EncodeMatchesRow.sts
  | .subbytes => Laws.EncodeMatchesRow.subbytes
  | .isubbytes => Laws.EncodeMatchesRow.isubbytes
  | .shiftrows => Laws.EncodeMatchesRow.shiftrows
  | .ishiftrows => Laws.EncodeMatchesRow.ishiftrows
  | .mixcols => Laws.EncodeMatchesRow.mixcols
  | .imixcols => Laws.EncodeMatchesRow.imixcols
  | .addrk round => Laws.EncodeMatchesRow.addrk round
  | .kexp nk => Laws.EncodeMatchesRow.kexp nk
  | .ldrk n => Laws.EncodeMatchesRow.ldrk n
  | .enc => Laws.EncodeMatchesRow.enc
  | .dec => Laws.EncodeMatchesRow.dec
  | .cbcenc => Laws.EncodeMatchesRow.cbcenc
  | .cbcdec => Laws.EncodeMatchesRow.cbcdec
  | .ctr => Laws.EncodeMatchesRow.ctr
  | .ldiv => Laws.EncodeMatchesRow.ldiv
  | .pad => Laws.EncodeMatchesRow.pad
  | .unpad => Laws.EncodeMatchesRow.unpad

theorem fieldImm_assemble_of_immOk (op : Byte) (rd ra rb : Reg) (imm : Nat) (h : immOk imm = true) :
    fieldImm (assemble op rd ra rb imm) = imm := by
  rw [fieldImm_assemble, Nat.mod_eq_of_lt (of_decide_eq_true h)]

/-- A row builds a well-formed command from the fields its own command word carries (R91, R93). -/
theorem build_encodeWord (i : Instr) (hwf : i.wellFormed = true) :
    i.opcode.build (encodeWord i) (encodeArg i) = i := by
  cases i
  case csrr | csrw | csrwi | csrrd | addrk | kexp | ldrk =>
    simp [Instr.opcode, Opcode.build, encodeWord, encodeArg, fieldImm_assemble_of_immOk _ _ _ _ _ hwf]
  case wext | wins => simp [Instr.opcode, Opcode.build, encodeWord, fieldPos_assemble]
  case li | rd | mv | gfadd | gfmul | xtime | sbox | isbox | wadd | wmul | subw | rotw =>
    simp [Instr.opcode, Opcode.build, encodeWord, encodeArg]
  case nop | lds | sts | subbytes | isubbytes | shiftrows | ishiftrows | mixcols | imixcols | enc | dec | cbcenc | cbcdec
    | ctr | ldiv | pad | unpad => rfl

/-- Settles O1: the encoded word matches the command's row (`encodeWord_matches`), and the row builds the command back
from it (`build_encodeWord`). -/
theorem decodeInvertsEncode : Obligations.DecodeInvertsEncode := by
  intro i hwf
  have hmatch : (encode i).word &&& i.opcode.format.mask = i.opcode.matchBits := by
    rw [encode, Command.word_ofParts]; exact encodeWord_matches i
  rw [decode_of_match (encode i) i.opcode hmatch, encode, Command.word_ofParts, Command.arg_ofParts,
    build_encodeWord i hwf]

/-! ### Encoding a decoded command -/

/-- The command of a matching row has the matched word as its command word: every field that its format does not use is
zero in the word (R94). -/
theorem Opcode.encodeWord_build {o : Opcode} {w : RegVal} (a : RegVal) (h : w &&& o.format.mask = o.matchBits) :
    encodeWord (o.build w a) = w := by
  have hfields := assemble_fields w
  rw [o.fieldOp_of_match w h] at hfields
  have hrd (hm : o.format.mask.extractLsb' 20 4 = 0xF#4) : fieldRd w = 0 := by
    rw [fieldRd, extract_eq_zero_of_match h 20 4 (by decide) hm]; rfl
  have hra (hm : o.format.mask.extractLsb' 16 4 = 0xF#4) : fieldRa w = 0 := by
    rw [fieldRa, extract_eq_zero_of_match h 16 4 (by decide) hm]; rfl
  have hrb (hm : o.format.mask.extractLsb' 12 4 = 0xF#4) : fieldRb w = 0 := by
    rw [fieldRb, extract_eq_zero_of_match h 12 4 (by decide) hm]; rfl
  have himm (hm : o.format.mask.extractLsb' 0 12 = 0xFFF#12) : fieldImm w = 0 := by
    rw [fieldImm, extract_eq_zero_of_match h 0 12 (by decide) hm]; rfl
  have hpos (hm : o.format.mask.extractLsb' 2 10 = 0x3FF#10) : fieldImm w = fieldPos w :=
    fieldImm_eq_fieldPos w (extract_eq_zero_of_match h 2 10 (by decide) hm)
  cases o
  case nop | lds | sts | subbytes | isubbytes | shiftrows | ishiftrows | mixcols | imixcols | enc | dec | cbcenc | cbcdec
    | ctr | ldiv | pad | unpad =>
    rw [hrd rfl, hra rfl, hrb rfl, himm rfl] at hfields; exact hfields
  case gfadd | gfmul | wadd | wmul => rw [himm rfl] at hfields; exact hfields
  case mv | xtime | sbox | isbox | subw | rotw => rw [hrb rfl, himm rfl] at hfields; exact hfields
  case wext | wins => rw [hrb rfl, hpos rfl] at hfields; exact hfields
  case li => rw [hra rfl, hrb rfl, himm rfl] at hfields; exact hfields
  case rd => rw [hrd rfl, hrb rfl, himm rfl] at hfields; exact hfields
  case csrr => rw [hra rfl, hrb rfl] at hfields; exact hfields
  case csrw => rw [hrd rfl, hrb rfl] at hfields; exact hfields
  case csrwi | csrrd | addrk | kexp | ldrk => rw [hrd rfl, hra rfl, hrb rfl] at hfields; exact hfields

/-- The command of a row is well formed: its immediate is a 12-bit field (R93). -/
theorem Opcode.wellFormed_build (o : Opcode) (w a : RegVal) : (o.build w a).wellFormed = true := by
  cases o
  case csrr | csrw | csrwi | csrrd | addrk | kexp | ldrk => exact decide_eq_true (fieldImm_lt w)
  all_goals rfl

/-- LI and CSRWI carry the argument read, and every other command encodes with argument zero (R94). -/
theorem Opcode.encodeArg_build (o : Opcode) (w a : RegVal) :
    encodeArg (o.build w a) = if o = .li ∨ o = .csrwi then a else 0 := by cases o <;> rfl

/-- The row of a command that was decoded matches the word read. -/
theorem exists_row_of_decode {I : Command} {i : Instr} (h : decode I = .ok i) :
    ∃ o : Opcode, I.word &&& o.format.mask = o.matchBits ∧ i = o.build I.word I.arg := by
  rcases decode_cases I with ⟨o, hmatch, hok⟩ | ⟨_, r, herr⟩
  · rw [hok] at h; injection h with h; exact ⟨o, hmatch, h.symm⟩
  · rw [herr] at h; cases h

/-- Settles O2: the row that matches the word gives the command (`exists_row_of_decode`), whose word and argument are the
ones read (`Opcode.encodeWord_build`, `Opcode.encodeArg_build`). -/
theorem decodedCommandEncodesBack : Obligations.DecodedCommandEncodesBack := by
  intro I i hdec
  obtain ⟨o, hmatch, hi⟩ := exists_row_of_decode hdec
  have hop : i.opcode = o := hi ▸ o.opcode_build I.word I.arg
  have harg := o.encodeArg_build I.word I.arg
  rw [← hi, ← hop] at harg
  refine ⟨hi ▸ o.wellFormed_build _ _, hi ▸ o.encodeWord_build _ hmatch, ?_, ?_⟩
  · rintro d a rfl; exact harg
  · rintro n a rfl; exact harg

/-- A word selects a row exactly when it decodes to a command of that row (R92). -/
theorem match_iff_decode (I : Command) (o : Opcode) :
    I.word &&& o.format.mask = o.matchBits ↔ ∃ i, decode I = .ok i ∧ i.opcode = o := by
  constructor
  · exact fun h => ⟨_, decode_of_match I o h, o.opcode_build I.word I.arg⟩
  · rintro ⟨i, hdec, rfl⟩
    obtain ⟨p, hmatch, rfl⟩ := exists_row_of_decode hdec
    rwa [p.opcode_build]

/-- Settles O3: the two tables are read off row by row, and the selection is `match_iff_decode`. -/
theorem wordSelectsRowByMaskAndMatch : Obligations.WordSelectsRowByMaskAndMatch := by
  refine ⟨⟨rfl, rfl, rfl, rfl, rfl, rfl, rfl, rfl, rfl, rfl, rfl⟩, ?formats, ?matchBits, match_iff_decode⟩
  case formats =>
    refine ⟨?_, ?_, ?_, ?_, ?_, ?_, ?_, ?_, ?_, ?_, ?_⟩ <;> exact Opcode.forall_of_forall_mem_all (by decide)
  case matchBits => exact Opcode.forall_of_forall_mem_all (by decide)

/-- A bit below the opcode that the row's mask covers makes the word illegal (R94). -/
theorem decode_of_reservedBit (I : Command) (o : Opcode) (k : Nat) (hop : fieldOp I.word = o.byte) (hk : k < 24)
    (hmask : o.format.mask.getLsbD k = true) (hbit : I.word.getLsbD k = true) : decode I = .error .reservedBit := by
  have hne : I.word &&& o.format.mask ≠ o.matchBits := fun h => by
    have hset : (I.word &&& o.format.mask).getLsbD k = true := by rw [BitVec.getLsbD_and, hbit, hmask]; rfl
    rw [h, o.getLsbD_matchBits k hk] at hset
    cases hset
  simp only [decode, hop, Opcode.ofByte_byte, if_neg hne]

/-- Every row but LI and CSRWI builds the same command whatever the argument (R94). -/
theorem Opcode.build_ignores_arg (o : Opcode) (w a b : RegVal) (hli : o ≠ .li) (hcsrwi : o ≠ .csrwi) :
    o.build w b = o.build w a := by
  cases o
  case li => exact absurd rfl hli
  case csrwi => exact absurd rfl hcsrwi
  all_goals rfl

/-- Settles O4: `decode_of_reservedBit`, and the row's command does not depend on the argument
(`Opcode.build_ignores_arg`). -/
theorem reservedBitsAreIllegalAndArgIgnored : Obligations.ReservedBitsAreIllegalAndArgIgnored := by
  refine ⟨decode_of_reservedBit, fun w a b i hdec hli hcsrwi => ?_⟩
  obtain ⟨o, hmatch, rfl⟩ := exists_row_of_decode hdec
  rw [Command.word_ofParts] at hmatch
  rw [o.opcode_build] at hli hcsrwi
  rw [decode_of_match (.ofParts b w) o (by rwa [Command.word_ofParts]), Command.word_ofParts, Command.word_ofParts,
    o.build_ignores_arg w (Command.ofParts a w).arg _ hli hcsrwi]

end Sys2Proof

namespace Sys2Proof.Machine

/-! ### Illegal words (R96) -/

/-- A running unit answers a word that is no command with IllegalCmd, whose cause code is 1 (R303). -/
theorem issue_of_reject (I : Command) (e : Reject) (s : State) (hf : s.FAULT = false) (hd : decode I = .error e) :
    issue I s = .next (s.afterFault 1 I.word) := by
  rw [issue, whenRunning_running _ _ hf, hd]; rfl

/-- Settles O7: a word no row matches is rejected (`decode_cases`), and the rows differ in their opcodes. -/
theorem illegalWordFaultsAndNothingElse : Obligations.IllegalWordFaultsAndNothingElse := by
  refine ⟨fun s I rest hinbox hf hnone => ?_, fun w o p ho hp => ?_, fun I o => (match_iff_decode I o).1⟩
  · obtain ⟨o, hmatch, _⟩ | ⟨_, e, hd⟩ := decode_cases I
    · exact absurd hmatch (hnone o)
    · exact (step_command s I rest hinbox).trans (issue_of_reject I e _ hf hd)
  · exact o.byte_injective p ((o.fieldOp_of_match w ho).symm.trans (p.fieldOp_of_match w hp))

/-! ### Every command goes on to a next state (R354) -/

/-- The result is a next state. -/
def GoesOn (r : Result) : Prop := ∃ t, r = .next t

theorem goesOn_next (t : State) : GoesOn (.next t) := ⟨t, rfl⟩

theorem goesOn_done (s : State) : GoesOn (done s) := goesOn_next _

theorem goesOn_doneWith (res : RegVal) (s : State) : GoesOn (doneWith res s) := goesOn_next _

theorem goesOn_raise (c : Cause) (w : RegVal) (s : State) : GoesOn (raise c w s) := goesOn_next _

theorem goesOn_reportError (e : DataError) (s : State) : GoesOn (reportError e s) := goesOn_next _

theorem goesOn_ite {p : Prop} [Decidable p] {r q : Result} (hr : GoesOn r) (hq : GoesOn q) :
    GoesOn (if p then r else q) := by
  split
  · exact hr
  · exact hq

/-- A check that ends the command with a fault. -/
theorem goesOn_check {p : Prop} [Decidable p] {c : Cause} {w : RegVal} {s : State} {r : Result} (h : GoesOn r) :
    GoesOn (if p then raise c w s else r) :=
  goesOn_ite (goesOn_raise c w s) h

theorem goesOn_whenRunning {s : State} {r : Result} (h : GoesOn r) : GoesOn (whenRunning s r) :=
  goesOn_ite (goesOn_next _) h

theorem goesOn_writeCsrOrRaise (csr : Nat) (v w : RegVal) (s : State) : GoesOn (writeCsrOrRaise csr v w s) := by
  obtain ⟨r, _, _, e⟩ | e := writeCsrOrRaise_cases csr v w s
  · rw [e]; exact goesOn_done _
  · rw [e]; exact goesOn_raise _ _ _

theorem goesOn_finishUnpad (addr n : Nat) (s : State) : GoesOn (finishUnpad addr n s) := by
  obtain e | ⟨l, _, _, e⟩ := finishUnpad_cases addr n s
  · rw [e]; exact goesOn_next _
  · rw [e]; exact goesOn_done _

theorem exec_goesOn (i : Instr) (s : State) : GoesOn (exec i s) := by
  cases i <;> refine goesOn_whenRunning ?_
  case nop | li | mv | gfadd | gfmul | xtime | sbox | isbox | wadd | wmul | subw | rotw | wext | wins | subbytes | isubbytes
    | shiftrows | ishiftrows | mixcols | imixcols => exact goesOn_done _
  case rd ra => exact goesOn_doneWith _ s
  case csrr =>
    split
    · exact goesOn_raise _ _ s
    · exact goesOn_done _
  case csrrd =>
    split
    · exact goesOn_raise _ _ s
    · exact goesOn_doneWith _ s
  case csrw | csrwi => exact goesOn_writeCsrOrRaise _ _ _ s
  case lds | sts | addrk | enc | dec | ldiv => exact goesOn_check (goesOn_done _)
  case kexp | ldrk | pad => exact goesOn_check (goesOn_check (goesOn_done _))
  case cbcenc | ctr => exact goesOn_check (goesOn_check (goesOn_check (goesOn_done _)))
  case unpad => exact goesOn_check (goesOn_finishUnpad _ _ _)
  case cbcdec =>
    exact goesOn_ite (goesOn_reportError _ s) (goesOn_check (goesOn_check (goesOn_check (goesOn_finishUnpad _ _ _))))

/-! ### The response to a command (R98) -/

/-- The state `t` carries a response of the form of R98 to the transaction `I`. -/
def RespondsTo (I : Command) (t : State) : Prop :=
  ∃ r : Response, t.rsp = some r ∧ r.st.bits ≠ 3 ∧
    (r.st = .ok → t.FAULT = false ∧ r.code = 0 ∧
      (r.res ≠ 0 → (∃ ra, decode I = .ok (.rd ra)) ∨ ∃ n, decode I = .ok (.csrrd n))) ∧
    (r.st = .err → t.FAULT = false ∧ (r.code = 1 ∨ r.code = 2) ∧ r.code = t.ERR.zeroExtend 8 ∧ r.res = 0) ∧
    (r.st = .fault → t.FAULT = true ∧ r.code = t.FCAUSE ∧ r.res = 0)

theorem Status.bits_ne (st : Status) : st.bits ≠ 3 := by cases st <;> decide

/-- A state whose fault latch is set and whose response repeats the latched cause (R304, R305). -/
theorem respondsTo_of_fault (I : Command) (t : State) (hf : t.FAULT = true) (hrsp : t.rsp = some ⟨.fault, t.FCAUSE, 0⟩) :
    RespondsTo I t :=
  ⟨_, hrsp, Status.bits_ne _, nofun, nofun, fun _ => ⟨hf, rfl, rfl⟩⟩

/-- A command that completes in a running unit answers OK or an error. -/
theorem respondsTo_of_completes (I : Command) (i : Instr) (s t : State) (hdec : decode I = .ok i) (hf : s.FAULT = false)
    (h : s.completesInto i t) : RespondsTo I t := by
  obtain ⟨⟨hFAULT, _⟩, r, hrsp, ⟨hst, hcode, hres⟩ | ⟨hst, hcode, hERR, hres⟩⟩ := h
  · refine ⟨r, hrsp, r.st.bits_ne, fun _ => ⟨hFAULT.trans hf, hcode, fun hne => ?_⟩, ?_, ?_⟩
    · exact (hres hne).imp (fun ⟨ra, e⟩ => ⟨ra, e ▸ hdec⟩) fun ⟨n, e⟩ => ⟨n, e ▸ hdec⟩
    all_goals rw [hst]; exact nofun
  · refine ⟨r, hrsp, r.st.bits_ne, ?_, fun _ => ⟨hFAULT.trans hf, hcode, hERR, hres⟩, ?_⟩
    all_goals rw [hst]; exact nofun

/-- A transaction is refused, faults as illegal, or is a command that faults or completes; each way it is answered. -/
theorem issue_responds (I : Command) (s : State) : ∃ t, issue I s = .next t ∧ RespondsTo I t := by
  rcases Bool.eq_false_or_eq_true s.FAULT with hf | hf
  · exact ⟨_, whenRunning_faulted _ _ hf, respondsTo_of_fault I s.refuse hf rfl⟩
  cases hdec : decode I with
  | error e => exact ⟨_, issue_of_reject I e s hf hdec, respondsTo_of_fault I _ rfl rfl⟩
  | ok i =>
    obtain ⟨t, ht⟩ := exec_goesOn i s
    refine ⟨t, (issue_of_decode I i s hf hdec).trans ht, ?_⟩
    obtain ⟨hfault, _⟩ | ⟨_, ⟨c, rfl⟩ | hcompletes⟩ := exec_next_cases i s t ht
    · rw [hf] at hfault; cases hfault
    · exact respondsTo_of_fault I _ rfl rfl
    · exact respondsTo_of_completes I i s t hdec hf hcompletes

/-- Settles O11: the step is the transaction's (`step_command`), and every transaction is answered (`issue_responds`). -/
theorem everyCommandReturnsOneResponse : Obligations.EveryCommandReturnsOneResponse := by
  intro s I rest hinbox
  rw [step_command s I rest hinbox]
  obtain ⟨t, hstep, r, hr⟩ := issue_responds I { s with inbox := rest }
  exact ⟨t, r, hstep, hr⟩

/-! ### Sequences of commands and the pseudo-instructions (R100) -/

theorem runCommands_cons {i : Instr} {s t : State} (is : List Instr) (h : exec i s = .next t) :
    runCommands (i :: is) s = runCommands is t := by
  rw [runCommands, h]

/-- CSRWI of a register the host may write (R287). -/
theorem exec_csrwi (n : Nat) (r : Csr) (v : RegVal) (s : State) (hn : Csr.ofNumber n = some r) (hr : r.writable = true)
    (hf : s.FAULT = false) : exec (.csrwi n v) s = .next ((s.writeCsr r v).respond ⟨.ok, 0, 0⟩) := by
  refine (whenRunning_running s _ hf).trans ?_
  rw [writeCsrOrRaise, hn]
  exact if_pos hr

/-- LDS of a block that lies in memory (R163). -/
theorem exec_lds {s : State} (hf : s.FAULT = false) (hin : s.SRC.toNat + 16 ≤ s.memSize) :
    exec .lds s = done { s with S := fromBlock (Memory.readBytes s.MEM s.SRC.toNat 16) } :=
  (whenRunning_running s _ hf).trans (if_neg (not_not_intro (.inr hin)))

/-- STS to a block that lies in memory (R164). -/
theorem exec_sts {s : State} (hf : s.FAULT = false) (hin : s.DST.toNat + 16 ≤ s.memSize) :
    exec .sts s = done { s with MEM := Memory.writeBytes s.MEM s.DST.toNat (toBlock s.S) } :=
  (whenRunning_running s _ hf).trans (if_neg (not_not_intro (.inr hin)))

/-- ENC with a schedule the driver accepts (R214). -/
theorem exec_enc {s : State} (hf : s.FAULT = false) (hrk : rkValid s.RKLEN = true) :
    exec .enc s = done { s with S := cipher s.S s.RK s.RKLEN } :=
  (whenRunning_running s _ hf).trans (if_neg (not_not_intro hrk))

/-- DEC with a schedule the driver accepts (R215). -/
theorem exec_dec {s : State} (hf : s.FAULT = false) (hrk : rkValid s.RKLEN = true) :
    exec .dec s = done { s with S := invCipher s.S s.RK s.RKLEN } :=
  (whenRunning_running s _ hf).trans (if_neg (not_not_intro hrk))

/-- A byte sequence is read back where it was written (R62, R63). -/
theorem Memory.readBytes_writeBytes_self (m : Memory) (a n : Nat) (v : List Byte) (h : v.length = n) :
    Memory.readBytes (Memory.writeBytes m a v) a n = v :=
  (Memory.readBytes_eq_iff _ a n v h).2 fun k hk => Memory.readByte_writeBytes_inside m a v k hk

/-- The state after commands that put `g` into S and `m` into MEM and whose last response is `(OK, 0, 0)`. -/
def State.withBlock (s : State) (g : Grid) (m : Memory) : State := { s with S := g, MEM := m, rsp := some ⟨.ok, 0, 0⟩ }

theorem State.withBlock_frame (s : State) (g : Grid) (m : Memory) : s.withBlock g m =
    { s with S := (s.withBlock g m).S, MEM := (s.withBlock g m).MEM, rsp := some ⟨.ok, 0, 0⟩ } := rfl

@[simp] theorem State.withBlock_MEM (s : State) (g : Grid) (m : Memory) : (s.withBlock g m).MEM = m := rfl

theorem exec_sts_withBlock (s : State) (g : Grid) (m : Memory) (hf : s.FAULT = false)
    (hdst : s.DST.toNat + 16 ≤ s.memSize) :
    exec .sts (s.withBlock g m) = .next (s.withBlock g (Memory.writeBytes m s.DST.toNat (toBlock g))) := by
  rw [exec_sts (s := s.withBlock g m) hf hdst]
  simp only [done_eq, State.respond, State.withBlock]

theorem exec_lds_withBlock (s : State) (hf : s.FAULT = false) (hsrc : s.SRC.toNat + 16 ≤ s.memSize) :
    exec .lds s = .next (s.withBlock (fromBlock (Memory.readBytes s.MEM s.SRC.toNat 16)) s.MEM) :=
  exec_lds hf hsrc

/-- LDS, a command that replaces S by `f S` and changes nothing else, STS: the image of the block at SRC is stored. -/
theorem runCommands_lds_sts (i : Instr) (s : State) (f : Grid → Grid) (hf : s.FAULT = false)
    (hsrc : s.SRC.toNat + 16 ≤ s.memSize) (hdst : s.DST.toNat + 16 ≤ s.memSize)
    (hi : ∀ g, exec i (s.withBlock g s.MEM) = .next (s.withBlock (f g) s.MEM)) :
    ∃ t, runCommands [.lds, i, .sts] s = .next t ∧ t = { s with S := t.S, MEM := t.MEM, rsp := some ⟨.ok, 0, 0⟩ } ∧
      Memory.readBytes t.MEM s.DST.toNat 16 = toBlock (f (fromBlock (Memory.readBytes s.MEM s.SRC.toNat 16))) := by
  have hrun := runCommands_cons [i, .sts] (exec_lds_withBlock s hf hsrc)
  rw [runCommands_cons _ (hi _), runCommands_cons _ (exec_sts_withBlock s _ _ hf hdst)] at hrun
  refine ⟨_, hrun, State.withBlock_frame _ _ _, ?_⟩
  rw [State.withBlock_MEM]
  exact Memory.readBytes_writeBytes_self _ _ _ _ (toBlock_length _)

/-- Settles O47: SETBUF is three writes of control registers, and each cipher command stands between a load and a store
of the block (`runCommands_lds_sts`). -/
theorem pseudoInstructionsExpand : Obligations.PseudoInstructionsExpand := by
  refine ⟨fun s src dst n hf => ?setbuf, fun s hf hmod hlt hsrc hdst => ?blocks, rfl, rfl, rfl, rfl, rfl, rfl⟩
  case setbuf =>
    calc runCommands (pseudoSetbuf src dst n) s
      _ = runCommands [.csrwi 0x001 dst, .csrwi 0x002 n] { s with SRC := src, rsp := some ⟨.ok, 0, 0⟩ } :=
        runCommands_cons _ (exec_csrwi 0x000 .src src s rfl rfl hf)
      _ = runCommands [.csrwi 0x002 n] { s with SRC := src, DST := dst, rsp := some ⟨.ok, 0, 0⟩ } :=
        runCommands_cons _ (exec_csrwi 0x001 .dst dst _ rfl rfl hf)
      _ = .next { s with SRC := src, DST := dst, LEN := n, rsp := some ⟨.ok, 0, 0⟩ } :=
        runCommands_cons [] (exec_csrwi 0x002 .len n _ rfl rfl hf)
  case blocks =>
    have hrk : rkValid s.RKLEN = true := (rkValid_iff s.RKLEN).2 ⟨hmod, hlt⟩
    constructor
    · exact runCommands_lds_sts .enc s (cipher · s.RK s.RKLEN) hf hsrc hdst fun g => exec_enc hf hrk
    · exact runCommands_lds_sts .dec s (invCipher · s.RK s.RKLEN) hf hsrc hdst fun g => exec_dec hf hrk

end Sys2Proof.Machine

namespace Sys2Proof.Machine

/-! ### The results of the field-byte commands (R128 to R132) -/

/-- A running unit carries out a command that writes the zero-extended byte `b` to a register and answers `(OK, 0, 0)`. -/
theorem whenRunning_setReg_zextByte (s : State) (d : Reg) (b : Byte) (hs : s.running) :
    whenRunning s (done (s.setReg d (zextByte b))) =
      .next { s with x := s.x.set d (b.zeroExtend 32), rsp := some ⟨.ok, 0, 0⟩ } :=
  whenRunning_running s _ hs

/-- Settles O26: opcodes and formats are read off the table, and each command writes its byte by
`whenRunning_setReg_zextByte`. -/
theorem fieldByteCommandResults : Obligations.FieldByteCommandResults := by
  refine ⟨⟨fun _ _ _ => ⟨rfl, rfl⟩, fun _ _ _ => ⟨rfl, rfl⟩, fun _ _ => ⟨rfl, rfl⟩, fun _ _ => ⟨rfl, rfl⟩,
    fun _ _ => ⟨rfl, rfl⟩⟩, fun s d ra rb hs => ⟨?gfadd, ?gfmul, ?xtime, ?sbox, ?isbox⟩⟩
  all_goals exact whenRunning_setReg_zextByte s d _ hs

/-! ### The product of bytes (R124)

The product is additive in each operand, so its laws need be checked on the single-bit bytes only (`additive_ext`). -/

theorem gfMul_comm (a b : Byte) : gfMul a b = gfMul b a := by
  have bits : ∀ j k : Fin 8, gfMul (1#8 <<< j.val) (1#8 <<< k.val) = gfMul (1#8 <<< k.val) (1#8 <<< j.val) := by
    decide +kernel
  refine additive_ext (gfMul a) (gfMul · a) (gfMul_xor_right a) (gfMul_xor_left · · a) (fun k => ?_) b
  exact additive_ext (gfMul · _) (gfMul _) (gfMul_xor_left · · _) (gfMul_xor_right _) (bits · k) a

theorem gfMul_assoc (a b c : Byte) : gfMul (gfMul a b) c = gfMul a (gfMul b c) := by
  have bits : ∀ i j k : Fin 8, gfMul (gfMul (1#8 <<< i.val) (1#8 <<< j.val)) (1#8 <<< k.val) =
      gfMul (1#8 <<< i.val) (gfMul (1#8 <<< j.val) (1#8 <<< k.val)) := by
    decide +kernel
  refine additive_ext (gfMul (gfMul a b)) (fun c => gfMul a (gfMul b c)) ?_ ?_ (fun k => ?_) c
  · exact gfMul_xor_right _
  · simp only [gfMul_xor_right, implies_true]
  refine additive_ext (fun b => gfMul (gfMul a b) _) (fun b => gfMul a (gfMul b _)) ?_ ?_ (fun j => ?_) b
  · simp only [gfMul_xor_right, gfMul_xor_left, implies_true]
  · simp only [gfMul_xor_right, gfMul_xor_left, implies_true]
  refine additive_ext (fun a => gfMul (gfMul a _) _) (gfMul · _) ?_ ?_ (bits · j k) a
  · simp only [gfMul_xor_left, implies_true]
  · exact (gfMul_xor_left · · _)

@[simp] theorem gfMul_zero_left (b : Byte) : gfMul 0x00 b = 0x00 := by
  simpa using gfMul_xor_left 0 0 b

theorem gfMul_one_right (a : Byte) : gfMul a 0x01 = a :=
  additive_ext (gfMul · 0x01) id (gfMul_xor_left · · _) (fun _ _ => rfl) (by decide +kernel) a

/-- A byte has at most one inverse (R124): the two cancel through the byte they share. -/
theorem gfMul_inverse_unique {a b c : Byte} (hb : gfMul a b = 0x01) (hc : gfMul a c = 0x01) : c = b :=
  calc c
    _ = gfMul (gfMul a b) c := by rw [hb, gfMul_comm, gfMul_one_right]
    _ = gfMul b (gfMul a c) := by rw [gfMul_comm a b, gfMul_assoc]
    _ = b := by rw [hc, gfMul_one_right]

/-! ### The substitution table (R126) -/

/-- The affine map of R126, `t ^ rotl8(t,1) ^ rotl8(t,2) ^ rotl8(t,3) ^ rotl8(t,4) ^ 0x63`. -/
def sboxAffine (t : Byte) : Byte :=
  t ^^^ t.rotateLeft 1 ^^^ t.rotateLeft 2 ^^^ t.rotateLeft 3 ^^^ t.rotateLeft 4 ^^^ 0x63

/-- The inverse of the affine map: with it a byte's multiplicative inverse is read off its table entry
(`gfMul_sboxAffineInv_sbox`). -/
def sboxAffineInv (v : Byte) : Byte := v.rotateLeft 1 ^^^ v.rotateLeft 3 ^^^ v.rotateLeft 6 ^^^ 0x05

theorem sboxAffine_sboxAffineInv (v : Byte) : sboxAffine (sboxAffineInv v) = v := by
  revert v; decide +kernel

theorem gfMul_sboxAffineInv_sbox (a : Byte) (h : a ≠ 0x00) : gfMul a (sboxAffineInv (sbox a)) = 0x01 := by
  revert a; decide +kernel

/-- Settles O30: taking the affine map back from the entry of `a ≠ 0` gives an inverse of `a`, and `a` has no other
(`gfMul_inverse_unique`). -/
theorem sboxIsTheAffineInverse : Obligations.SboxIsTheAffineInverse := by
  intro a t h
  change sbox a = sboxAffine t
  obtain ⟨rfl, rfl⟩ | hinv := h
  · decide
  · have ha : a ≠ 0x00 := by
      rintro rfl
      rw [gfMul_zero_left] at hinv
      cases hinv
    rw [gfMul_inverse_unique (gfMul_sboxAffineInv_sbox a ha) hinv, sboxAffine_sboxAffineInv]

end Sys2Proof.Machine

namespace Sys2Proof.Machine

/-! ### Words in registers (R13, R14) -/

@[simp] theorem coef_setCoef_self (w : FieldWord) (k : Fin 4) (b : Byte) : (w.setCoef k b).coef k = b := by
  match k with
  | 0 | 1 | 2 | 3 => rfl

theorem coef_setCoef_ne (w : FieldWord) {j k : Fin 4} (b : Byte) (h : j ≠ k) : (w.setCoef k b).coef j = w.coef j := by
  match j, k with
  | 0, 0 | 1, 1 | 2, 2 | 3, 3 => exact absurd rfl h
  | 0, 1 | 0, 2 | 0, 3 | 1, 0 | 1, 2 | 1, 3 | 2, 0 | 2, 1 | 2, 3 | 3, 0 | 3, 1 | 3, 2 => rfl

/-- The sum of words in packed form (R147): each byte of `v ^^^ w` is the sum of the bytes of `v` and `w`. -/
theorem pack_wAdd_unpack (v w : RegVal) : (wAdd (.unpack v) (.unpack w)).pack = v ^^^ w := by
  refine regVal_ext _ _ (FieldWord.ext_coef _ _ fun k => ?_)
  simp only [unpack_pack, wAdd, gfAdd, FieldWord.coef_ofCoef, coef_unpack, BitVec.extractLsb'_xor]

/-- The rotation of a word in packed form (R150): the top byte of `v` moves to the bottom, the other three one up. -/
theorem pack_rotWord_unpack (v : RegVal) : (rotWord (.unpack v)).pack = v.rotateLeft 8 := by
  have up : ∀ n < 3, v.extractLsb' (8 * n) 8 = (v.rotateLeft 8).extractLsb' (8 * (n + 1)) 8 := by
    intro n hn
    ext i hi
    rw [BitVec.getElem_extractLsb', BitVec.getElem_extractLsb', BitVec.getLsbD_rotateLeft, Bool.cond_decide, if_neg (by omega),
      decide_eq_true (by omega), Bool.true_and]
    congr 1
    omega
  have around : v.extractLsb' 24 8 = (v.rotateLeft 8).extractLsb' 0 8 := by
    ext i hi
    rw [BitVec.getElem_extractLsb', BitVec.getElem_extractLsb', BitVec.getLsbD_rotateLeft, Bool.cond_decide, if_pos (by omega)]
    congr 1
    omega
  refine regVal_ext _ _ ?_
  rw [unpack_pack]
  simp only [rotWord, FieldWord.unpack, FieldWord.mk.injEq]
  exact ⟨up 2 (by decide), up 1 (by decide), up 0 (by decide), around⟩

/-! ### The results of the field-word commands (R147 to R152) -/

/-- A running unit carries out a command that writes `v` to a register and answers `(OK, 0, 0)`. -/
theorem whenRunning_setReg (s : State) (d : Reg) (v : RegVal) (hs : s.running) :
    whenRunning s (done (s.setReg d v)) = .next { s with x := s.x.set d v, rsp := some ⟨.ok, 0, 0⟩ } :=
  whenRunning_running s _ hs

/-- Settles O31: opcodes and formats are read off the table, and each command writes its register by
`whenRunning_setReg`; what it writes is the sum, the rotation or the coefficients named above. -/
theorem fieldWordCommandResults : Obligations.FieldWordCommandResults := by
  refine ⟨⟨fun _ _ _ => ⟨rfl, rfl⟩, fun _ _ _ => ⟨rfl, rfl⟩, fun _ _ => ⟨rfl, rfl⟩, fun _ _ => ⟨rfl, rfl⟩,
    fun _ _ _ => ⟨rfl, rfl⟩, fun _ _ _ => ⟨rfl, rfl⟩⟩,
    fun s d ra rb hs => ⟨?wadd, ?wmul, ?subw, ?rotw, fun pos => ?wext, fun pos => ?wins⟩⟩
  case wadd =>
    rw [← pack_wAdd_unpack]
    exact whenRunning_setReg s d _ hs
  case wmul => exact whenRunning_setReg s d _ hs
  case subw => exact ⟨subWord (.unpack s.x[ra]), whenRunning_setReg s d _ hs, fun k => FieldWord.coef_ofCoef _ k⟩
  case rotw =>
    rw [← pack_rotWord_unpack]
    exact whenRunning_setReg s d _ hs
  case wext =>
    rw [← coef_unpack]
    exact whenRunning_setReg s d _ hs
  case wins =>
    exact ⟨(FieldWord.unpack s.x[d]).setCoef pos (lowByte s.x[ra]), whenRunning_setReg s d _ hs,
      coef_setCoef_self _ _ _, fun k hk => coef_setCoef_ne _ _ hk⟩

/-! ### The product of words (R142, R144) -/

/-- Settles O32: the indices (j - k) mod 4 of the sum, computed for each coefficient j. -/
theorem wordProductWrittenOut : Obligations.WordProductWrittenOut := fun _ _ => rfl

/-- Settles O34: the packed constants are concatenations of their bytes, and the product is the sum of R142. -/
theorem mixConstantsMultiplyToOne : Obligations.MixConstantsMultiplyToOne := by
  refine ⟨rfl, rfl, ?_⟩
  rw [wordProductWrittenOut mixc imixc]
  decide

end Sys2Proof.Machine

namespace Sys2Proof.Machine

/-! ### Blocks and state values (R160, R162) -/

theorem coef_wordAt (b : List Byte) (k : Nat) (r : Fin 4) : (wordAt b k).coef r = b.getD (k + r.val) 0 := by
  match r with
  | 0 | 1 | 2 | 3 => rfl

theorem Grid.at_fromBlock (b : List Byte) (r c : Fin 4) : (fromBlock b).at r c = b.getD (4 * c.val + r.val) 0 := by
  match c with
  | 0 => exact coef_wordAt b 0 r
  | 1 => exact coef_wordAt b 4 r
  | 2 => exact coef_wordAt b 8 r
  | 3 => exact coef_wordAt b 12 r

theorem getElem?_eq_at_fromBlock (b : List Byte) (hb : b.length = 16) (r c : Fin 4) :
    b[4 * c.val + r.val]? = some ((fromBlock b).at r c) := by
  rw [Grid.at_fromBlock, List.getD_eq_getElem?_getD, List.getElem?_eq_getElem (by omega), Option.getD_some]

theorem getElem?_toBlock (t : Grid) (r c : Fin 4) : (toBlock t)[4 * c.val + r.val]? = some (t.at r c) := by
  rw [getElem?_eq_at_fromBlock _ (toBlock_length t), fromBlock_toBlock]

/-- Index k below 16 is 4c+r for the column c = k/4 and the row r = k mod 4, where both blocks hold the grid's byte. -/
theorem toBlock_fromBlock (b : List Byte) (hb : b.length = 16) : toBlock (fromBlock b) = b := by
  refine List.ext_getElem? fun k => ?_
  by_cases hk : k < 16
  · have hindex : 4 * (k / 4) + k % 4 = k := Nat.div_add_mod k 4
    have hto := getElem?_toBlock (fromBlock b) ⟨k % 4, by omega⟩ ⟨k / 4, by omega⟩
    have hfrom := getElem?_eq_at_fromBlock b hb ⟨k % 4, by omega⟩ ⟨k / 4, by omega⟩
    simp only [hindex] at hto hfrom
    rw [hto, hfrom]
  · rw [List.getElem?_eq_none (Nat.le_of_not_lt hk), List.getElem?_eq_none (hb ▸ Nat.le_of_not_lt hk)]

/-- Settles O35: each direction byte by byte (`getElem?_toBlock`, `getElem?_eq_at_fromBlock`), and from these the round
trips. -/
theorem blockSerialization : Obligations.BlockSerialization :=
  ⟨fun t r c => ⟨toBlock_length t, getElem?_toBlock t r c⟩,
    fun b hb => ⟨getElem?_eq_at_fromBlock b hb, toBlock_fromBlock b hb⟩, fromBlock_toBlock⟩

/-! ### Blocks in memory (R163, R164, R232) -/

/-- The block at `a` read as a state value. -/
theorem Grid.at_fromBlock_readBytes (m : Memory) (a : Nat) (r c : Fin 4) :
    (fromBlock (Memory.readBytes m a 16)).at r c = Memory.readByte m (a + (4 * c.val + r.val)) := by
  rw [Grid.at_fromBlock, List.getD_eq_getElem?_getD, Memory.readBytes_getElem? m a 16 _ (by omega), Option.getD_some]

/-- A state value stored as the block at `a`, read byte by byte. -/
theorem Memory.readByte_writeBytes_toBlock (m : Memory) (a : Nat) (t : Grid) (r c : Fin 4) :
    Memory.readByte (Memory.writeBytes m a (toBlock t)) (a + (4 * c.val + r.val)) = t.at r c := by
  have hk : 4 * c.val + r.val < (toBlock t).length := by rw [toBlock_length]; omega
  rw [Memory.readByte_writeBytes_inside m a _ _ hk]
  exact (List.getElem?_eq_some_iff.1 (getElem?_toBlock t r c)).2

/-- LDIV of a block that lies in memory (R232). -/
theorem exec_ldiv {s : State} (hf : s.FAULT = false) (hin : s.SRC.toNat + 16 ≤ s.memSize) :
    exec .ldiv s = done { s with IV := fromBlock (Memory.readBytes s.MEM s.SRC.toNat 16) } :=
  (whenRunning_running s _ hf).trans (if_neg (not_not_intro (.inr hin)))

/-- The check that a range which is not empty lies in memory, where it does not: AddrRange, whose cause code is 7
(R61, R303). -/
theorem rangeCheck_outside {s : State} {a n : Nat} (w : RegVal) (r : Result) (hn : n ≠ 0) (hout : s.memSize < a + n) :
    (if ¬ inRange s.memSize a n then raise .addrRange w s else r) = .next (s.afterFault 7 w) :=
  if_pos fun hin => hin.elim hn (Nat.not_le_of_lt hout)

/-- Settles O36: inside memory both commands read the one block at SRC (`Grid.at_fromBlock_readBytes`), outside the
range check of each fails. -/
theorem blockLoads : Obligations.BlockLoads := by
  refine ⟨⟨⟨rfl, rfl⟩, rfl, rfl⟩, fun s hs => ⟨fun hin => ?inside, fun hout => ⟨?lds, ?ldiv⟩⟩⟩
  case inside => exact ⟨_, Grid.at_fromBlock_readBytes s.MEM s.SRC.toNat, exec_lds hs hin, exec_ldiv hs hin⟩
  all_goals exact (whenRunning_running s _ hs).trans (rangeCheck_outside _ _ (by decide) hout)

/-- Settles O37: inside memory the state's bytes are read back where they were stored and every other byte is as it was,
outside the range check fails. -/
theorem stsStoresTheState : Obligations.StsStoresTheState := by
  refine ⟨⟨rfl, rfl⟩, fun s hs => ⟨fun hin => ?inside, fun hout => ?outside⟩⟩
  case inside =>
    have hexec := exec_sts hs hin
    have hstored := Memory.readByte_writeBytes_toBlock s.MEM s.DST.toNat s.S
    have hkept := Memory.readByte_writeBytes_outside s.MEM s.DST.toNat (toBlock s.S)
    -- The new memory is named, so that `rfl` compares the states without evaluating the write.
    generalize Memory.writeBytes s.MEM s.DST.toNat (toBlock s.S) = m at hexec hstored hkept
    exact ⟨_, hexec, rfl, hstored, hkept⟩
  case outside => exact (whenRunning_running s _ hs).trans (rangeCheck_outside _ _ (by decide) hout)

/-! ### The transformations, byte by byte (R165 to R171) -/

/-- Coefficient j of a product, its terms in the order in which they take the coefficients j, j+1, j+2, j+3 of `a`
(R142, where they stand in the order of `b`'s). -/
theorem coef_wMul (a b : FieldWord) (j : Fin 4) : (wMul a b).coef j =
    gfMul (a.coef j) (b.coef 0) ^^^ gfMul (a.coef (j + 1)) (b.coef 3) ^^^ gfMul (a.coef (j + 2)) (b.coef 2) ^^^
      gfMul (a.coef (j + 3)) (b.coef 1) := by
  have mod4 : j - 0 = j ∧ j - 1 = j + 3 ∧ j - 2 = j + 2 ∧ j - 3 = j + 1 := by decide +revert
  obtain ⟨h0, h1, h2, h3⟩ := mod4
  simp only [wMul, FieldWord.coef_ofCoef, h0, h1, h2, h3]
  ac_rfl

theorem Grid.at_mapCols (f : FieldWord → FieldWord) (t : Grid) (r c : Fin 4) :
    (t.mapCols f).at r c = (f (t.col c)).coef r := by
  match c with
  | 0 | 1 | 2 | 3 => rfl

theorem Grid.at_mixColumns (t : Grid) (r c : Fin 4) : (mixColumns t).at r c =
    gfMul (t.at r c) 0x02 ^^^ gfMul (t.at (r + 1) c) 0x03 ^^^ t.at (r + 2) c ^^^ t.at (r + 3) c := by
  rw [mixColumns, Grid.at_mapCols, coef_wMul]
  simp only [mixc, FieldWord.coef, gfMul_one_right, Grid.at]

theorem Grid.at_invMixColumns (t : Grid) (r c : Fin 4) : (invMixColumns t).at r c =
    gfMul (t.at r c) 0x0e ^^^ gfMul (t.at (r + 1) c) 0x0b ^^^ gfMul (t.at (r + 2) c) 0x0d ^^^
      gfMul (t.at (r + 3) c) 0x09 := by
  rw [invMixColumns, Grid.at_mapCols, coef_wMul]
  rfl

theorem coef_wAdd (a b : FieldWord) (k : Fin 4) : (wAdd a b).coef k = a.coef k ^^^ b.coef k :=
  FieldWord.coef_ofCoef _ k

theorem Grid.at_addRoundKey (t k : Grid) (r c : Fin 4) : (addRoundKey t k).at r c = t.at r c ^^^ k.at r c := by
  match c with
  | 0 => exact coef_wAdd t.t0 k.t0 r
  | 1 => exact coef_wAdd t.t1 k.t1 r
  | 2 => exact coef_wAdd t.t2 k.t2 r
  | 3 => exact coef_wAdd t.t3 k.t3 r

theorem rkSlice_col (rk : Vector FieldWord Config.rkWords) (n : Nat) (c : Fin 4) :
    (rkSlice rk n).col c = rkWord rk (4 * n + c.val) := by
  match c with
  | 0 | 1 | 2 | 3 => rfl

/-! ### The results of the transformation commands (R173 to R179) -/

/-- A running unit carries out a command that puts `g` into S and answers `(OK, 0, 0)`. -/
theorem mapsS_of_exec {s : State} {i : Instr} {f : Fin 4 → Fin 4 → Byte} (g : Grid) (hs : s.running)
    (hexec : exec i s = whenRunning s (done { s with S := g })) (hg : ∀ r c, g.at r c = f r c) : s.mapsS i f :=
  ⟨g, hg, hexec.trans (whenRunning_running s _ hs)⟩

/-- Settles O38: opcodes and formats are read off the table, and each command puts its transformation of S into S
(`mapsS_of_exec`), whose bytes are those named above. -/
theorem transformationCommandResults : Obligations.TransformationCommandResults := by
  refine ⟨⟨⟨rfl, rfl⟩, ⟨rfl, rfl⟩, ⟨rfl, rfl⟩, ⟨rfl, rfl⟩, ⟨rfl, rfl⟩, rfl, rfl⟩, fun s hs =>
    ⟨?subbytes, ?isubbytes, ?shiftrows, ?ishiftrows, ?mixcols, ?imixcols⟩⟩
  case subbytes => exact mapsS_of_exec (subBytes s.S) hs rfl (Grid.at_ofBytes _)
  case isubbytes => exact mapsS_of_exec (invSubBytes s.S) hs rfl (Grid.at_ofBytes _)
  case shiftrows => exact mapsS_of_exec (shiftRows s.S) hs rfl (Grid.at_ofBytes _)
  case ishiftrows => exact mapsS_of_exec (invShiftRows s.S) hs rfl (Grid.at_ofBytes _)
  case mixcols => exact mapsS_of_exec (mixColumns s.S) hs rfl (Grid.at_mixColumns s.S)
  case imixcols => exact mapsS_of_exec (invMixColumns s.S) hs rfl (Grid.at_invMixColumns s.S)

/-- Settles O40: word c of the slice is added to column c (`Grid.at_addRoundKey`, `rkSlice_col`), and the check against
RKLEN decides. -/
theorem addrkAddsTheRoundKey : Obligations.AddrkAddsTheRoundKey := by
  refine ⟨fun _ => ⟨rfl, rfl⟩, fun s n hs => ⟨fun hin => ?inside, fun hout => ?outside⟩⟩
  case inside =>
    refine ⟨addRoundKey s.S (rkSlice s.RK n), fun r c => ?_, ?_⟩
    · rw [Grid.at_addRoundKey, ← rkSlice_col]
      rfl
    · exact (whenRunning_running s _ hs).trans (if_neg (Nat.not_lt_of_le hin))
  case outside => exact (whenRunning_running s _ hs).trans (if_pos hout)

end Sys2Proof.Machine

namespace Sys2Proof.Machine

/-! ### The key schedule as a list of words (R190 to R193) -/

/-- `w` holds the first `n` words of the schedule of `key`: the words of the key, and from index nk on the recurrence of
R193. -/
structure IsSchedule (key : List Byte) (nk n : Nat) (w : List FieldWord) : Prop where
  length_eq : w.length = n
  key_word : ∀ i < nk, w.getD i .zero = wordAt key (4 * i)
  recurrence : ∀ i, nk ≤ i → i < n →
    w.getD i .zero = wAdd (w.getD (i - nk) .zero) (expandTemp nk i (w.getD (i - 1) .zero))

theorem isSchedule_keyWords (key : List Byte) (nk : Nat) : IsSchedule key nk nk (keyWords key nk) where
  length_eq := by simp [keyWords]
  key_word i hi := by simp [keyWords, hi]
  recurrence _ h h' := absurd h' (Nat.not_lt_of_le h)

/-- One more word: the words before it stay where they are, and it is what the recurrence says at its own index. -/
theorem isSchedule_expandStep {key : List Byte} {nk k : Nat} {w : List FieldWord} (hnk : 0 < nk)
    (h : IsSchedule key nk (nk + k) w) : IsSchedule key nk (nk + (k + 1)) (expandStep nk k w) := by
  obtain ⟨hlen, hkey, hrec⟩ := h
  have old : ∀ i < nk + k, (expandStep nk k w).getD i .zero = w.getD i .zero := fun i hi =>
    List.getD_append w _ _ i (hlen ▸ hi)
  have new : (expandStep nk k w).getD (nk + k) .zero =
      wAdd (w.getD k .zero) (expandTemp nk (nk + k) (w.getD (nk + k - 1) .zero)) := by
    have hlast (v : FieldWord) : (w ++ [v]).getD (nk + k) .zero = v := by simp [← hlen]
    exact hlast _
  refine ⟨by rw [expandStep, List.length_append, hlen]; rfl, fun i hi => ?_, fun i hle hlt => ?_⟩
  · rw [old i (by omega), hkey i hi]
  · rw [old (i - nk) (by omega), old (i - 1) (by omega)]
    rcases Nat.lt_or_eq_of_le (Nat.le_of_lt_succ hlt) with hi | hi
    · rw [old i hi, hrec i hle hi]
    · rw [show i = nk + k from hi, new, Nat.add_sub_cancel_left]

theorem isSchedule_keyExpand (key : List Byte) {nk : Nat} (hnk : 0 < nk) :
    IsSchedule key nk (scheduleWords nk) (keyExpand key nk) := by
  have hloop := forLoop_induct (expandStep nk) (scheduleWords nk - nk) (keyWords key nk)
    (fun k => IsSchedule key nk (nk + k)) (isSchedule_keyWords key nk) fun _ _ _ => isSchedule_expandStep hnk
  rwa [Nat.add_sub_of_le (by rw [scheduleWords]; omega)] at hloop

/-- The round constants are the powers of x (R192): the ten entries of RCON that are read. -/
theorem rconWord_eq_iterate_gfXtime {j : Nat} (hpos : 0 < j) (hle : j ≤ 10) :
    rconWord j = ⟨Nat.iterate gfXtime (j - 1) 0x01, 0x00, 0x00, 0x00⟩ := by
  interval_cases j <;> rfl

/-- `temp` of `key_expand`, its round constant as a power of x: the schedules of the three key sizes read at most ten. -/
theorem expandTemp_eq {nk i : Nat} (prev : FieldWord) (hnk : nk = 4 ∨ nk = 6 ∨ nk = 8) (hle : nk ≤ i)
    (hlt : i < scheduleWords nk) : expandTemp nk i prev =
      if i % nk = 0 then wAdd (subWord (rotWord prev)) ⟨Nat.iterate gfXtime (i / nk - 1) 0x01, 0x00, 0x00, 0x00⟩
      else if 6 < nk ∧ i % nk = 4 then subWord prev
      else prev := by
  have hpos : 0 < i / nk := Nat.div_pos hle (by omega)
  have hround : i / nk ≤ 10 := by
    rw [scheduleWords] at hlt
    rcases hnk with rfl | rfl | rfl <;> omega
  rw [expandTemp, rconWord_eq_iterate_gfXtime hpos hround]

/-! ### Words in memory and in the round-key memory (R29, R64) -/

theorem coef_wordAt_readBytes (m : Memory) (a n j : Nat) (k : Fin 4) (h : j + k.val < n) :
    (wordAt (Memory.readBytes m a n) j).coef k = Memory.readByte m (a + (j + k.val)) := by
  rw [coef_wordAt, List.getD_eq_getElem?_getD, Memory.readBytes_getElem? m a n _ h, Option.getD_some]

theorem memWords_length (m : Memory) (a n : Nat) : (memWords m a n).length = n := by simp [memWords]

theorem coef_getD_memWords (m : Memory) (a n i : Nat) (k : Fin 4) (h : i < n) :
    ((memWords m a n).getD i .zero).coef k = Memory.readByte m (a + (4 * i + k.val)) := by
  have hword : (memWords m a n).getD i .zero = wordAt (Memory.readBytes m (a + 4 * i) 4) 0 := by simp [memWords, h]
  rw [hword, coef_wordAt_readBytes _ _ _ _ _ (by omega), Nat.zero_add, Nat.add_assoc]

theorem rkWord_rkInstall_below (rk : Vector FieldWord Config.rkWords) {ws : List FieldWord} {i : Nat}
    (hi : i < ws.length) (hws : ws.length ≤ 60) : rkWord (rkInstall rk ws) i = ws.getD i .zero := by
  rw [rkWord_rkInstall rk ws i (by omega), List.getD_eq_getElem?_getD, List.getElem?_eq_getElem hi]
  rfl

/-- A schedule installed in the round-key memory: the words of the key and the recurrence, read from there. -/
theorem rkWord_rkInstall_of_isSchedule {key : List Byte} {nk n : Nat} {ws : List FieldWord} (h : IsSchedule key nk n ws)
    (hnk : 0 < nk) (hle : nk ≤ n) (hn : n ≤ 60) (rk : Vector FieldWord Config.rkWords) :
    (∀ i < nk, rkWord (rkInstall rk ws) i = wordAt key (4 * i)) ∧
    (∀ i, nk ≤ i → i < n → rkWord (rkInstall rk ws) i =
      wAdd (rkWord (rkInstall rk ws) (i - nk)) (expandTemp nk i (rkWord (rkInstall rk ws) (i - 1)))) := by
  obtain ⟨hlen, hkey, hrec⟩ := h
  have hword : ∀ i < n, rkWord (rkInstall rk ws) i = ws.getD i .zero := fun i hi =>
    rkWord_rkInstall_below rk (by omega) (by omega)
  refine ⟨fun i hi => ?_, fun i hnki hi => ?_⟩
  · rw [hword i (by omega), hkey i hi]
  · rw [hword i hi, hword (i - nk) (by omega), hword (i - 1) (by omega), hrec i hnki hi]

/-! ### The results of KEXP and LDRK (R194, R195) -/

/-- KEXP of a key that lies in memory (R194). -/
theorem exec_kexp {s : State} {nk : Nat} (hf : s.FAULT = false) (hnk : nk = 4 ∨ nk = 6 ∨ nk = 8)
    (hin : s.SRC.toNat + 4 * nk ≤ s.memSize) :
    exec (.kexp nk) s = done { s with
      RK := rkInstall s.RK (keyExpand (Memory.readBytes s.MEM s.SRC.toNat (4 * nk)) nk), RKLEN := scheduleWords nk } :=
  (whenRunning_running s _ hf).trans ((if_neg (not_not_intro hnk)).trans (if_neg (not_not_intro (.inr hin))))

/-- LDRK of words that lie in memory, or of none (R195). -/
theorem exec_ldrk {s : State} {n : Nat} (hf : s.FAULT = false) (hn : n ≤ 60) (hin : inRange s.memSize s.SRC.toNat (4 * n)) :
    exec (.ldrk n) s = done { s with RK := rkInstall s.RK (memWords s.MEM s.SRC.toNat n), RKLEN := n } :=
  (whenRunning_running s _ hf).trans ((if_neg (Nat.not_lt_of_le hn)).trans (if_neg (not_not_intro hin)))

/-- Settles O41: the words installed are a schedule of the key in memory (`isSchedule_keyExpand`), and each of the two
checks, in its turn, decides the fault. -/
theorem kexpInstallsTheExpandedKey : Obligations.KexpInstallsTheExpandedKey := by
  refine ⟨fun _ => ⟨rfl, rfl⟩, fun s nk hs => ⟨fun h4 h6 h8 => ?keySize, fun hnk hout => ?outside, fun hnk hin => ?inside⟩⟩
  case keySize => exact (whenRunning_running s _ hs).trans (if_pos (by omega))
  case outside =>
    exact (whenRunning_running s _ hs).trans
      ((if_neg (not_not_intro hnk)).trans (rangeCheck_outside _ _ (by omega) hout))
  case inside =>
    have hschedule := isSchedule_keyExpand (Memory.readBytes s.MEM s.SRC.toNat (4 * nk)) (nk := nk) (by omega)
    have hlen := hschedule.length_eq
    have hsize : scheduleWords nk = 4 * (nk + 7) := rfl
    obtain ⟨hkey, hrec⟩ := rkWord_rkInstall_of_isSchedule hschedule (by omega) (by omega) (by omega) s.RK
    refine ⟨_, exec_kexp hs hnk hin, rfl, fun i hi k => ?key, fun i hle hlt => ?expanded, fun i hi => ?above⟩
    case key => exact (congrArg (·.coef k) (hkey i hi)).trans (coef_wordAt_readBytes _ _ _ _ k (by omega))
    case expanded => exact (hrec i hle hlt).trans (congrArg _ (expandTemp_eq _ hnk hle hlt))
    case above => exact rkWord_rkInstall_above s.RK _ i (by omega)

/-- Settles O43: the words installed are those in memory (`coef_getD_memWords`), and each of the two checks, in its turn,
decides the fault. -/
theorem ldrkInstallsWordsFromMemory : Obligations.LdrkInstallsWordsFromMemory := by
  refine ⟨fun _ => ⟨rfl, rfl⟩, fun s n hs => ⟨fun hmany => ?count, fun hn hne hout => ?outside, fun hn hin => ?inside⟩⟩
  case count => exact (whenRunning_running s _ hs).trans (if_pos hmany)
  case outside =>
    exact (whenRunning_running s _ hs).trans
      ((if_neg (Nat.not_lt_of_le hn)).trans (rangeCheck_outside _ _ (by omega) hout))
  case inside =>
    have hlen := memWords_length s.MEM s.SRC.toNat n
    refine ⟨_, exec_ldrk hs hn (by omega), rfl, fun i hi k => ?installed, fun i hi => ?above⟩
    case installed =>
      exact (congrArg (·.coef k) (rkWord_rkInstall_below s.RK (by omega) (by omega))).trans
        (coef_getD_memWords s.MEM s.SRC.toNat n i k hi)
    case above => exact rkWord_rkInstall_above s.RK _ i (by omega)

/-! ### The published expansions (R196) -/

/-- Settles O42: the schedule of each key size, evaluated. -/
theorem keyExpansionsAreThePublishedOnes : Obligations.KeyExpansionsAreThePublishedOnes := by
  refine ⟨?key128, ?key192, ?key256⟩
  all_goals decide +kernel

end Sys2Proof.Machine

namespace Sys2Proof.Machine

/-! ### Sequences of commands that work on S alone -/

section
variable {s : State} {is js : List Instr} {f g : Grid → Grid}

/-- Issued one by one from `s`, with any value in S and `(OK, 0, 0)` as the last response, the commands replace S by its
image under `f` and change nothing else. -/
def RunsAs (s : State) (is : List Instr) (f : Grid → Grid) : Prop :=
  ∀ t, runCommands is (s.withBlock t s.MEM) = .next (s.withBlock (f t) s.MEM)

theorem runsAs_nil (s : State) : RunsAs s [] id := fun _ => rfl

theorem runCommands_append {t : State} (js : List Instr) (h : runCommands is s = .next t) :
    runCommands (is ++ js) s = runCommands js t := by
  induction is generalizing s with
  | nil => rw [List.nil_append, Host.Outcome.next.inj h]
  | cons i is ih =>
    obtain ⟨u, hu⟩ := exec_goesOn i s
    rw [runCommands_cons is hu] at h
    exact (runCommands_cons (is ++ js) hu).trans (ih h)

theorem RunsAs.append (hfirst : RunsAs s is f) (hthen : RunsAs s js g) : RunsAs s (is ++ js) (g ∘ f) :=
  fun t => (runCommands_append js (hfirst t)).trans (hthen (f t))

/-- The command sequences of the rounds 0 .. n-1, one after another, are the ascending loop over their meanings. -/
theorem runsAs_forLoop {round : Nat → List Instr} {body : Nat → Grid → Grid} (n : Nat)
    (h : ∀ k < n, RunsAs s (round k) (body k)) : RunsAs s ((List.range n).map round).flatten (forLoop body n) := by
  induction n with
  | zero => exact runsAs_nil s
  | succ n ih =>
    rw [List.range_succ, List.map_append, List.flatten_append, List.map_singleton, List.flatten_singleton]
    exact (ih fun k hk => h k (by omega)).append (h n (by omega))

/-- The command sequences of the rounds n-1 .. 0, one after another, are the descending loop over their meanings. -/
theorem runsAs_downLoop {round : Nat → List Instr} {body : Nat → Grid → Grid} (n : Nat)
    (h : ∀ k < n, RunsAs s (round k) (body k)) :
    RunsAs s ((List.range n).reverse.map round).flatten (downLoop body n) := by
  induction n with
  | zero => exact runsAs_nil s
  | succ n ih =>
    rw [List.range_succ, List.reverse_append, List.reverse_singleton, List.singleton_append, List.map_cons,
      List.flatten_cons]
    exact (h n (by omega)).append (ih fun k hk => h k (by omega))

/-! ### The transformation commands as such sequences (R173 to R179) -/

/-- ADDRK of a round whose slice is installed (R179). -/
theorem exec_addrk {r : Nat} (hs : s.running) (hr : 4 * r + 4 ≤ s.RKLEN) :
    exec (.addrk r) s = done { s with S := addRoundKey s.S (rkSlice s.RK r) } :=
  (whenRunning_running s _ hs).trans (if_neg (Nat.not_lt_of_le hr))

theorem runsAs_addrk {r : Nat} (hs : s.running) (hr : 4 * r + 4 ≤ s.RKLEN) :
    RunsAs s [.addrk r] (addRoundKey · (rkSlice s.RK r)) :=
  fun t => runCommands_cons [] (exec_addrk (s := s.withBlock t s.MEM) hs hr)

/-- A command whose meaning is the function `f` on S (R173 to R178). -/
theorem runsAs_transformation {i : Instr} (f : Grid → Grid) (hs : s.running)
    (hexec : ∀ t, exec i t = whenRunning t (done { t with S := f t.S })) : RunsAs s [i] f :=
  fun t => runCommands_cons [] ((hexec _).trans (whenRunning_running (s.withBlock t s.MEM) _ hs))

/-- The two transformations that open each round of the forward cipher after the first key addition (R212). -/
theorem runsAs_subbytes_shiftrows (hs : s.running) : RunsAs s [.subbytes, .shiftrows] (shiftRows ∘ subBytes) :=
  (runsAs_transformation subBytes hs fun _ => rfl).append (runsAs_transformation shiftRows hs fun _ => rfl)

/-- The two transformations that open each round of the inverse cipher after the first key addition (R213). -/
theorem runsAs_ishiftrows_isubbytes (hs : s.running) :
    RunsAs s [.ishiftrows, .isubbytes] (invSubBytes ∘ invShiftRows) :=
  (runsAs_transformation invShiftRows hs fun _ => rfl).append (runsAs_transformation invSubBytes hs fun _ => rfl)

theorem runsAs_cipherRound {r : Nat} (hs : s.running) (hr : 4 * r + 4 ≤ s.RKLEN) :
    RunsAs s [.subbytes, .shiftrows, .mixcols, .addrk r] (cipherRound s.RK r) :=
  (runsAs_subbytes_shiftrows hs).append
    ((runsAs_transformation mixColumns hs fun _ => rfl).append (runsAs_addrk hs hr))

theorem runsAs_invCipherRound {r : Nat} (hs : s.running) (hr : 4 * r + 4 ≤ s.RKLEN) :
    RunsAs s [.ishiftrows, .isubbytes, .addrk r, .imixcols] (invCipherRound s.RK r) :=
  (runsAs_ishiftrows_isubbytes hs).append
    ((runsAs_addrk hs hr).append (runsAs_transformation invMixColumns hs fun _ => rfl))

/-! ### The cipher driver (R211 to R215) -/

/-- The slice of every round of a valid schedule is installed (R210, R211). -/
theorem slice_le_of_le_roundsOf {l r : Nat} (hl : rkValid l = true) (hr : r ≤ roundsOf l) : 4 * r + 4 ≤ l := by
  obtain ⟨hmod, hlt⟩ := (rkValid_iff l).1 hl
  rw [roundsOf] at hr
  omega

/-- The check of the schedule length, where the length is not valid: RkLen, whose cause code is 4 (R211, R303). -/
theorem rkLenCheck_invalid (w : RegVal) (r : Result) (hl : s.RKLEN % 4 ≠ 0 ∨ s.RKLEN ≤ 4) :
    (if ¬ rkValid s.RKLEN then raise .rkLen w s else r) = .next (s.afterFault 4 w) :=
  if_pos (by rw [rkValid_iff]; omega)

/-- The first key addition leads from `s` to where `RunsAs` speaks of the rounds (R212). -/
theorem runCommands_cipherCommands (hs : s.running) (hl : rkValid s.RKLEN = true) :
    runCommands (cipherCommands (roundsOf s.RKLEN)) s = .next (s.withBlock (cipher s.S s.RK s.RKLEN) s.MEM) := by
  have hslice := fun r => slice_le_of_le_roundsOf (r := r) hl
  have hrounds := runsAs_forLoop (roundsOf s.RKLEN - 1) fun k hk => runsAs_cipherRound hs (hslice (k + 1) (by omega))
  have hlast := (runsAs_subbytes_shiftrows hs).append (runsAs_addrk hs (hslice _ (Nat.le_refl _)))
  rw [cipherCommands, List.append_assoc]
  exact (runCommands_cons _ (exec_addrk hs (hslice 0 (Nat.zero_le _)))).trans (hrounds.append hlast _)

/-- As for the forward cipher, with the rounds descending to the key addition of slice 0 (R213). -/
theorem runCommands_invCipherCommands (hs : s.running) (hl : rkValid s.RKLEN = true) :
    runCommands (invCipherCommands (roundsOf s.RKLEN)) s =
      .next (s.withBlock (invCipher s.S s.RK s.RKLEN) s.MEM) := by
  have hslice := fun r => slice_le_of_le_roundsOf (r := r) hl
  have hrounds :=
    runsAs_downLoop (roundsOf s.RKLEN - 1) fun k hk => runsAs_invCipherRound hs (hslice (k + 1) (by omega))
  have hlast := (runsAs_ishiftrows_isubbytes hs).append (runsAs_addrk hs (hslice 0 (Nat.zero_le _)))
  rw [invCipherCommands, List.append_assoc]
  exact (runCommands_cons _ (exec_addrk hs (hslice _ (Nat.le_refl _)))).trans (hrounds.append hlast _)

end

/-- Settles O44: both ways end in the state whose S is `cipher` of the old one (`exec_enc`, `runCommands_cipherCommands`),
and the check of the length decides the fault. -/
theorem encEqualsItsTransformationCommands : Obligations.EncEqualsItsTransformationCommands := by
  refine ⟨⟨rfl, rfl⟩, fun s hs => ⟨fun hinvalid => ?invalid, fun hmod hlt => ?valid⟩⟩
  case invalid => exact (whenRunning_running s _ hs).trans (rkLenCheck_invalid _ _ hinvalid)
  case valid =>
    have hl := (rkValid_iff s.RKLEN).2 ⟨hmod, hlt⟩
    exact ⟨_, exec_enc hs hl, rfl, runCommands_cipherCommands hs hl⟩

/-- Settles O45: both ways end in the state whose S is `invCipher` of the old one (`exec_dec`,
`runCommands_invCipherCommands`), and the check of the length decides the fault. -/
theorem decEqualsItsTransformationCommands : Obligations.DecEqualsItsTransformationCommands := by
  refine ⟨⟨rfl, rfl⟩, fun s hs => ⟨fun hinvalid => ?invalid, fun hmod hlt => ?valid⟩⟩
  case invalid => exact (whenRunning_running s _ hs).trans (rkLenCheck_invalid _ _ hinvalid)
  case valid =>
    have hl := (rkValid_iff s.RKLEN).2 ⟨hmod, hlt⟩
    exact ⟨_, exec_dec hs hl, rfl, runCommands_invCipherCommands hs hl⟩

end Sys2Proof.Machine

namespace Sys2Proof.Machine

/-! ### Byte sequences as big-endian integers (R66) -/

theorem natOfBytes_concat (b : List Byte) (c : Byte) : natOfBytes (b ++ [c]) = 256 * natOfBytes b + c.toNat := by
  simp only [natOfBytes, List.foldl_append, List.foldl_cons, List.foldl_nil]

theorem natOfBytes_append (a b : List Byte) : natOfBytes (a ++ b) = natOfBytes a * 256 ^ b.length + natOfBytes b := by
  induction b using List.reverseRecOn with
  | nil => simp [natOfBytes]
  | append_singleton b c ih =>
    rw [← List.append_assoc, natOfBytes_concat, natOfBytes_concat, ih, List.length_append, List.length_singleton, pow_succ]
    ring

theorem natOfBytes_lt (b : List Byte) : natOfBytes b < 256 ^ b.length := by
  induction b using List.reverseRecOn with
  | nil => simp [natOfBytes]
  | append_singleton b c ih =>
    have hc := c.isLt
    rw [natOfBytes_concat, List.length_append, List.length_singleton, pow_succ]
    omega

theorem natOfBytes_replicate_zero (n : Nat) : natOfBytes (List.replicate n 0x00) = 0 := by
  induction n with
  | zero => rfl
  | succ n ih => rw [List.replicate_succ', natOfBytes_concat, ih]; rfl

theorem natOfBytes_replicate_ff (n : Nat) : natOfBytes (List.replicate n 0xFF) + 1 = 256 ^ n := by
  induction n with
  | zero => rfl
  | succ n ih =>
    have hff : (0xFF : Byte).toNat = 255 := rfl
    rw [List.replicate_succ', natOfBytes_concat, pow_succ, hff]
    omega

/-- Byte sequences of one length that are the same integer are equal. -/
theorem eq_of_natOfBytes_eq {a b : List Byte} (hlen : a.length = b.length) (h : natOfBytes a = natOfBytes b) : a = b := by
  induction a using List.reverseRecOn generalizing b with
  | nil => exact (List.eq_nil_of_length_eq_zero hlen.symm).symm
  | append_singleton a c ih =>
    obtain rfl | ⟨b, d, rfl⟩ := List.eq_nil_or_concat' b
    · simp at hlen
    · have hc := c.isLt
      have hd := d.isLt
      rw [natOfBytes_concat, natOfBytes_concat] at h
      rw [ih (by simpa using hlen) (by omega), BitVec.eq_of_toNat_eq (x := c) (y := d) (by omega)]

@[simp] theorem bytesOfNat_length (n v : Nat) : (bytesOfNat n v).length = n := by
  induction n with
  | zero => rfl
  | succ n ih => rw [bytesOfNat, List.length_cons, ih]

theorem natOfBytes_bytesOfNat (n v : Nat) : natOfBytes (bytesOfNat n v) = v % 256 ^ n := by
  induction n with
  | zero => exact (Nat.mod_one v).symm
  | succ n ih =>
    have hcons := natOfBytes_append [BitVec.ofNat 8 (v / 256 ^ n)] (bytesOfNat n v)
    have hhead : natOfBytes [BitVec.ofNat 8 (v / 256 ^ n)] = v / 256 ^ n % 256 := Nat.zero_add _
    rw [bytesOfNat, ← List.singleton_append, hcons, hhead, ih, bytesOfNat_length, Nat.mod_pow_succ]
    ring

/-! ### The counter (R235, R236) -/

@[simp] theorem inc128_length (b : List Byte) : (inc128 b).length = 16 := bytesOfNat_length 16 _

theorem natOfBytes_inc128 (b : List Byte) : natOfBytes (inc128 b) = (natOfBytes b + 1) % 2 ^ 128 :=
  (natOfBytes_bytesOfNat 16 _).trans (Nat.mod_mod _ _)

/-- The increment is the one block whose integer is the next one. -/
theorem inc128_eq {b c : List Byte} (hlen : c.length = 16) (h : natOfBytes c = (natOfBytes b + 1) % 2 ^ 128) :
    inc128 b = c :=
  eq_of_natOfBytes_eq ((inc128_length b).trans hlen.symm) ((natOfBytes_inc128 b).trans h.symm)

theorem natOfBytes_lt_of_length_eq_16 {b : List Byte} (hlen : b.length = 16) : natOfBytes b < 2 ^ 128 :=
  (natOfBytes_lt b).trans_eq (by rw [hlen]; rfl)

theorem counterBlock_zero (iv : Grid) : counterBlock iv 0 = toBlock iv :=
  eq_of_natOfBytes_eq (bytesOfNat_length 16 _) <| (natOfBytes_bytesOfNat 16 _).trans <|
    (Nat.mod_mod _ _).trans (Nat.mod_eq_of_lt (natOfBytes_lt_of_length_eq_16 (toBlock_length iv)))

theorem inc128_counterBlock (iv : Grid) (i : Nat) : inc128 (counterBlock iv i) = counterBlock iv (i + 1) := by
  have hcounter : ∀ j, natOfBytes (counterBlock iv j) = (natOfBytes (toBlock iv) + j) % 2 ^ 128 := fun j =>
    (natOfBytes_bytesOfNat 16 _).trans (Nat.mod_mod _ _)
  exact inc128_eq (bytesOfNat_length 16 _) (by rw [hcounter, hcounter, Nat.mod_add_mod, Nat.add_assoc])

theorem toNat_append_eq_add {m n : Nat} (x : BitVec m) (y : BitVec n) :
    (x ++ y).toNat = x.toNat * 2 ^ n + y.toNat := by
  rw [BitVec.toNat_append, ← Nat.shiftLeft_add_eq_or_of_lt y.isLt, Nat.shiftLeft_eq]

theorem natOfBytes_bytesOf (w : FieldWord) : natOfBytes (bytesOf w) = w.pack.toNat := by
  simp only [natOfBytes, bytesOf, FieldWord.pack, toNat_append_eq_add, List.foldl_cons, List.foldl_nil]
  omega

theorem natOfBytes_toBlock (g : Grid) :
    natOfBytes (toBlock g) = (g.t0.pack ++ g.t1.pack ++ g.t2.pack ++ g.t3.pack).toNat := by
  have hlen : ∀ w, (bytesOf w).length = 4 := fun _ => rfl
  simp only [toBlock, natOfBytes_append, natOfBytes_bytesOf, toNat_append_eq_add, hlen]
  norm_num

/-- The bytes 0xff after a byte that is not pass the carry on to it. -/
theorem inc128_carry (p : List Byte) (b : Byte) (n : Nat) (hlen : p.length + 1 + n = 16) (hb : b ≠ 0xFF) :
    inc128 (p ++ b :: List.replicate n 0xFF) = p ++ (b + 1) :: List.replicate n 0x00 := by
  have hlen' : (p ++ (b + 1) :: List.replicate n 0x00).length = 16 := by
    simp only [List.length_append, List.length_cons, List.length_replicate]; omega
  have hsucc : (b + 1).toNat = b.toNat + 1 := by bv_omega
  have hnext : natOfBytes (p ++ (b + 1) :: List.replicate n 0x00) =
      natOfBytes (p ++ b :: List.replicate n 0xFF) + 1 := by
    have hsplit : ∀ (c : Byte) (t : List Byte), natOfBytes (p ++ c :: t) =
        (256 * natOfBytes p + c.toNat) * 256 ^ t.length + natOfBytes t := fun c t => by
      rw [← natOfBytes_concat, ← natOfBytes_append, List.append_assoc, List.singleton_append]
    rw [hsplit, hsplit, natOfBytes_replicate_zero, Nat.add_assoc _ _ 1, natOfBytes_replicate_ff, hsucc]
    simp only [List.length_replicate]
    ring
  exact inc128_eq hlen' (by rw [← hnext, Nat.mod_eq_of_lt (natOfBytes_lt_of_length_eq_16 hlen')])

/-- Settles O49: bytes and integers, both ways (`inc128_eq`, `natOfBytes_inc128`); the carry is `inc128_carry`, and
sixteen bytes 0xff are the integer 2^128 - 1. -/
theorem counterIncrementByteByByte : Obligations.CounterIncrementByteByByte := by
  refine ⟨inc128_carry, ?wrap, natOfBytes_toBlock, fun b _ => ⟨inc128_length b, natOfBytes_inc128 b⟩⟩
  case wrap =>
    refine inc128_eq (List.length_replicate ..) ?_
    rw [natOfBytes_replicate_zero, natOfBytes_replicate_ff]
    rfl

/-! ### Parts of a byte sequence in memory -/

section
variable {m : Memory} {a n j k : Nat} {v : List Byte}

theorem Memory.readBytes_take (h : k ≤ n) : (Memory.readBytes m a n).take k = Memory.readBytes m a k := by
  rw [← Nat.add_sub_of_le h, Memory.readBytes_append, List.take_left' (Memory.readBytes_length m a k)]

theorem Memory.readBytes_drop (h : j ≤ n) : (Memory.readBytes m a n).drop j = Memory.readBytes m (a + j) (n - j) := by
  conv_lhs => rw [← Nat.add_sub_of_le h]
  rw [Memory.readBytes_append, List.drop_left' (Memory.readBytes_length m a j)]

/-- The chunk of k bytes at index j. -/
theorem Memory.readBytes_drop_take (h : j + k ≤ n) :
    ((Memory.readBytes m a n).drop j).take k = Memory.readBytes m (a + j) k := by
  rw [Memory.readBytes_drop (by omega), Memory.readBytes_take (by omega)]

/-- A byte sequence written where another one ends. -/
theorem Memory.readBytes_writeBytes_append (hv : v.length = n) :
    Memory.readBytes (Memory.writeBytes m (a + k) v) a (k + n) = Memory.readBytes m a k ++ v := by
  rw [Memory.readBytes_append, Memory.readBytes_writeBytes_self _ _ _ _ hv,
    Memory.readBytes_writeBytes_disjoint _ _ _ _ _ (by omega)]

end

/-! ### The blocks of a message (R230, R261) -/

theorem blocksOf_readBytes (m : Memory) (a n : Nat) :
    blocksOf (Memory.readBytes m a n) = (List.range (n / 16)).map fun i => Memory.readBytes m (a + 16 * i) 16 := by
  rw [blocksOf, Memory.readBytes_length]
  refine List.map_congr_left fun i hi => Memory.readBytes_drop_take ?_
  have hlt := List.mem_range.1 hi
  omega

theorem padMessage_length (msg : List Byte) : (padMessage msg).length = 16 * blockCount msg.length := by
  have hcount : blockCount msg.length = msg.length / 16 + 1 := rfl
  rw [padMessage, List.length_append, List.length_replicate]
  omega

theorem blocksOf_padMessage (msg : List Byte) :
    blocksOf (padMessage msg) = (List.range (blockCount msg.length)).map (padBlock msg) := by
  rw [blocksOf, padMessage_length, Nat.mul_div_cancel_left _ (by decide)]
  rfl

/-- A block of the padded message is what R261 reads from memory and fills up. -/
theorem padBlock_readBytes {m : Memory} {a n i : Nat} (hi : i < blockCount n) :
    padBlock (Memory.readBytes m a n) i = padBlockAt m a n i := by
  have hcount : blockCount n = n / 16 + 1 := rfl
  rw [padBlock, padMessage, Memory.readBytes_length, padBlockAt,
    List.drop_append_of_le_length (by rw [Memory.readBytes_length]; omega)]
  split
  · rw [List.take_append_of_le_length (by rw [List.length_drop, Memory.readBytes_length]; omega),
      Memory.readBytes_drop_take (by omega)]
  · have hpad : 16 * blockCount n - n = 16 - (n - 16 * i) := by omega
    rw [Memory.readBytes_drop (by omega), hpad, List.take_of_length_le]
    rw [List.length_append, Memory.readBytes_length, List.length_replicate]
    omega

/-! ### Chained encryption and decryption, by the last block (R233, R234) -/

theorem chainEncrypt_concat (e : List Byte → List Byte) (prev : List Byte) (ps : List (List Byte)) (p : List Byte) :
    chainEncrypt e prev (ps ++ [p]) =
      chainEncrypt e prev ps ++ [e (xorBytes p ((chainEncrypt e prev ps).getLastD prev))] := by
  induction ps generalizing prev with
  | nil => rfl
  | cons q ps ih => rw [List.cons_append, chainEncrypt, ih, chainEncrypt, List.cons_append, List.getLastD_cons]

theorem chainDecrypt_concat (d : List Byte → List Byte) (prev : List Byte) (cs : List (List Byte)) (c : List Byte) :
    chainDecrypt d prev (cs ++ [c]) = chainDecrypt d prev cs ++ [xorBytes (d c) (cs.getLastD prev)] := by
  induction cs generalizing prev with
  | nil => rfl
  | cons b cs ih => rw [List.cons_append, chainDecrypt, ih, chainDecrypt, List.cons_append, List.getLastD_cons]

/-! ### The checks of the mode commands (R231, R309) -/

/-- The checks every mode command makes, in their order: the schedule, the two ranges, their disjointness. -/
def modeChecks (w : RegVal) (src n dst k : Nat) (s : State) (r : Result) : Result :=
  if ¬ rkValid s.RKLEN then raise .rkLen w s
  else if ¬ inRange s.memSize src n ∨ ¬ inRange s.memSize dst k then raise .addrRange w s
  else if ¬ disjoint src n dst k then raise .overlap w s
  else r

section
variable {s : State} {w : RegVal} {src n dst k : Nat} {r : Result}

theorem modeChecks_rkLen (hl : ¬ (s.RKLEN % 4 = 0 ∧ 4 < s.RKLEN)) :
    modeChecks w src n dst k s r = .next (s.afterFault 4 w) :=
  rkLenCheck_invalid w _ (by omega)

theorem modeChecks_addrRange (hl : s.RKLEN % 4 = 0 ∧ 4 < s.RKLEN)
    (hin : ¬ (inRange s.memSize src n ∧ inRange s.memSize dst k)) :
    modeChecks w src n dst k s r = .next (s.afterFault 7 w) :=
  (if_neg (not_not_intro ((rkValid_iff _).2 hl))).trans (if_pos (not_and_or.1 hin))

theorem modeChecks_overlap (hl : s.RKLEN % 4 = 0 ∧ 4 < s.RKLEN)
    (hin : inRange s.memSize src n ∧ inRange s.memSize dst k) (hap : ¬ disjoint src n dst k) :
    modeChecks w src n dst k s r = .next (s.afterFault 8 w) :=
  (if_neg (not_not_intro ((rkValid_iff _).2 hl))).trans ((if_neg (by omega)).trans (if_pos hap))

theorem modeChecks_pass (hl : s.RKLEN % 4 = 0 ∧ 4 < s.RKLEN)
    (hin : inRange s.memSize src n ∧ inRange s.memSize dst k) (hap : disjoint src n dst k) :
    modeChecks w src n dst k s r = r :=
  (if_neg (not_not_intro ((rkValid_iff _).2 hl))).trans ((if_neg (by omega)).trans (if_neg (not_not_intro hap)))

end

/-- CBCENC past its checks: one block step for each block of the padded message (R233). -/
def cbcencLoop (s : State) : State :=
  forLoop (cbcEncBlock s.SRC.toNat s.DST.toNat s.LEN.toNat) (blockCount s.LEN.toNat) { s with CUR := s.IV }

/-- CBCDEC past its checks: one block step for each ciphertext block (R234). -/
def cbcdecLoop (s : State) : State :=
  forLoop (cbcDecBlock s.SRC.toNat s.DST.toNat) (s.LEN.toNat / 16) { s with CUR := s.IV }

/-- CTR past its checks: one step for each chunk of the message (R236). -/
def ctrLoop (s : State) : State :=
  forLoop (ctrChunk s.SRC.toNat s.DST.toNat s.LEN.toNat) (chunkCount s.LEN.toNat) { s with CUR := s.IV }

section
variable {s : State} (hs : s.running)
include hs

theorem exec_cbcenc : exec .cbcenc s =
    modeChecks 0x60000000 s.SRC.toNat s.LEN.toNat s.DST.toNat (16 * blockCount s.LEN.toNat) s
      (done { cbcencLoop s with OUTLEN := BitVec.ofNat 32 (16 * blockCount s.LEN.toNat) }) :=
  whenRunning_running s _ hs

theorem exec_ctr : exec .ctr s = modeChecks 0x62000000 s.SRC.toNat s.LEN.toNat s.DST.toNat s.LEN.toNat s
    (done { ctrLoop s with OUTLEN := BitVec.ofNat 32 s.LEN.toNat }) :=
  whenRunning_running s _ hs

theorem exec_cbcdec_format (hmod : s.LEN.toNat % 16 ≠ 0) : exec .cbcdec s = .next (s.afterError 1) :=
  (whenRunning_running s _ hs).trans (if_pos hmod)

theorem exec_cbcdec (hmod : s.LEN.toNat % 16 = 0) : exec .cbcdec s =
    modeChecks 0x61000000 s.SRC.toNat s.LEN.toNat s.DST.toNat s.LEN.toNat s
      (finishUnpad s.DST.toNat s.LEN.toNat (cbcdecLoop s)) :=
  (whenRunning_running s _ hs).trans (if_neg (not_not_intro hmod))

end

/-! ### The loops of the mode commands (R231) -/

theorem Memory.SameOutside.agreeOn {a n b k : Nat} {m m' : Memory} (h : Memory.SameOutside b k m m')
    (hap : disjoint a n b k) : Memory.AgreeOn a n m m' :=
  fun j _ _ => h j (by omega)

/-- What a mode command's loop has done to the state by any iteration: only S, MEM and CUR changed, and MEM only in the
destination, so the message still stands in the source. -/
structure LoopFrame (s : State) (src n dst k : Nat) (u : State) : Prop where
  blocks : s.sameButBlocks u
  outside : Memory.SameOutside dst k s.MEM u.MEM
  source : Memory.AgreeOn src n s.MEM u.MEM

/-- A relation `P` that each block step carries on, given the frame of the loop, holds at the end of the loop together
with that frame. The step's store, of the bytes `stored`, must lie in the destination. -/
theorem forLoop_blocks {s : State} {src n dst k : Nat} {body : Nat → State → State} {count : Nat}
    {stored : Nat → State → List Byte} (P : Nat → State → Prop) (hap : disjoint src n dst k)
    (hframe : ∀ i u, State.sameButBlocks u (body i u))
    (hMEM : ∀ i u, (body i u).MEM = Memory.writeBytes u.MEM (dst + 16 * i) (stored i u))
    (hfits : ∀ i < count, ∀ u, 16 * i + (stored i u).length ≤ k)
    (h0 : P 0 { s with CUR := s.IV })
    (hstep : ∀ i < count, ∀ u, LoopFrame s src n dst k u → P i u → P (i + 1) (body i u)) :
    LoopFrame s src n dst k (forLoop body count { s with CUR := s.IV }) ∧
      P count (forLoop body count { s with CUR := s.IV }) := by
  have hrefl := Memory.sameOutside_refl dst k s.MEM
  refine forLoop_induct body count _ (fun i u => LoopFrame s src n dst k u ∧ P i u)
    ⟨⟨rfl, hrefl, hrefl.agreeOn hap⟩, h0⟩ fun i hi u ⟨hu, hP⟩ => ⟨?_, hstep i hi u hu hP⟩
  have hblocks : s.sameButBlocks (body i u) := (hframe i u).trans (by rw [hu.blocks])
  have houtside : Memory.SameOutside dst k s.MEM (body i u).MEM := by
    have hfit := hfits i hi u
    rw [hMEM]
    exact hu.outside.writeBytes _ _ (by omega)
  exact ⟨hblocks, houtside, houtside.agreeOn hap⟩

/-! ### CBCENC (R233) -/

/-- The first k blocks of the output. -/
def cbcencOutput (s : State) (k : Nat) : List (List Byte) :=
  chainEncrypt (encBlk s.RK s.RKLEN) (toBlock s.IV) ((List.range k).map (padBlock s.message))

theorem cbcencOutput_succ (s : State) (k : Nat) : cbcencOutput s (k + 1) = cbcencOutput s k ++
    [encBlk s.RK s.RKLEN (xorBytes (padBlock s.message k) ((cbcencOutput s k).getLastD (toBlock s.IV)))] := by
  rw [cbcencOutput, List.range_succ, List.map_append, List.map_singleton, chainEncrypt_concat]
  rfl

theorem cbcencOutput_blockCount (s : State) : cbcencOutput s (blockCount s.LEN.toNat) =
    chainEncrypt (encBlk s.RK s.RKLEN) (toBlock s.IV) (blocksOf (padMessage s.message)) := by
  rw [blocksOf_padMessage, State.message, Memory.readBytes_length]
  rfl

/-- After k block steps the destination holds the first k blocks of the output, and the cursor the last of them; after
each step that block is in S too. -/
structure CbcencProgress (s : State) (k : Nat) (u : State) : Prop where
  output : Memory.readBytes u.MEM s.DST.toNat (16 * k) = (cbcencOutput s k).flatten
  cursor : toBlock u.CUR = (cbcencOutput s k).getLastD (toBlock s.IV)
  last : ∀ i, k = i + 1 → u.S = u.CUR ∧ toBlock u.CUR = Memory.readBytes u.MEM (s.DST.toNat + 16 * i) 16

theorem cbcencProgress_zero (s : State) : CbcencProgress s 0 { s with CUR := s.IV } where
  output := rfl
  cursor := rfl
  last := nofun

theorem cbcEncBlock_progress {s u : State} {i : Nat} (hi : i < blockCount s.LEN.toNat) (hRK : u.RK = s.RK)
    (hRKLEN : u.RKLEN = s.RKLEN) (hsrc : Memory.AgreeOn s.SRC.toNat s.LEN.toNat s.MEM u.MEM) (h : CbcencProgress s i u) :
    CbcencProgress s (i + 1) (cbcEncBlock s.SRC.toNat s.DST.toNat s.LEN.toNat i u) := by
  obtain ⟨houtput, hcursor, -⟩ := h
  have hblock : padBlockAt u.MEM s.SRC.toNat s.LEN.toNat i = padBlock s.message i :=
    (hsrc.padBlockAt_eq i hi).trans (padBlock_readBytes hi).symm
  have hcipher : toBlock (cbcEncBlock s.SRC.toNat s.DST.toNat s.LEN.toNat i u).CUR =
      encBlk s.RK s.RKLEN (xorBytes (padBlock s.message i) ((cbcencOutput s i).getLastD (toBlock s.IV))) := by
    rw [← hblock, ← hcursor, ← hRK, ← hRKLEN]
    rfl
  constructor
  case output =>
    rw [cbcEncBlock_MEM, Nat.mul_succ, Memory.readBytes_writeBytes_append (toBlock_length _), houtput, hcipher,
      cbcencOutput_succ, List.flatten_append, List.flatten_singleton]
  case cursor => rw [cbcencOutput_succ, List.getLastD_concat, hcipher]
  case last =>
    rintro _ ⟨⟩
    exact ⟨rfl, by rw [cbcEncBlock_MEM, Memory.readBytes_writeBytes_self _ _ _ _ (toBlock_length _)]⟩

theorem cbcencLoop_progress {s : State}
    (hap : disjoint s.SRC.toNat s.LEN.toNat s.DST.toNat (16 * blockCount s.LEN.toNat)) :
    LoopFrame s s.SRC.toNat s.LEN.toNat s.DST.toNat (16 * blockCount s.LEN.toNat) (cbcencLoop s) ∧
      CbcencProgress s (blockCount s.LEN.toNat) (cbcencLoop s) :=
  forLoop_blocks (CbcencProgress s) hap (cbcEncBlock_frame _ _ _) (cbcEncBlock_MEM _ _ _)
    (fun i hi u => by rw [toBlock_length]; omega)
    (cbcencProgress_zero s)
    fun i hi u hu h => cbcEncBlock_progress hi (by rw [hu.blocks]) (by rw [hu.blocks]) hu.source h

/-- Settles O50: past the checks (`exec_cbcenc`) the loop has written the chained encryption block by block
(`cbcencLoop_progress`). -/
theorem cbcencEncryptsThePaddedMessage : Obligations.CbcencEncryptsThePaddedMessage := by
  refine ⟨⟨rfl, rfl⟩, fun s hs => ?_⟩
  have hcount : blockCount s.LEN.toNat = s.LEN.toNat / 16 + 1 := rfl
  rw [exec_cbcenc hs]
  refine ⟨modeChecks_rkLen, fun hl hin => modeChecks_addrRange hl (by omega),
    fun hl hin hap => modeChecks_overlap hl (by omega) (by omega), fun hl hin hap => ?pass⟩
  case pass =>
    rw [modeChecks_pass hl (by omega) (by omega)]
    obtain ⟨⟨hblocks, houtside, -⟩, houtput, -, hlast⟩ := cbcencLoop_progress (s := s) (by omega)
    obtain ⟨hS, hCUR⟩ := hlast _ hcount
    rw [cbcencOutput_blockCount] at houtput
    generalize cbcencLoop s = u at *
    have hframe : u = { s with MEM := u.MEM, S := u.CUR, CUR := u.CUR } := hblocks.trans (by rw [hS])
    refine ⟨_, rfl, ?frame, houtput, hCUR, houtside⟩
    case frame => rw [hframe]; rfl

/-! ### CBCDEC (R234) -/

/-- Ciphertext block i, as the source holds it when the command begins. -/
def State.sourceBlock (s : State) (i : Nat) : List Byte := Memory.readBytes s.MEM (s.SRC.toNat + 16 * i) 16

@[simp] theorem State.sourceBlock_length (s : State) (i : Nat) : (s.sourceBlock i).length = 16 :=
  Memory.readBytes_length _ _ _

/-- The first k blocks of the output, before the padding is looked at. -/
def cbcdecOutput (s : State) (k : Nat) : List (List Byte) :=
  chainDecrypt (decBlk s.RK s.RKLEN) (toBlock s.IV) ((List.range k).map s.sourceBlock)

theorem cbcdecOutput_succ (s : State) (k : Nat) : cbcdecOutput s (k + 1) = cbcdecOutput s k ++
    [xorBytes (decBlk s.RK s.RKLEN (s.sourceBlock k)) (((List.range k).map s.sourceBlock).getLastD (toBlock s.IV))] := by
  rw [cbcdecOutput, List.range_succ, List.map_append, List.map_singleton, chainDecrypt_concat]
  rfl

theorem cbcdecOutput_message (s : State) : cbcdecOutput s (s.LEN.toNat / 16) =
    chainDecrypt (decBlk s.RK s.RKLEN) (toBlock s.IV) (blocksOf s.message) := by
  rw [State.message, blocksOf_readBytes]
  rfl

theorem getLastD_sourceBlocks_succ (s : State) (k : Nat) (d : List Byte) :
    ((List.range (k + 1)).map s.sourceBlock).getLastD d = s.sourceBlock k := by
  rw [List.range_succ, List.map_append, List.map_singleton, List.getLastD_concat]

/-- After k block steps the destination holds the first k blocks of the output, the cursor the last raw ciphertext block,
and S what that block decrypts to. -/
structure CbcdecProgress (s : State) (k : Nat) (u : State) : Prop where
  output : Memory.readBytes u.MEM s.DST.toNat (16 * k) = (cbcdecOutput s k).flatten
  cursor : toBlock u.CUR = ((List.range k).map s.sourceBlock).getLastD (toBlock s.IV)
  decrypted : 0 < k → u.S = invCipher u.CUR s.RK s.RKLEN

theorem cbcdecProgress_zero (s : State) : CbcdecProgress s 0 { s with CUR := s.IV } where
  output := rfl
  cursor := rfl
  decrypted := nofun

theorem cbcDecBlock_progress {s u : State} {i : Nat} (hi : i < s.LEN.toNat / 16) (hRK : u.RK = s.RK)
    (hRKLEN : u.RKLEN = s.RKLEN) (hsrc : Memory.AgreeOn s.SRC.toNat s.LEN.toNat s.MEM u.MEM) (h : CbcdecProgress s i u) :
    CbcdecProgress s (i + 1) (cbcDecBlock s.SRC.toNat s.DST.toNat i u) := by
  obtain ⟨houtput, hcursor, -⟩ := h
  have hblock : Memory.readBytes u.MEM (s.SRC.toNat + 16 * i) 16 = s.sourceBlock i :=
    hsrc.readBytes_eq _ 16 (by omega) (by omega)
  have hCUR : (cbcDecBlock s.SRC.toNat s.DST.toNat i u).CUR = fromBlock (s.sourceBlock i) := congrArg fromBlock hblock
  have hS : (cbcDecBlock s.SRC.toNat s.DST.toNat i u).S = invCipher (fromBlock (s.sourceBlock i)) s.RK s.RKLEN := by
    rw [← hblock, ← hRK, ← hRKLEN]
    rfl
  constructor
  case output =>
    rw [cbcDecBlock_MEM, Nat.mul_succ, Memory.readBytes_writeBytes_append (by simp), houtput, hS, hcursor,
      cbcdecOutput_succ, List.flatten_append, List.flatten_singleton]
    rfl
  case cursor => rw [hCUR, getLastD_sourceBlocks_succ, toBlock_fromBlock _ (s.sourceBlock_length i)]
  case decrypted => exact fun _ => hS.trans (by rw [hCUR])

theorem cbcdecLoop_progress {s : State} (hap : disjoint s.SRC.toNat s.LEN.toNat s.DST.toNat s.LEN.toNat) :
    LoopFrame s s.SRC.toNat s.LEN.toNat s.DST.toNat s.LEN.toNat (cbcdecLoop s) ∧
      CbcdecProgress s (s.LEN.toNat / 16) (cbcdecLoop s) :=
  forLoop_blocks (CbcdecProgress s) hap (cbcDecBlock_frame _ _) (cbcDecBlock_MEM _ _)
    (fun i hi u => by rw [xorBytes_length, toBlock_length, toBlock_length]; omega) (cbcdecProgress_zero s)
    fun i hi u hu h => cbcDecBlock_progress hi (by rw [hu.blocks]) (by rw [hu.blocks]) hu.source h

/-- The end of CBCDEC and UNPAD for an empty buffer or a pad length above the buffer's length (R262). -/
theorem finishUnpad_error {addr n : Nat} {s : State}
    (h : n = 0 ∨ n < (Memory.readByte s.MEM (addr + n - 1)).toNat) :
    finishUnpad addr n s = .next (s.reportError .pad) := by
  have hnone : unpadLength n (Memory.readByte s.MEM (addr + n - 1)) = none := by
    unfold unpadLength
    split
    · rfl
    · exact if_pos (by omega)
  rw [finishUnpad, hnone]
  rfl

/-- The end of CBCDEC and UNPAD for a pad length the buffer can hold (R262). -/
theorem finishUnpad_ok {addr n : Nat} {s : State} (hn : 0 < n)
    (hp : (Memory.readByte s.MEM (addr + n - 1)).toNat ≤ n) : finishUnpad addr n s =
      done { s with OUTLEN := BitVec.ofNat 32 (n - (Memory.readByte s.MEM (addr + n - 1)).toNat), ERR := 0 } := by
  have hsome : unpadLength n (Memory.readByte s.MEM (addr + n - 1)) =
      some (n - (Memory.readByte s.MEM (addr + n - 1)).toNat) :=
    (if_neg (by omega)).trans (if_neg (by omega))
  rw [finishUnpad, hsome]

/-- Both ends of a buffer that is not empty: only OUTLEN, ERR and the response are written, as the last byte says. -/
theorem finishUnpad_result {addr n : Nat} (s : State) (hn : 0 < n) :
    ∃ t, finishUnpad addr n s = .next t ∧ t = { s with OUTLEN := t.OUTLEN, ERR := t.ERR, rsp := t.rsp } ∧
      let p := (Memory.readByte s.MEM (addr + n - 1)).toNat
      (p ≤ n → t.OUTLEN = BitVec.ofNat 32 (n - p) ∧ t.ERR = 0 ∧ t.rsp = some ⟨.ok, 0, 0⟩) ∧
      (n < p → t.OUTLEN = 0 ∧ t.ERR = 2 ∧ t.rsp = some ⟨.err, 2, 0⟩) := by
  rcases Nat.lt_or_ge n (Memory.readByte s.MEM (addr + n - 1)).toNat with hp | hp
  · exact ⟨_, finishUnpad_error (.inr hp), rfl, fun h => absurd hp (Nat.not_lt_of_le h), fun _ => ⟨rfl, rfl, rfl⟩⟩
  · exact ⟨_, finishUnpad_ok hn hp, rfl, fun _ => ⟨rfl, rfl, rfl⟩, fun h => absurd h (Nat.not_lt_of_le hp)⟩

/-- Settles O51: past the checks (`exec_cbcdec`) the loop has written the chained decryption block by block
(`cbcdecLoop_progress`), and the last byte of it decides how the command ends (`finishUnpad_result`). -/
theorem cbcdecDecryptsAndTrustsTheLastByte : Obligations.CbcdecDecryptsAndTrustsTheLastByte := by
  refine ⟨⟨rfl, rfl⟩, fun s hs => ⟨exec_cbcdec_format hs, fun hmod hl => ?rkLen, fun hmod hl hin => ?addrRange,
    fun hmod hl hin hap => ?overlap, fun hn hl => ?empty, fun hmod hn hl hin hap => ?pass⟩⟩
  case rkLen => rw [exec_cbcdec hs hmod, modeChecks_rkLen hl]
  case addrRange => rw [exec_cbcdec hs hmod, modeChecks_addrRange hl (by omega)]
  case overlap => rw [exec_cbcdec hs hmod, modeChecks_overlap hl (by omega) (by omega)]
  case empty =>
    have hloop : cbcdecLoop s = { s with CUR := s.IV } := by rw [cbcdecLoop, hn]; rfl
    rw [exec_cbcdec hs (by omega), modeChecks_pass hl (by omega) (by omega), hloop, finishUnpad_error (.inl hn)]
    rfl
  case pass =>
    rw [exec_cbcdec hs hmod, modeChecks_pass hl (by omega) (by omega)]
    obtain ⟨⟨hblocks, houtside, -⟩, houtput, hcursor, hS⟩ := cbcdecLoop_progress (s := s) (by omega)
    obtain ⟨t, hend, hframe, hlast⟩ := finishUnpad_result (addr := s.DST.toNat) (cbcdecLoop s) hn
    generalize cbcdecLoop s = u at *
    have hMEM : t.MEM = u.MEM := by rw [hframe]
    have hCUR : t.CUR = u.CUR := by rw [hframe]
    have hS' : t.S = u.S := by rw [hframe]
    have hlen : 16 * (s.LEN.toNat / 16) = s.LEN.toNat := by omega
    obtain ⟨k, hk⟩ : ∃ k, s.LEN.toNat / 16 = k + 1 := ⟨s.LEN.toNat / 16 - 1, by omega⟩
    rw [cbcdecOutput_message, hlen] at houtput
    rw [hk, getLastD_sourceBlocks_succ] at hcursor
    refine ⟨t, hend, ?frame, ?output, ?cursor, ?decrypted, ?outside, ?last⟩
    case frame => exact hframe.trans (by rw [hMEM, hCUR, hS', hblocks])
    case output => rw [hMEM, houtput]
    case cursor => rw [hCUR, hcursor, State.sourceBlock, show s.LEN.toNat - 16 = 16 * k by omega]
    case decrypted => rw [hCUR, hS', hS (by omega)]
    case outside => rw [hMEM]; exact houtside
    case last => rw [hMEM]; exact hlast

/-! ### CTR (R236) -/

/-- Byte j of the output: byte j of the message, XORed with byte j mod 16 of the encrypted counter of its chunk. -/
def ctrByte (s : State) (j : Nat) : Byte :=
  Memory.readByte s.MEM (s.SRC.toNat + j) ^^^ (encBlk s.RK s.RKLEN (counterBlock s.IV (j / 16))).getD (j % 16) 0

/-- After k chunks the destination holds their bytes of the output, the cursor is the counter of the next chunk, and S is
the encrypted counter of the last one. -/
structure CtrProgress (s : State) (k : Nat) (u : State) : Prop where
  output : ∀ j < min s.LEN.toNat (16 * k), Memory.readByte u.MEM (s.DST.toNat + j) = ctrByte s j
  cursor : toBlock u.CUR = counterBlock s.IV k
  keystream : 0 < k → toBlock u.S = encBlk s.RK s.RKLEN (counterBlock s.IV (k - 1))
  untouched : k = 0 → u.S = s.S

theorem ctrProgress_zero (s : State) : CtrProgress s 0 { s with CUR := s.IV } where
  output _ hj := absurd hj (by omega)
  cursor := (counterBlock_zero s.IV).symm
  keystream := nofun
  untouched _ := rfl

/-- A chunk of n bytes read at `a` is XORed with the first n bytes of a keystream block and stored at `b`. -/
theorem Memory.readByte_writeBytes_xorBytes {m : Memory} {a b n r : Nat} {ks : List Byte} (hn : n ≤ ks.length)
    (hr : r < n) : Memory.readByte (Memory.writeBytes m b (xorBytes (Memory.readBytes m a n) (ks.take n))) (b + r) =
      Memory.readByte m (a + r) ^^^ ks.getD r 0 := by
  have hlen : r < (xorBytes (Memory.readBytes m a n) (ks.take n)).length := by
    rw [xorBytes_length, Memory.readBytes_length, List.length_take]
    omega
  have hks : r < ks.length := by omega
  rw [Memory.readByte_writeBytes_inside _ _ _ r hlen]
  simp only [xorBytes, List.getElem_zipWith, Memory.readBytes_getElem, List.getElem_take, List.getD_eq_getElem _ _ hks]

theorem ctrChunk_progress {s u : State} {i : Nat} (hi : i < chunkCount s.LEN.toNat) (hRK : u.RK = s.RK)
    (hRKLEN : u.RKLEN = s.RKLEN) (hsrc : Memory.AgreeOn s.SRC.toNat s.LEN.toNat s.MEM u.MEM) (h : CtrProgress s i u) :
    CtrProgress s (i + 1) (ctrChunk s.SRC.toNat s.DST.toNat s.LEN.toNat i u) := by
  obtain ⟨houtput, hcursor, -, -⟩ := h
  have hcount : chunkCount s.LEN.toNat = (s.LEN.toNat + 15) / 16 := rfl
  have hS : toBlock (ctrChunk s.SRC.toNat s.DST.toNat s.LEN.toNat i u).S =
      encBlk s.RK s.RKLEN (counterBlock s.IV i) := by
    rw [← hcursor, ← hRK, ← hRKLEN]
    rfl
  constructor
  case output =>
    intro j hj
    rw [ctrChunk_MEM, hS]
    rcases Nat.lt_or_ge j (16 * i) with hold | hnew
    · rw [Memory.readByte_writeBytes_outside _ _ _ _ (by omega)]
      exact houtput j (by omega)
    · obtain ⟨r, rfl⟩ := Nat.exists_eq_add_of_le hnew
      have hdiv : (16 * i + r) / 16 = i := by omega
      have hmod : (16 * i + r) % 16 = r := by omega
      have hread := hsrc (s.SRC.toNat + 16 * i + r) (by omega) (by omega)
      have hfits : min 16 (s.LEN.toNat - 16 * i) ≤ (encBlk s.RK s.RKLEN (counterBlock s.IV i)).length := by
        rw [encBlk, toBlock_length]
        omega
      rw [← Nat.add_assoc, Memory.readByte_writeBytes_xorBytes hfits (by omega), hread, ctrByte, hdiv, hmod,
        Nat.add_assoc]
  case cursor =>
    rw [← inc128_counterBlock, ← hcursor]
    exact toBlock_fromBlock _ (inc128_length _)
  case keystream => exact fun _ => hS
  case untouched => nofun

theorem ctrLoop_progress {s : State} (hap : disjoint s.SRC.toNat s.LEN.toNat s.DST.toNat s.LEN.toNat) :
    LoopFrame s s.SRC.toNat s.LEN.toNat s.DST.toNat s.LEN.toNat (ctrLoop s) ∧
      CtrProgress s (chunkCount s.LEN.toNat) (ctrLoop s) :=
  forLoop_blocks (CtrProgress s) hap (ctrChunk_frame _ _ _) (ctrChunk_MEM _ _ _)
    (fun i hi u => by
      have hcount : chunkCount s.LEN.toNat = (s.LEN.toNat + 15) / 16 := rfl
      rw [xorBytes_length, Memory.readBytes_length]
      omega)
    (ctrProgress_zero s)
    fun i hi u hu h => ctrChunk_progress hi (by rw [hu.blocks]) (by rw [hu.blocks]) hu.source h

/-- Settles O52: past the checks (`exec_ctr`) the loop has written the message XOR the keystream chunk by chunk
(`ctrLoop_progress`). -/
theorem ctrXorsTheKeystream : Obligations.CtrXorsTheKeystream := by
  refine ⟨⟨rfl, rfl⟩, fun s hs => ?_⟩
  have hcount : chunkCount s.LEN.toNat = (s.LEN.toNat + 15) / 16 := rfl
  rw [exec_ctr hs]
  refine ⟨modeChecks_rkLen, fun hl hin => modeChecks_addrRange hl (by omega),
    fun hl hin hap => modeChecks_overlap hl (by omega) (by omega), fun hl hin hap => ?pass⟩
  case pass =>
    rw [modeChecks_pass hl (by omega) (by omega)]
    obtain ⟨⟨hblocks, houtside, -⟩, houtput, hcursor, hkeystream, huntouched⟩ := ctrLoop_progress (s := s) (by omega)
    have hlen : BitVec.ofNat 32 s.LEN.toNat = s.LEN := by simp
    rw [hlen]
    generalize ctrLoop s = u at *
    refine ⟨_, rfl, ?frame, fun k hk => houtput k (by omega), hcursor, fun hn => hkeystream (by omega),
      fun hn => huntouched (by omega), houtside⟩
    case frame => rw [hblocks]; rfl

end Sys2Proof.Machine

namespace Sys2Proof.Machine

/-! ### The padded message (R261) -/

/-- Settles O56: the padding is written out by definition, and a block of it is the one read and filled up
(`padBlock_readBytes`). -/
theorem paddedBlocksComeFromMemory : Obligations.PaddedBlocksComeFromMemory :=
  ⟨fun _ => rfl, fun m addr n i hi => ⟨padBlock_readBytes hi, padBlockAt_length m addr n i hi⟩⟩

/-! ### PAD (R263) -/

/-- PAD stores block i of the padded message. -/
def padStore (s : State) (i : Nat) (m : Memory) : Memory :=
  Memory.writeBytes m (s.DST.toNat + 16 * i) (padBlockAt m s.SRC.toNat s.LEN.toNat i)

/-- The memory after PAD has stored every block of the padded message. -/
def padLoop (s : State) : Memory := forLoop (padStore s) (blockCount s.LEN.toNat) s.MEM

/-- A running unit carries out PAD when both ranges lie in memory and are disjoint. -/
theorem exec_pad {s : State} (hs : s.running) (hsrc : inRange s.memSize s.SRC.toNat s.LEN.toNat)
    (hdst : inRange s.memSize s.DST.toNat (16 * blockCount s.LEN.toNat))
    (hap : disjoint s.SRC.toNat s.LEN.toNat s.DST.toNat (16 * blockCount s.LEN.toNat)) :
    exec .pad s = done { s with
      MEM := padLoop s, OUTLEN := BitVec.ofNat 32 (16 * blockCount s.LEN.toNat) } :=
  (whenRunning_running s _ hs).trans ((if_neg (by omega)).trans (if_neg (not_not_intro hap)))

/-- After k stores the destination holds the first k blocks of the padded message, and no other byte has changed. -/
structure PadProgress (s : State) (k : Nat) (m : Memory) : Prop where
  outside : Memory.SameOutside s.DST.toNat (16 * blockCount s.LEN.toNat) s.MEM m
  output : Memory.readBytes m s.DST.toNat (16 * k) = (padMessage s.message).take (16 * k)

/-- The block to store is still read from the message as it was, since the source lies outside the destination. -/
theorem padStore_progress {s : State} {i : Nat} {m : Memory}
    (hap : disjoint s.SRC.toNat s.LEN.toNat s.DST.toNat (16 * blockCount s.LEN.toNat))
    (hi : i < blockCount s.LEN.toNat) (h : PadProgress s i m) : PadProgress s (i + 1) (padStore s i m) := by
  obtain ⟨houtside, houtput⟩ := h
  have hlen := padBlockAt_length m s.SRC.toNat s.LEN.toNat i hi
  have hblock : padBlockAt m s.SRC.toNat s.LEN.toNat i = ((padMessage s.message).drop (16 * i)).take 16 :=
    ((houtside.agreeOn hap).padBlockAt_eq i hi).trans (padBlock_readBytes hi).symm
  constructor
  case outside => exact houtside.writeBytes _ _ (by omega)
  case output =>
    rw [padStore, Nat.mul_succ, Memory.readBytes_writeBytes_append hlen, houtput, hblock, List.take_add]

theorem readBytes_padLoop {s : State}
    (hap : disjoint s.SRC.toNat s.LEN.toNat s.DST.toNat (16 * blockCount s.LEN.toNat)) :
    Memory.readBytes (padLoop s) s.DST.toNat (16 * blockCount s.LEN.toNat) = padMessage s.message := by
  have hloop : PadProgress s (blockCount s.LEN.toNat) (padLoop s) :=
    forLoop_induct (padStore s) _ s.MEM (PadProgress s) ⟨Memory.sameOutside_refl _ _ _, rfl⟩
      fun _ hi _ h => padStore_progress hap hi h
  have hlen : (padMessage s.message).length = 16 * blockCount s.LEN.toNat := by
    rw [padMessage_length, State.message, Memory.readBytes_length]
  exact hloop.output.trans (List.take_of_length_le hlen.le)

/-- Settles O57: past the checks (`exec_pad`) the loop has written the padded message (`readBytes_padLoop`), in its
range only (`execPad_storesIn`). Its length does not wrap: a destination of 2^32 bytes is all of the memory, and leaves
no room for a source apart from it. -/
theorem padWritesThePaddedMessage : Obligations.PadWritesThePaddedMessage := by
  refine ⟨⟨rfl, rfl⟩, fun s hs => ?_⟩
  have hcount : blockCount s.LEN.toNat = s.LEN.toNat / 16 + 1 := rfl
  refine ⟨fun hin => ?addrRange, fun hin hap => ?overlap, fun hin hap => ?pass⟩
  case addrRange => exact (whenRunning_running s _ hs).trans (if_pos (by omega))
  case overlap => exact (whenRunning_running s _ hs).trans ((if_neg (by omega)).trans (if_pos (by omega)))
  case pass =>
    have hexec := exec_pad hs (by omega) (by omega) (by omega)
    refine ⟨_, hexec, rfl, readBytes_padLoop (by omega), execPad_storesIn s _ hexec, ?length⟩
    case length =>
      intro (hsize : s.memSize ≤ 4294967296)
      exact Nat.mod_eq_of_lt (by omega)

/-! ### UNPAD (R264) -/

/-- A running unit looks at the padding of a buffer that lies in memory. -/
theorem exec_unpad {s : State} (hs : s.running) (hin : inRange s.memSize s.SRC.toNat s.LEN.toNat) :
    exec .unpad s = finishUnpad s.SRC.toNat s.LEN.toNat s :=
  (whenRunning_running s _ hs).trans (if_neg (not_not_intro hin))

/-- Settles O58: past the range check (`exec_unpad`) the last byte decides how the command ends (`finishUnpad_error`,
`finishUnpad_ok`). -/
theorem unpadReportsTheLength : Obligations.UnpadReportsTheLength := by
  refine ⟨⟨rfl, rfl⟩, fun s hs => ⟨fun hn hout => ?addrRange, fun hn => ?empty, fun hn hin hp => ?tooLong,
    fun hn hin hp => ?fits⟩⟩
  case addrRange => exact (whenRunning_running s _ hs).trans (rangeCheck_outside _ _ hn.ne' hout)
  case empty => exact (exec_unpad hs (.inl hn)).trans (finishUnpad_error (.inl hn))
  case tooLong => exact (exec_unpad hs (.inr hin)).trans (finishUnpad_error (.inr hp))
  case fits => exact (exec_unpad hs (.inr hin)).trans (finishUnpad_ok hn hp)

end Sys2Proof.Machine

namespace Sys2Proof.Machine

/-! ### The control-register map (R36) -/

theorem Csr.ofNumber_number (r : Csr) : Csr.ofNumber r.number = some r := by
  cases r with
  | s c | iv c | cur c | rk c => decide +revert
  | _ => rfl

/-- A number that no register of the map has is not assigned. -/
theorem Csr.ofNumber_eq_none {n : Nat} (h : ∀ r : Csr, r.number ≠ n) : Csr.ofNumber n = none :=
  Option.eq_none_iff_forall_ne_some.2 fun r hr => h r (Csr.number_of_ofNumber n r hr)

/-- The numbers between the groups of the map, and above the last one, are not assigned. -/
theorem Csr.number_ne_of_unassigned {n : Nat} (h : (0x007 ≤ n ∧ n ≤ 0x00F) ∨ (0x01C ≤ n ∧ n ≤ 0x03F) ∨ 0x07C ≤ n)
    (r : Csr) : r.number ≠ n := by
  cases r <;> simp only [Csr.number] <;> omega

/-- The registers the host may write have the numbers 0, 1, 2 and 0x010 to 0x017. -/
theorem Csr.number_ne_of_readOnly {n : Nat} (h : (0x003 ≤ n ∧ n ≤ 0x00F) ∨ 0x018 ≤ n) {r : Csr}
    (hr : r.writable = true) : r.number ≠ n := by
  cases r with
  | src | dst | len | s c | iv c => simp only [Csr.number]; omega
  | outlen | nblk | err | rklen | cur c | rk i => cases hr

/-! ### The results of the host-access commands (R281 to R288) -/

section
variable {s : State} (hs : s.running)
include hs

/-- Both reading commands give the value of the register a number names (R285, R288). -/
theorem csrReads_number (r : Csr) : s.csrReads r.number (s.readCsr r) := by
  refine ⟨fun d => (whenRunning_running s _ hs).trans ?_, (whenRunning_running s _ hs).trans ?_⟩
  all_goals rw [Csr.ofNumber_number]; rfl

/-- Both reading commands of a number that is not assigned raise IllegalCsr, whose cause code is 2. -/
theorem exec_csrRead_unassigned {n : Nat} (hn : Csr.ofNumber n = none) :
    (∀ d, exec (.csrr d n) s = .next (s.afterFault 2 (encodeWord (.csrr d n)))) ∧
      exec (.csrrd n) s = .next (s.afterFault 2 (encodeWord (.csrrd n))) := by
  refine ⟨fun d => (whenRunning_running s _ hs).trans ?_, (whenRunning_running s _ hs).trans ?_⟩
  all_goals rw [hn]; rfl

/-- Both writing commands write the register a number names, if the host may write it (R286, R287). -/
theorem csrWrites_number {r : Csr} (hr : r.writable = true) :
    s.csrWrites r.number fun v => (s.writeCsr r v).respond ⟨.ok, 0, 0⟩ := by
  have hwrite : ∀ v w : RegVal, writeCsrOrRaise r.number v w s = done (s.writeCsr r v) := fun v w => by
    rw [writeCsrOrRaise, Csr.ofNumber_number]
    exact if_pos hr
  exact ⟨fun ra => (whenRunning_running s _ hs).trans (hwrite s.x[ra] _),
    fun arg => (whenRunning_running s _ hs).trans (hwrite arg _)⟩

end

/-- CSRW and CSRWI of a number that is read-only or not assigned (R286, R287): IllegalCsr, whose cause code is 2. -/
theorem writeCsrOrRaise_readOnly {n : Nat} (hn : (0x003 ≤ n ∧ n ≤ 0x00F) ∨ 0x018 ≤ n) (v w : RegVal) (s : State) :
    writeCsrOrRaise n v w s = .next (s.afterFault 2 w) := by
  obtain ⟨r, hr, hwritable, _⟩ | hraise := writeCsrOrRaise_cases n v w s
  · exact absurd (Csr.number_of_ofNumber n r hr) (Csr.number_ne_of_readOnly hn hwritable)
  · exact hraise

/-- Settles O24: each assigned number is the number of its register (`csrReads_number`), and the other numbers are those of
no register (`Csr.number_ne_of_unassigned`). -/
theorem controlRegisterReads : Obligations.ControlRegisterReads := by
  refine ⟨⟨fun _ _ => ⟨rfl, rfl⟩, fun _ => ⟨rfl, rfl⟩⟩, fun s hs => ?_⟩
  have hreads := csrReads_number hs
  refine ⟨hreads .src, hreads .dst, hreads .len, hreads .outlen, ⟨_, ?nblk, hreads .nblk⟩, hreads .err, hreads .rklen,
    fun c => ⟨hreads (.s c), hreads (.iv c), hreads (.cur c)⟩, fun i => hreads (.rk i), fun n hn =>
      exec_csrRead_unassigned hs (Csr.ofNumber_eq_none (Csr.number_ne_of_unassigned hn))⟩
  case nblk =>
    have hlen := s.LEN.isLt
    have hcount : blockCount s.LEN.toNat = s.LEN.toNat / 16 + 1 := rfl
    exact Nat.mod_eq_of_lt (by omega)

/-- Settles O25: each writable number is the number of its register (`csrWrites_number`), and every other number faults
(`writeCsrOrRaise_readOnly`). -/
theorem controlRegisterWrites : Obligations.ControlRegisterWrites := by
  refine ⟨⟨fun _ _ => ⟨rfl, rfl⟩, fun _ _ => ⟨rfl, rfl⟩⟩, fun s hs => ?_⟩
  have hwrites := fun r => csrWrites_number hs (r := r)
  refine ⟨hwrites .src rfl, hwrites .dst rfl, hwrites .len rfl, fun c => ⟨hwrites (.s c) rfl, hwrites (.iv c) rfl⟩,
    fun n hn => ⟨fun ra => ?_, fun arg => ?_⟩⟩
  all_goals exact (whenRunning_running s _ hs).trans (writeCsrOrRaise_readOnly hn _ _ s)

/-- Settles O23: opcodes and formats are read off the table, and a running unit carries each command out
(`whenRunning_running`, `whenRunning_setReg`). -/
theorem hostMoveResults : Obligations.HostMoveResults := by
  refine ⟨⟨⟨rfl, rfl⟩, fun _ _ => ⟨rfl, rfl⟩, fun _ => ⟨rfl, rfl⟩, fun _ _ => ⟨rfl, rfl⟩⟩, fun s hs =>
    ⟨?nop, fun d arg => ?li, fun ra => ?rd, fun d ra => ?mv⟩⟩
  case nop | rd => exact whenRunning_running s _ hs
  case li | mv => exact whenRunning_setReg s d _ hs

/-! ### The fault state (R304 to R307) -/

/-- A faulted unit refuses every transaction, whether it decodes or not (R305). -/
theorem step_command_faulted {s : State} {I : Command} {rest : List HostEvent} (hinbox : s.inbox = .command I :: rest)
    (hf : s.FAULT = true) : step s = .next (State.refuse { s with inbox := rest }) :=
  (step_command s I rest hinbox).trans (whenRunning_faulted _ _ hf)

/-- Settles O8, at the port (`step_command_faulted`) and for each command (`exec_faulted`). -/
theorem faultedUnitRefusesEveryCommand : Obligations.FaultedUnitRefusesEveryCommand :=
  ⟨fun _ _ _ hinbox hf => step_command_faulted hinbox hf, fun i s hf => exec_faulted i s hf⟩

/-- A transaction that leaves a running unit faulted has changed only the latch and the response (R304): its word was
illegal, or its command faulted, since a command that completes leaves FAULT at 0. -/
theorem issue_faults_precisely {I : Command} {s t : State} (hs : s.running) (h : issue I s = .next t)
    (ht : t.FAULT = true) : ∃ c : Cause, t = s.latchFault c I.word := by
  cases hd : decode I with
  | error e =>
    rw [issue_of_reject I e s hs hd] at h
    exact ⟨.illegalCmd, (Host.Outcome.next.inj h).symm⟩
  | ok i =>
    obtain ⟨_, hword, _⟩ := decodedCommandEncodesBack I i hd
    rw [issue_of_decode I i s hs hd] at h
    obtain ⟨hf, _⟩ | ⟨_, ⟨c, hc⟩ | ⟨⟨hf, _⟩, _⟩⟩ := exec_next_cases i s t h
    · exact absurd (hf.symm.trans hs) nofun
    · exact ⟨c, hword ▸ hc⟩
    · exact absurd (ht.symm.trans (hf.trans hs)) nofun

/-- Settles O9: the fault of a transaction is precise (`issue_faults_precisely`), and its cause is one of R303. -/
theorem faultsArePrecise : Obligations.FaultsArePrecise := by
  intro s t I rest hinbox hs hstep ht
  rw [step_command s I rest hinbox] at hstep
  obtain ⟨c, rfl⟩ := issue_faults_precisely (s := { s with inbox := rest }) hs hstep ht
  exact ⟨c.code, c.code_bounds.1, c.code_bounds.2, rfl⟩

/-- What a reset step leaves: the reset values, the data memory, MEM_SIZE and the host's further actions (R350). -/
theorem step_reset_result {s : State} {rest : List HostEvent} (hinbox : s.inbox = .reset :: rest) :
    ∃ t, step s = .next t ∧ t.HasResetValues ∧ t.MEM = s.MEM ∧ t.memSize = s.memSize ∧ t.inbox = rest :=
  ⟨_, step_reset s rest hinbox, State.resetUnit_hasResetValues _, rfl, rfl, rfl⟩

/-- Settles O10: of the host's actions other than reset, a command is refused while FAULT is 1, and the rest do not touch
the latch. -/
theorem onlyResetLeavesTheFaultState : Obligations.OnlyResetLeavesTheFaultState := by
  refine ⟨fun s t hf hreset hstep => ?_, fun s rest hinbox => ?reset⟩
  case reset =>
    obtain ⟨t, hstep, hvalues, hMEM, _⟩ := step_reset_result hinbox
    exact ⟨t, hstep, hvalues, hMEM⟩
  match hinbox : s.inbox with
  | [] =>
    rw [step_idle s hinbox] at hstep
    cases hstep
    exact ⟨hf, rfl, rfl⟩
  | .command I :: rest =>
    rw [step_command_faulted hinbox hf] at hstep
    cases hstep
    exact ⟨hf, rfl, rfl⟩
  | .store addr bytes :: rest =>
    rw [step_store s addr bytes rest hinbox] at hstep
    obtain ⟨_, e⟩ | ⟨_, e⟩ := hostStore_cases addr.toNat bytes { s with inbox := rest }
    · cases e.symm.trans hstep
      exact ⟨hf, rfl, rfl⟩
    · cases e.symm.trans hstep
  | .reset :: rest => exact absurd hinbox (hreset rest)

/-- Settles O16: the step's own law for a host with nothing pending. -/
theorem idleUnitHoldsItsState : Obligations.IdleUnitHoldsItsState := step_idle

/-- Settles O12: the state is the one of `step_reset_result`, and its LEN of 0 makes NBLK read 0/16 + 1. -/
theorem resetStepClearsAllButMemory : Obligations.ResetStepClearsAllButMemory := by
  intro s rest hinbox
  obtain ⟨t, hstep, hvalues, hMEM, hsize, hrest⟩ := step_reset_result hinbox
  have hnblk := (csrReads_number hvalues.FAULT .nblk).2
  rw [State.readCsr, hvalues.LEN] at hnblk
  exact ⟨t, hstep, hvalues, hMEM, hsize, hrest, hnblk⟩

end Sys2Proof.Machine

namespace Sys2Proof.Machine

/-! ### The mode commands and the old cursor (R231, R358) -/

section
variable {s t : State} {w : RegVal} {src n dst k : Nat} {r : Result}

/-- A mode command that leaves FAULT at 0 got past its checks. -/
theorem modeChecks_passed (h : modeChecks w src n dst k s r = .next t) (ht : t.FAULT = false) :
    (s.RKLEN % 4 = 0 ∧ 4 < s.RKLEN) ∧ (inRange s.memSize src n ∧ inRange s.memSize dst k) ∧ disjoint src n dst k := by
  by_cases hl : s.RKLEN % 4 = 0 ∧ 4 < s.RKLEN
  case neg =>
    rw [modeChecks_rkLen hl] at h
    cases h
    cases ht
  by_cases hin : inRange s.memSize src n ∧ inRange s.memSize dst k
  case neg =>
    rw [modeChecks_addrRange hl hin] at h
    cases h
    cases ht
  by_cases hap : disjoint src n dst k
  case neg =>
    rw [modeChecks_overlap hl hin hap] at h
    cases h
    cases ht
  exact ⟨hl, hin, hap⟩

/-- The checks do not look at the cursor, and a command past them goes on as `r` says. -/
theorem modeChecks_otherCursor (h : modeChecks w src n dst k s r = .next t) (ht : t.FAULT = false) (g : Grid) :
    modeChecks w src n dst k { s with CUR := g } r = .next t := by
  obtain ⟨hl, hin, hap⟩ := modeChecks_passed h ht
  rw [modeChecks_pass hl hin hap] at h
  exact (modeChecks_pass (s := { s with CUR := g }) hl hin hap).trans h

end

/-- Settles O55: the checks pass whatever the cursor was (`modeChecks_otherCursor`), and each loop then starts by putting IV
into it. -/
theorem modeCommandsIgnoreTheOldCursor : Obligations.ModeCommandsIgnoreTheOldCursor := by
  intro i s t g hop hs hexec ht hmod
  cases i
  case cbcenc =>
    rw [exec_cbcenc hs] at hexec
    exact (exec_cbcenc (s := { s with CUR := g }) hs).trans (modeChecks_otherCursor hexec ht g)
  case ctr =>
    rw [exec_ctr hs] at hexec
    exact (exec_ctr (s := { s with CUR := g }) hs).trans (modeChecks_otherCursor hexec ht g)
  case cbcdec =>
    have hmod : s.LEN.toNat % 16 = 0 := hmod.resolve_right fun h => h rfl
    rw [exec_cbcdec hs hmod] at hexec
    exact (exec_cbcdec (s := { s with CUR := g }) hs hmod).trans (modeChecks_otherCursor hexec ht g)
  all_goals simp [Instr.opcode] at hop

/-! ### The commands right after reset (R352) -/

theorem rkInstall_nil (rk : Vector FieldWord Config.rkWords) : rkInstall rk [] = rk :=
  Vector.ext fun i hi => by simp [rkInstall]

/-- LDRK 0 where no schedule is installed takes no word from memory and leaves RKLEN at 0 (R195). -/
theorem exec_ldrk_zero {s : State} (hs : s.running) (hrklen : s.RKLEN = 0) : exec (.ldrk 0) s = .next (s.afterOk 0) := by
  have hexec := exec_ldrk (n := 0) hs (by decide) (.inl rfl)
  have hsame : { s with RKLEN := 0 } = s := by rw [← hrklen]
  rw [memWords, List.range_zero, List.map_nil, rkInstall_nil, hsame] at hexec
  exact hexec

theorem padMessage_nil : padMessage [] = List.replicate 16 0x10 := rfl

/-- Settles O14: RKLEN = 0 is no valid schedule and holds no slice, and the message at SRC is the empty one. -/
theorem commandsRightAfterReset : Obligations.CommandsRightAfterReset := by
  intro s h
  have hs : s.running := h.FAULT
  have hl : ¬ (s.RKLEN % 4 = 0 ∧ 4 < s.RKLEN) := by rw [h.RKLEN]; decide
  have hlen : s.LEN.toNat = 0 := by rw [h.LEN]; rfl
  have hdst : s.DST.toNat = 0 := by rw [h.DST]; rfl
  refine ⟨?enc, ?dec, ?cbcenc, ?cbcdec, ?ctr, fun round => ?addrk, ?unpad, exec_ldrk_zero hs h.RKLEN, fun hsize => ?pad⟩
  case enc | dec => exact (whenRunning_running s _ hs).trans (rkLenCheck_invalid _ _ (by omega))
  case cbcenc => exact (exec_cbcenc hs).trans (modeChecks_rkLen hl)
  case cbcdec => exact (exec_cbcdec hs (by omega)).trans (modeChecks_rkLen hl)
  case ctr => exact (exec_ctr hs).trans (modeChecks_rkLen hl)
  case addrk => exact (addrkAddsTheRoundKey.2 s round hs).2 (by rw [h.RKLEN]; omega)
  case unpad => exact (exec_unpad hs (.inl hlen)).trans (finishUnpad_error (.inl hlen))
  case pad =>
    have hpadded := readBytes_padLoop (s := s) (.inl hlen)
    have hexec := exec_pad hs (.inl hlen) (.inr (by rw [hlen, hdst]; exact hsize)) (.inl hlen)
    rw [State.message, hlen, hdst, Memory.readBytes, padMessage_nil] at hpadded
    rw [hlen] at hexec
    refine ⟨_, hexec, rfl, fun a ha => ?_⟩
    have hbyte := (Memory.readBytes_eq_iff _ 0 16 (List.replicate 16 0x10) rfl).1 hpadded a ha
    rwa [Nat.zero_add, List.getElem_replicate] at hbyte

end Sys2Proof.Machine

namespace Sys2Proof.Machine

/-! ### The laws of bytes and words (R124, R125, R143) -/

theorem gfMul_one_left (a : Byte) : gfMul 0x01 a = a := by
  rw [gfMul_comm, gfMul_one_right]

theorem gfMul_two_right (a : Byte) : gfMul a 0x02 = gfXtime a :=
  additive_ext (gfMul · 0x02) gfXtime (gfMul_xor_left · · _) gfXtime_xor (by decide +kernel) a

/-- Settles O28: addition is XOR; the product's laws are those above, and the table entry of a byte that is not zero gives
its inverse (`gfMul_sboxAffineInv_sbox`), the only one (`gfMul_inverse_unique`). -/
theorem fieldByteLaws : Obligations.FieldByteLaws := by
  refine ⟨fun a b c => ⟨BitVec.xor_comm a b, BitVec.xor_assoc a b c, BitVec.xor_self⟩,
    fun a b c => ⟨gfMul_comm a b, gfMul_xor_right a b c, gfMul_assoc a b c⟩,
    fun a => ⟨?zero, gfMul_one_right a, gfMul_two_right a⟩, fun a ha => ?inverse⟩
  case zero => rw [gfMul_comm, gfMul_zero_left]
  case inverse =>
    have hinv := gfMul_sboxAffineInv_sbox a ha
    exact ⟨_, hinv, fun c hc => gfMul_inverse_unique hinv hc⟩

/-- Settles O29: each of the 256 entries of a table leads back through the other table. -/
theorem substitutionTablesInvert : Obligations.SubstitutionTablesInvert := by
  unfold Obligations.SubstitutionTablesInvert
  decide +kernel

theorem wMul_comm (a b : FieldWord) : wMul a b = wMul b a := by
  rw [wordProductWrittenOut, wordProductWrittenOut]
  simp only [gfMul_comm b.c0, gfMul_comm b.c1, gfMul_comm b.c2, gfMul_comm b.c3, FieldWord.mk.injEq]
  refine ⟨?_, ?_, ?_, ?_⟩ <;> ac_rfl

/-- Both sides are, in each coefficient, the sum of the same sixteen products of three bytes. -/
theorem wMul_assoc (a b c : FieldWord) : wMul (wMul a b) c = wMul a (wMul b c) := by
  simp only [wordProductWrittenOut _ _, gfMul_xor_left, gfMul_xor_right, gfMul_assoc, FieldWord.mk.injEq]
  refine ⟨?_, ?_, ?_, ?_⟩ <;> ac_rfl

theorem wMul_wAdd (a b c : FieldWord) : wMul a (wAdd b c) = wAdd (wMul a b) (wMul a c) := by
  refine FieldWord.ext_coef _ _ fun k => ?_
  simp only [coef_wAdd, coef_wMul, gfMul_xor_right]
  ac_rfl

theorem wMul_one_left (b : FieldWord) : wMul ⟨1, 0, 0, 0⟩ b = b := by
  rw [wordProductWrittenOut]
  simp only [gfMul_zero_left, gfMul_one_left]
  simp

theorem wMul_y_left (b : FieldWord) : wMul ⟨0, 1, 0, 0⟩ b = ⟨b.c3, b.c0, b.c1, b.c2⟩ := by
  rw [wordProductWrittenOut]
  simp only [gfMul_zero_left, gfMul_one_left]
  simp

/-- Settles O33: the laws above, each from those of bytes; the product of `word(1,1,1,1)` with itself has the sum of four
ones in every coefficient. -/
theorem wordRingLaws : Obligations.WordRingLaws := by
  refine ⟨fun a b c => ⟨wMul_comm a b, wMul_assoc a b c, wMul_wAdd a b c⟩, fun b => ⟨wMul_one_left b, wMul_y_left b⟩, ?_⟩
  decide

/-! ### The transformations and their inverses (R172) -/

@[simp] theorem invSubBytes_subBytes (t : Grid) : invSubBytes (subBytes t) = t :=
  Grid.ext_at _ _ fun r c => by simp only [invSubBytes, subBytes, Grid.at_ofBytes, (substitutionTablesInvert _).1]

@[simp] theorem subBytes_invSubBytes (t : Grid) : subBytes (invSubBytes t) = t :=
  Grid.ext_at _ _ fun r c => by simp only [invSubBytes, subBytes, Grid.at_ofBytes, (substitutionTablesInvert _).2]

@[simp] theorem invShiftRows_shiftRows (t : Grid) : invShiftRows (shiftRows t) = t :=
  Grid.ext_at _ _ fun r c => by simp only [invShiftRows, shiftRows, Grid.at_ofBytes, sub_add_cancel]

@[simp] theorem shiftRows_invShiftRows (t : Grid) : shiftRows (invShiftRows t) = t :=
  Grid.ext_at _ _ fun r c => by simp only [invShiftRows, shiftRows, Grid.at_ofBytes, add_sub_cancel_right]

/-- The two mix-column constants are inverse to each other (R144). -/
theorem wMul_mixc_imixc (w : FieldWord) : wMul (wMul w mixc) imixc = w := by
  obtain ⟨_, _, hproduct⟩ := mixConstantsMultiplyToOne
  rw [wMul_assoc, hproduct, wMul_comm]
  exact wMul_one_left w

theorem wMul_imixc_mixc (w : FieldWord) : wMul (wMul w imixc) mixc = w := by
  rw [wMul_assoc, wMul_comm imixc, ← wMul_assoc, wMul_mixc_imixc]

@[simp] theorem invMixColumns_mixColumns (t : Grid) : invMixColumns (mixColumns t) = t := by
  simp only [invMixColumns, mixColumns, Grid.mapCols, wMul_mixc_imixc]

@[simp] theorem mixColumns_invMixColumns (t : Grid) : mixColumns (invMixColumns t) = t := by
  simp only [invMixColumns, mixColumns, Grid.mapCols, wMul_imixc_mixc]

@[simp] theorem addRoundKey_addRoundKey (t k : Grid) : addRoundKey (addRoundKey t k) k = t :=
  Grid.ext_at _ _ fun r c => by simp only [Grid.at_addRoundKey, BitVec.xor_assoc, BitVec.xor_self, BitVec.xor_zero]

theorem subBytes_shiftRows (t : Grid) : subBytes (shiftRows t) = shiftRows (subBytes t) :=
  Grid.ext_at _ _ fun r c => by simp only [subBytes, shiftRows, Grid.at_ofBytes]

/-- Settles O39, by the laws above. -/
theorem transformationsHaveInverses : Obligations.TransformationsHaveInverses := fun t k =>
  ⟨invSubBytes_subBytes t, subBytes_invSubBytes t, invShiftRows_shiftRows t, shiftRows_invShiftRows t,
    invMixColumns_mixColumns t, mixColumns_invMixColumns t, addRoundKey_addRoundKey t k, subBytes_shiftRows t⟩

/-! ### The cipher and its inverse (R216) -/

section
variable {α : Type} {f g : Nat → α → α} {p : α → α}

/-- A descending loop whose iterations undo those of an ascending one under `p` undoes the whole loop under `p`. -/
theorem downLoop_forLoop_under (h : ∀ k a, g k (p (f k a)) = p a) (n : Nat) (a : α) :
    downLoop g n (p (forLoop f n a)) = p a := by
  induction n with
  | zero => rfl
  | succ n ih => rw [forLoop_succ, downLoop_succ, h, ih]

theorem forLoop_downLoop_under (h : ∀ k a, f k (p (g k a)) = p a) (n : Nat) (a : α) :
    forLoop f n (p (downLoop g n a)) = p a := by
  induction n generalizing a with
  | zero => rfl
  | succ n ih => rw [forLoop_succ, downLoop_succ, ih, h]

end

section
variable (rk : Vector FieldWord Config.rkWords)

/-- A round of the inverse cipher takes a state behind the substitution and rotation of round k+1 to one behind those of
round k (R212, R213). -/
theorem invCipherRound_cipherRound (r : Nat) (t : Grid) :
    invCipherRound rk r (shiftRows (subBytes (cipherRound rk r t))) = shiftRows (subBytes t) := by
  simp [invCipherRound, cipherRound]

theorem cipherRound_invCipherRound (r : Nat) (t : Grid) :
    cipherRound rk r (invSubBytes (invShiftRows (invCipherRound rk r t))) = invSubBytes (invShiftRows t) := by
  simp [invCipherRound, cipherRound]

theorem invCipher_cipher (l : Nat) (t : Grid) : invCipher (cipher t rk l) rk l = t := by
  have hrounds := downLoop_forLoop_under (p := fun t => shiftRows (subBytes t))
    (fun k => invCipherRound_cipherRound rk (k + 1)) (roundsOf l - 1) (addRoundKey t (rkSlice rk 0))
  simp only [invCipher, cipher, addRoundKey_addRoundKey, hrounds, invShiftRows_shiftRows, invSubBytes_subBytes]

theorem cipher_invCipher (l : Nat) (t : Grid) : cipher (invCipher t rk l) rk l = t := by
  have hrounds := forLoop_downLoop_under (p := fun t => invSubBytes (invShiftRows t))
    (fun k => cipherRound_invCipherRound rk (k + 1)) (roundsOf l - 1) (addRoundKey t (rkSlice rk (roundsOf l)))
  simp only [invCipher, cipher, addRoundKey_addRoundKey, hrounds, shiftRows_invShiftRows, subBytes_invSubBytes]

end

section
variable {s : State} (hs : s.running) (hrk : rkValid s.RKLEN = true)
include hs hrk

theorem runsAs_enc : RunsAs s [.enc] (cipher · s.RK s.RKLEN) :=
  fun t => runCommands_cons [] (exec_enc (s := s.withBlock t s.MEM) hs hrk)

theorem runsAs_dec : RunsAs s [.dec] (invCipher · s.RK s.RKLEN) :=
  fun t => runCommands_cons [] (exec_dec (s := s.withBlock t s.MEM) hs hrk)

end

/-- Settles O46: either command undoes the other in S (`invCipher_cipher`, `cipher_invCipher`); the ciphertexts are
computed, and their plaintexts follow. -/
theorem decAndEncUndoEachOther : Obligations.DecAndEncUndoEachOther := by
  refine ⟨fun s hs hmod hlt => ?commands, fun v hv => ?vectors⟩
  case commands =>
    have hrk := (rkValid_iff s.RKLEN).2 ⟨hmod, hlt⟩
    constructor
    · calc runCommands [.enc, .dec] s
        _ = runCommands [.dec] (s.withBlock (cipher s.S s.RK s.RKLEN) s.MEM) := runCommands_cons _ (exec_enc hs hrk)
        _ = .next (s.withBlock (invCipher (cipher s.S s.RK s.RKLEN) s.RK s.RKLEN) s.MEM) := runsAs_dec hs hrk _
        _ = .next (s.afterOk 0) := by rw [invCipher_cipher]; rfl
    · calc runCommands [.dec, .enc] s
        _ = runCommands [.enc] (s.withBlock (invCipher s.S s.RK s.RKLEN) s.MEM) := runCommands_cons _ (exec_dec hs hrk)
        _ = .next (s.withBlock (cipher (invCipher s.S s.RK s.RKLEN) s.RK s.RKLEN) s.MEM) := runsAs_enc hs hrk _
        _ = .next (s.afterOk 0) := by rw [cipher_invCipher]; rfl
  case vectors =>
    have henc : cipher v.2.1 (scheduleOf v.1) (scheduleWords v.1.length) = v.2.2 := by
      revert v
      decide +kernel
    exact ⟨henc, by rw [← henc, invCipher_cipher]⟩

end Sys2Proof.Machine

namespace Sys2Proof.Machine

/-! ### Unpadding a padded message (R262, R265) -/

/-- The last byte of a padded message is the number of its pad bytes, 1 to 16. -/
theorem padMessage_last (msg : List Byte) : ((padMessage msg).getD ((padMessage msg).length - 1) 0).toNat =
    16 * blockCount msg.length - msg.length := by
  have hcount : blockCount msg.length = msg.length / 16 + 1 := rfl
  rw [padMessage_length, padMessage, List.getD_append_right _ _ _ _ (by omega),
    List.getD_replicate _ (by omega), BitVec.toNat_ofNat]
  omega

theorem take_padMessage (msg : List Byte) : (padMessage msg).take msg.length = msg := List.take_left

theorem unpadMessage_padMessage (msg : List Byte) : unpadMessage (padMessage msg) = some msg := by
  have hcount : blockCount msg.length = msg.length / 16 + 1 := rfl
  have hlast := padMessage_last msg
  have hlen := padMessage_length msg
  have hkept : unpadLength (padMessage msg).length ((padMessage msg).getD ((padMessage msg).length - 1) 0) =
      some msg.length := by
    rw [unpadLength, if_neg (by omega), if_neg (by omega), hlast, hlen]
    congr 1
    omega
  rw [unpadMessage, hkept, Option.map_some, take_padMessage]

/-- Settles O59: the round trip is `unpadMessage_padMessage`, and the lengths follow from `padMessage_length`. -/
theorem unpadInvertsPad : Obligations.UnpadInvertsPad := by
  intro msg
  have hlen : (padMessage msg).length = 16 * (msg.length / 16 + 1) := padMessage_length msg
  exact ⟨unpadMessage_padMessage msg, hlen, by omega, by omega⟩

/-! ### Block sequences (R230) -/

theorem xorBytes_xorBytes_cancel {a b : List Byte} (h : a.length = b.length) : xorBytes (xorBytes a b) b = a := by
  refine List.ext_getElem (by simp [h]) fun k hk hk' => ?_
  simp [xorBytes]

theorem blocksOf_append {c : List Byte} (b : List Byte) (hc : c.length = 16) : blocksOf (c ++ b) = c :: blocksOf b := by
  have hcount : (c ++ b).length / 16 = b.length / 16 + 1 := by rw [List.length_append]; omega
  rw [blocksOf, hcount, List.range_succ_eq_map, List.map_cons, List.map_map]
  congr 1
  · exact List.take_left' hc
  · refine List.map_congr_left fun i _ => ?_
    rw [Function.comp_apply, Nat.mul_succ, Nat.add_comm, ← List.drop_drop, List.drop_left' hc]

theorem blocksOf_flatten {cs : List (List Byte)} (h : ∀ c ∈ cs, c.length = 16) : blocksOf cs.flatten = cs := by
  induction cs with
  | nil => rfl
  | cons c cs ih =>
    rw [List.flatten_cons, blocksOf_append _ (h c List.mem_cons_self), ih fun b hb => h b (List.mem_cons_of_mem _ hb)]

theorem flatten_blocksOf {b : List Byte} {n : Nat} (h : b.length = 16 * n) : (blocksOf b).flatten = b := by
  induction n generalizing b with
  | zero => rw [List.length_eq_zero_iff.1 h]; rfl
  | succ n ih =>
    have hrest : (b.drop 16).length = 16 * n := by rw [List.length_drop]; omega
    have hfirst : (b.take 16).length = 16 := by rw [List.length_take]; omega
    conv_lhs => rw [← List.take_append_drop 16 b]
    rw [blocksOf_append _ hfirst, List.flatten_cons, ih hrest, List.take_append_drop]

theorem length_of_mem_blocksOf {b c : List Byte} (h : c ∈ blocksOf b) : c.length = 16 := by
  obtain ⟨i, hi, rfl⟩ := List.mem_map.1 h
  have hlt := List.mem_range.1 hi
  rw [List.length_take, List.length_drop]
  omega

/-! ### Chained decryption undoes chained encryption (R237) -/

section
variable {d e : List Byte → List Byte} {prev : List Byte} {ps : List (List Byte)}

theorem length_of_mem_chainEncrypt (he : ∀ b, (e b).length = 16) :
    ∀ c ∈ chainEncrypt e prev ps, c.length = 16 := by
  induction ps generalizing prev with
  | nil => nofun
  | cons p ps ih => exact List.forall_mem_cons.2 ⟨he _, ih⟩

/-- Each block is decrypted to what was encrypted, which the block before it, the same on both sides, is then taken off. -/
theorem chainDecrypt_chainEncrypt (he : ∀ b, (e b).length = 16) (hd : ∀ b : List Byte, b.length = 16 → d (e b) = b)
    (hprev : prev.length = 16) (hps : ∀ p ∈ ps, p.length = 16) :
    chainDecrypt d prev (chainEncrypt e prev ps) = ps := by
  induction ps generalizing prev with
  | nil => rfl
  | cons p ps ih =>
    obtain ⟨hp, hps⟩ := List.forall_mem_cons.1 hps
    have hlen : p.length = prev.length := hp.trans hprev.symm
    rw [chainEncrypt, chainDecrypt, hd _ (by simp [hp, hprev]), xorBytes_xorBytes_cancel hlen, ih (he _) hps]

end

theorem encBlk_length (rk : Vector FieldWord Config.rkWords) (l : Nat) (b : List Byte) : (encBlk rk l b).length = 16 :=
  toBlock_length _

theorem decBlk_encBlk (rk : Vector FieldWord Config.rkWords) (l : Nat) {b : List Byte} (hb : b.length = 16) :
    decBlk rk l (encBlk rk l b) = b := by
  rw [decBlk, encBlk, fromBlock_toBlock, invCipher_cipher, toBlock_fromBlock b hb]

/-- Decrypting the chained encryption of a padded message gives the padded message back. -/
theorem chainDecrypt_blocksOf_chainEncrypt (rk : Vector FieldWord Config.rkWords) (l : Nat) (iv : Grid)
    (msg : List Byte) :
    (chainDecrypt (decBlk rk l) (toBlock iv)
      (blocksOf (chainEncrypt (encBlk rk l) (toBlock iv) (blocksOf (padMessage msg))).flatten)).flatten =
      padMessage msg := by
  rw [blocksOf_flatten (length_of_mem_chainEncrypt (encBlk_length rk l)),
    chainDecrypt_chainEncrypt (encBlk_length rk l) (fun _ => decBlk_encBlk rk l) (toBlock_length iv)
      fun _ => length_of_mem_blocksOf,
    flatten_blocksOf (padMessage_length msg)]

end Sys2Proof.Machine

namespace Sys2Proof.Machine

/-! ### The round trips of the modes (R237) -/

/-- A byte of a sequence read from memory. -/
theorem Memory.getD_readBytes {m : Memory} {a n k : Nat} (h : k < n) :
    (Memory.readBytes m a n).getD k 0 = Memory.readByte m (a + k) := by
  rw [List.getD_eq_getElem?_getD, Memory.readBytes_getElem? m a n k h, Option.getD_some]

/-- The length of a destination of padded blocks does not wrap: a destination of 2^32 bytes is all of the memory, and leaves
no room for a source apart from it. -/
theorem padded_length_lt {size src dst n : Nat} (hsize : size ≤ 4294967296)
    (hin : inRange size src n ∧ inRange size dst (16 * blockCount n)) (hap : disjoint src n dst (16 * blockCount n)) :
    16 * blockCount n < 4294967296 := by
  have hcount : blockCount n = n / 16 + 1 := rfl
  omega

/-- The schedule, the initialization vector, LEN and MEM_SIZE, which no mode command writes, are as before. -/
structure State.SameSetup (s t : State) : Prop where
  RK : t.RK = s.RK
  RKLEN : t.RKLEN = s.RKLEN
  IV : t.IV = s.IV
  LEN : t.LEN = s.LEN
  memSize : t.memSize = s.memSize

section
variable {s t : State} (hs : s.running) (ht : t.FAULT = false)
include hs ht

/-- What CBCENC leaves when it does not fault (R233). -/
theorem cbcenc_result (hsize : s.memSize ≤ Config.maxMemSize) (hexec : exec .cbcenc s = .next t) :
    (s.RKLEN % 4 = 0 ∧ 4 < s.RKLEN) ∧ s.DST.toNat + 16 * blockCount s.LEN.toNat ≤ s.memSize ∧
      State.SameSetup s t ∧ t.OUTLEN.toNat = 16 * blockCount s.LEN.toNat ∧
      Memory.readBytes t.MEM s.DST.toNat (16 * blockCount s.LEN.toNat) =
        (chainEncrypt (encBlk s.RK s.RKLEN) (toBlock s.IV) (blocksOf (padMessage s.message))).flatten := by
  obtain ⟨hl, hin, hap⟩ := modeChecks_passed ((exec_cbcenc hs).symm.trans hexec) ht
  have hcount : blockCount s.LEN.toNat = s.LEN.toNat / 16 + 1 := rfl
  have hlt := padded_length_lt hsize hin hap
  obtain ⟨-, hresult⟩ := cbcencEncryptsThePaddedMessage
  obtain ⟨-, -, -, hpass⟩ := hresult s hs
  obtain ⟨_, hexec', hframe, hout, -⟩ := hpass hl (by omega) (by omega)
  cases hexec.symm.trans hexec'
  refine ⟨hl, by omega, ?setup, ?length, hout⟩
  case setup => rw [hframe]; exact ⟨rfl, rfl, rfl, rfl, rfl⟩
  case length => rw [hframe]; exact Nat.mod_eq_of_lt hlt

/-- What CTR leaves when it does not fault (R236). -/
theorem ctr_result (hexec : exec .ctr s = .next t) :
    (s.RKLEN % 4 = 0 ∧ 4 < s.RKLEN) ∧ inRange s.memSize s.DST.toNat s.LEN.toNat ∧
      State.SameSetup s t ∧ ∀ k < s.LEN.toNat, Memory.readByte t.MEM (s.DST.toNat + k) = ctrByte s k := by
  obtain ⟨hl, hin, hap⟩ := modeChecks_passed ((exec_ctr hs).symm.trans hexec) ht
  obtain ⟨-, hresult⟩ := ctrXorsTheKeystream
  obtain ⟨-, -, -, hpass⟩ := hresult s hs
  obtain ⟨_, hexec', hframe, hout, -⟩ := hpass hl (by omega) (by omega)
  cases hexec.symm.trans hexec'
  exact ⟨hl, hin.2, by rw [hframe]; exact ⟨rfl, rfl, rfl, rfl, rfl⟩, hout⟩

end

/-- CBCDEC of a buffer that decrypts to the padded message `msg` finds the padding and leaves `msg` at DST (R234). -/
theorem exec_cbcdec_of_padded {s : State} {msg : List Byte} (hs : s.running) (hl : s.RKLEN % 4 = 0 ∧ 4 < s.RKLEN)
    (hlen : s.LEN.toNat = 16 * blockCount msg.length)
    (hin : s.SRC.toNat + s.LEN.toNat ≤ s.memSize ∧ s.DST.toNat + s.LEN.toNat ≤ s.memSize)
    (hap : s.SRC.toNat + s.LEN.toNat ≤ s.DST.toNat ∨ s.DST.toNat + s.LEN.toNat ≤ s.SRC.toNat)
    (hmsg : (chainDecrypt (decBlk s.RK s.RKLEN) (toBlock s.IV) (blocksOf s.message)).flatten = padMessage msg) :
    ∃ t, exec .cbcdec s = .next t ∧ t.FAULT = false ∧ t.ERR = 0 ∧ t.OUTLEN = BitVec.ofNat 32 msg.length ∧
      Memory.readBytes t.MEM s.DST.toNat msg.length = msg := by
  have hcount : blockCount msg.length = msg.length / 16 + 1 := rfl
  obtain ⟨-, hresult⟩ := cbcdecDecryptsAndTrustsTheLastByte
  obtain ⟨-, -, -, -, -, hpass⟩ := hresult s hs
  obtain ⟨t, hexec, hframe, hout, -, -, -, hlast, -⟩ := hpass (by omega) (by omega) hl (.inr hin) (.inr hap)
  rw [hmsg] at hout
  have hpad : (Memory.readByte t.MEM (s.DST.toNat + s.LEN.toNat - 1)).toNat = s.LEN.toNat - msg.length := by
    rw [Nat.add_sub_assoc (by omega), ← Memory.getD_readBytes (n := s.LEN.toNat) (by omega), hout, hlen,
      ← padMessage_length, padMessage_last, padMessage_length]
  obtain ⟨hOUTLEN, hERR, -⟩ := hlast (by omega)
  refine ⟨t, hexec, by rw [hframe]; exact hs, hERR, ?length, ?message⟩
  case length => rw [hOUTLEN, hpad, Nat.sub_sub_self (by omega)]
  case message => rw [← Memory.readBytes_take (n := s.LEN.toNat) (by omega), hout, take_padMessage]

/-- Settles O53: CBCENC leaves the chained encryption of the padded message (`cbcenc_result`), which decrypts to it
(`chainDecrypt_blocksOf_chainEncrypt`), so CBCDEC finds its padding (`exec_cbcdec_of_padded`). -/
theorem chainedRoundTripRestoresTheMessage : Obligations.ChainedRoundTripRestoresTheMessage := by
  intro s t dst2 hs hsize hexec ht u hfits hap
  obtain ⟨hl, hin, hsetup, hlen, hout⟩ := cbcenc_result hs ht hsize hexec
  have hRK : u.RK = s.RK := hsetup.RK
  have hRKLEN : u.RKLEN = s.RKLEN := hsetup.RKLEN
  have hIV : u.IV = s.IV := hsetup.IV
  have hmemSize : u.memSize = s.memSize := hsetup.memSize
  have hmessage : u.message = Memory.readBytes t.MEM s.DST.toNat (16 * blockCount s.LEN.toNat) := by
    rw [← hlen]; rfl
  have hn : s.message.length = s.LEN.toNat := Memory.readBytes_length _ _ _
  obtain ⟨v, hexec, hFAULT, hERR, hOUTLEN, hrestored⟩ := exec_cbcdec_of_padded (s := u) (msg := s.message) ht
    (hRKLEN ▸ hl) (hn ▸ hlen) (hmemSize ▸ ⟨hlen ▸ hin, hfits⟩) hap.symm
    (by rw [hmessage, hout, hRK, hRKLEN, hIV, chainDecrypt_blocksOf_chainEncrypt])
  rw [hn] at hOUTLEN hrestored
  exact ⟨v, hexec, hFAULT, hERR, by rw [hOUTLEN, BitVec.ofNat_toNat, BitVec.setWidth_eq], hrestored⟩

/-- Settles O54: byte k is XORed with the same keystream byte by both commands (`ctr_result`), which leaves it as it was. -/
theorem counterModeTwiceRestoresTheMessage : Obligations.CounterModeTwiceRestoresTheMessage := by
  intro s t dst2 hs hexec ht u hroom
  obtain ⟨hl, hin, hsetup, hout⟩ := ctr_result hs ht hexec
  have hRK : u.RK = s.RK := hsetup.RK
  have hRKLEN : u.RKLEN = s.RKLEN := hsetup.RKLEN
  have hIV : u.IV = s.IV := hsetup.IV
  have hLEN : u.LEN = s.LEN := hsetup.LEN
  have hmemSize : u.memSize = s.memSize := hsetup.memSize
  have hroom := hroom.imp_left fun h : s.LEN = 0 => show s.LEN.toNat = 0 by rw [h]; rfl
  have hranges : s.LEN.toNat = 0 ∨
      s.DST.toNat + s.LEN.toNat ≤ s.memSize ∧ dst2.toNat + s.LEN.toNat ≤ s.memSize := by omega
  have hapart : s.LEN.toNat = 0 ∨
      s.DST.toNat + s.LEN.toNat ≤ dst2.toNat ∨ dst2.toNat + s.LEN.toNat ≤ s.DST.toNat := by omega
  obtain ⟨-, hresult⟩ := ctrXorsTheKeystream
  obtain ⟨-, -, -, hpass⟩ := hresult u ht
  obtain ⟨v, hexec', hframe, hout', -⟩ :=
    hpass (hRKLEN ▸ hl) (by rw [hLEN, hmemSize]; exact hranges) (by rw [hLEN]; exact hapart)
  rw [hRK, hRKLEN, hIV, hLEN] at hout'
  refine ⟨v, hexec', by rw [hframe]; exact ht, by rw [hframe]; exact hLEN, ?message⟩
  case message =>
    refine (Memory.readBytes_eq_iff _ _ _ s.message (Memory.readBytes_length _ _ _)).2 fun k hk => ?_
    have hk : k < s.LEN.toNat := by rwa [State.message, Memory.readBytes_length] at hk
    rw [hout' k hk, hout k hk, ctrByte, BitVec.xor_assoc, BitVec.xor_self, BitVec.xor_zero]
    exact (Memory.readBytes_getElem ..).symm

/-! ### The words of every format (R91 to R95) -/

/-- Settles O5: each word is the encoding of its command, which decodes to it (`decodeInvertsEncode`). -/
theorem wordsOfEveryFormatDecode : Obligations.WordsOfEveryFormatDecode :=
  ⟨decodeInvertsEncode .nop rfl, decodeInvertsEncode .enc rfl, decodeInvertsEncode (.gfmul 5 0 1) rfl,
    decodeInvertsEncode (.wadd 15 14 13) rfl, decodeInvertsEncode (.xtime 3 2) rfl,
    decodeInvertsEncode (.wins 4 1 1) rfl, decodeInvertsEncode (.li 9 0x0E090D0B) rfl, decodeInvertsEncode (.rd 6) rfl,
    decodeInvertsEncode (.csrr 6 0x044) rfl, decodeInvertsEncode (.csrw 0x010 3) rfl,
    decodeInvertsEncode (.csrwi 0x017 0xFCFDFEFF) rfl, decodeInvertsEncode (.csrrd 0x01B) rfl,
    decodeInvertsEncode (.addrk 10) rfl, decodeInvertsEncode (.ldrk 8) rfl⟩

end Sys2Proof.Machine
